-- ==== Sys2Proof/Word.lean ====
section
/-! DEFINITION. The words of the hardware (spec/00_scope.md R7, R9, R10). -/

namespace Sys2Proof

/-- A host register: 64 bits (R7). -/
abbrev Word := BitVec 64

/-- A command word: 32 bits (R7, R80). -/
abbrev CmdWord := BitVec 32

/-- A byte of the store (R50). -/
abbrev Byte := BitVec 8

/-- A byte position or byte address: 61 bits (R7, R28). -/
abbrev BytePos := BitVec 61

/-- A bit offset inside a byte: 3 bits (R29). -/
abbrev BitOff := BitVec 3

end Sys2Proof
end

