-- ==== Sys2Proof/Syntax.lean ====
section
/-! DEFINITION. The commands: one constructor per row of spec/opcode_table.json, with the fields the row lets vary
(spec/30_encoding.md R81, R85). -/

namespace Sys2Proof

/-- The ten packed-integer widths, in the order of WIDX 0 to 9 (R83). -/
inductive Width where
  | w2 | w3 | w4 | w5 | w6 | w7 | w10 | w12 | w24 | w48
deriving DecidableEq, Repr

/-- The signedness a field S or S2 selects: 0 unsigned, 1 signed (R81, R83). -/
inductive Sign where
  | unsigned
  | signed
deriving DecidableEq, Repr

/-- A command. `n` is the 7-bit count field N, `peek` the field P, `width` and `sign` the type code (S, WIDX), and
`sign2` the field S2 (R81). The data operands are not in the word (R82, R84). -/
inductive Instr where
  /-- 0x01 WRBIT (R117) -/
  | wrbit
  /-- 0x02 WRBITS (R118) -/
  | wrbits (n : BitVec 7)
  /-- 0x03 RDBIT (R119) -/
  | rdbit (peek : Bool)
  /-- 0x04 RDBITS (R120) -/
  | rdbits (n : BitVec 7) (peek : Bool)
  /-- 0x05 WRBYTES (R121) -/
  | wrbytes (n : BitVec 7)
  /-- 0x06 RDBYTES (R122) -/
  | rdbytes (n : BitVec 7) (peek : Bool)
  /-- 0x07 ALIGN (R125) -/
  | align
  /-- 0x08 SETPOS (R126) -/
  | setpos
  /-- 0x09 SKIPBITS (R127) -/
  | skipbits
  /-- 0x0A SKIPBYTES (R128) -/
  | skipbytes
  /-- 0x0B RELEASE (R130) -/
  | release
  /-- 0x10 PWR (R170) -/
  | pwr (width : Width) (sign sign2 : Sign)
  /-- 0x11 PRD (R171) -/
  | prd (width : Width) (sign : Sign) (peek : Bool)
  /-- 0x12 PFMT (R172) -/
  | pfmt (width : Width) (sign sign2 : Sign)
  /-- 0x13 PVAL (R173) -/
  | pval (width : Width) (sign : Sign)
  /-- 0x14 PBIT (R175) -/
  | pbit (width : Width) (sign : Sign)
  /-- 0x15 PBYTES (R174): well formed for the widths 24 and 48 only -/
  | pbytes (width : Width) (sign : Sign)
  /-- 0x16 PEQ (R176) -/
  | peq (width : Width) (sign sign2 : Sign)
  /-- 0x20 WRUE (R210) -/
  | wrue
  /-- 0x21 RDUE (R211) -/
  | rdue (peek : Bool)
  /-- 0x22 WRSE (R212) -/
  | wrse
  /-- 0x23 RDSE (R213) -/
  | rdse (peek : Bool)
  /-- 0x24 WRTE (R214) -/
  | wrte
  /-- 0x25 RDTE (R215) -/
  | rdte (peek : Bool)
deriving DecidableEq, Repr

end Sys2Proof
end

