-- ==== Sys2Proof/WellFormed.lean ====
section
/-! DEFINITION. Which commands have a command word (spec/30_encoding.md R86, R87). The widths of the fields and the ten
packed-integer widths are already in the types, so one check is left: the widths PBYTES accepts. -/

namespace Sys2Proof

/-- PBYTES exists for the byte-addressable widths 24 and 48 only (R86, R174). -/
def Width.byteAddressable : Width → Bool
  | .w24 | .w48 => true
  | .w2 | .w3 | .w4 | .w5 | .w6 | .w7 | .w10 | .w12 => false

/-- A command some legal command word stands for. -/
def Instr.wf : Instr → Bool
  | .pbytes width _ => width.byteAddressable
  | .wrbit | .wrbits _ | .rdbit _ | .rdbits _ _ | .wrbytes _ | .rdbytes _ _ | .align | .setpos | .skipbits
  | .skipbytes | .release => true
  | .pwr _ _ _ | .prd _ _ _ | .pfmt _ _ _ | .pval _ _ | .pbit _ _ | .peq _ _ _ => true
  | .wrue | .rdue _ | .wrse | .rdse _ | .wrte | .rdte _ => true

end Sys2Proof
end

