-- ==== Sys2Proof/Decode.lean ====
section
/-! DEFINITION. The decoder, total on command words and rejecting by name, and the encoder (spec/30_encoding.md R80 to
R88). The word alone decides (R80). -/

namespace Sys2Proof

/-- Why a word is illegal (R87, R240). Every one raises IllegalCommand; the name says which case of R87 it is. -/
inductive Illegal where
  /-- R87 (a): the OPC is assigned to no row of R85. -/
  | unassignedOpcode
  /-- R87 (a): a field the opcode does not use, or a reserved bit 31:22, is not 0. -/
  | unusedField
  /-- R87 (b): WIDX >= 10 where WIDX is free. -/
  | reservedWidth
  /-- R86, R87 (a): PBYTES with a WIDX other than 8 or 9. -/
  | pbytesWidth
deriving DecidableEq, Repr

/-! ### Fields (R81, R82) -/

def opcOf (w : CmdWord) : BitVec 8 := w.extractLsb' 0 8
def countOf (w : CmdWord) : BitVec 7 := w.extractLsb' 8 7
def peekOf (w : CmdWord) : Bool := w.getLsbD 15
def widxOf (w : CmdWord) : BitVec 4 := w.extractLsb' 16 4
def signOfBit (b : Bool) : Sign := if b then .signed else .unsigned
def signOf (w : CmdWord) : Sign := signOfBit (w.getLsbD 20)
def sign2Of (w : CmdWord) : Sign := signOfBit (w.getLsbD 21)

/-- The masks of the fields (R86); a row's mask has a 1 in every bit but those its fields let vary. -/
def maskN : CmdWord := 0x00007F00#32
def maskP : CmdWord := 0x00008000#32
def maskWidx : CmdWord := 0x000F0000#32
def maskS : CmdWord := 0x00100000#32
def maskS2 : CmdWord := 0x00200000#32
def maskOpc : CmdWord := 0x000000FF#32

/-- The width a WIDX selects (R83); 10 to 15 are reserved. -/
def widthOfIndex (x : BitVec 4) : Option Width :=
  if x = 0#4 then some .w2 else if x = 1#4 then some .w3 else if x = 2#4 then some .w4
  else if x = 3#4 then some .w5 else if x = 4#4 then some .w6 else if x = 5#4 then some .w7
  else if x = 6#4 then some .w10 else if x = 7#4 then some .w12 else if x = 8#4 then some .w24
  else if x = 9#4 then some .w48 else none

/-- The WIDX of a width (R83). -/
def widthIndex : Width → BitVec 4
  | .w2 => 0 | .w3 => 1 | .w4 => 2 | .w5 => 3 | .w6 => 4 | .w7 => 5 | .w10 => 6 | .w12 => 7 | .w24 => 8 | .w48 => 9

/-! ### Decoding -/

/-- The command `i`, if the word has no non-zero bit outside OPC and the fields `free` (R85, R87 (a)). -/
def ifUnusedZero (w free : CmdWord) (i : Instr) : Except Illegal Instr :=
  if w &&& ~~~(maskOpc ||| free) = 0#32 then .ok i else .error .unusedField

/-- A command with a free WIDX: as `ifUnusedZero`, and then R87 (b). -/
def ifWidth (w free : CmdWord) (f : Width → Instr) : Except Illegal Instr :=
  if w &&& ~~~(maskOpc ||| maskWidx ||| free) = 0#32 then
    match widthOfIndex (widxOf w) with
    | some width => .ok (f width)
    | none => .error .reservedWidth
  else .error .unusedField

/-- PBYTES fixes WIDX[3:1] to 0b100 (R86). -/
def ifByteWidth (w : CmdWord) (f : Width → Instr) : Except Illegal Instr :=
  if w &&& ~~~(maskOpc ||| maskWidx ||| maskS) = 0#32 then
    if widxOf w = 8#4 then .ok (f .w24) else if widxOf w = 9#4 then .ok (f .w48) else .error .pbytesWidth
  else .error .unusedField

/-- The command a command word stands for, or the reason it is illegal (R80, R85, R87). -/
def decode (w : CmdWord) : Except Illegal Instr :=
  let n := countOf w
  let p := peekOf w
  let s := signOf w
  let s2 := sign2Of w
  match (opcOf w).toNat with
  | 0x01 => ifUnusedZero w 0 .wrbit
  | 0x02 => ifUnusedZero w maskN (.wrbits n)
  | 0x03 => ifUnusedZero w maskP (.rdbit p)
  | 0x04 => ifUnusedZero w (maskN ||| maskP) (.rdbits n p)
  | 0x05 => ifUnusedZero w maskN (.wrbytes n)
  | 0x06 => ifUnusedZero w (maskN ||| maskP) (.rdbytes n p)
  | 0x07 => ifUnusedZero w 0 .align
  | 0x08 => ifUnusedZero w 0 .setpos
  | 0x09 => ifUnusedZero w 0 .skipbits
  | 0x0A => ifUnusedZero w 0 .skipbytes
  | 0x0B => ifUnusedZero w 0 .release
  | 0x10 => ifWidth w (maskS ||| maskS2) fun t => .pwr t s s2
  | 0x11 => ifWidth w (maskS ||| maskP) fun t => .prd t s p
  | 0x12 => ifWidth w (maskS ||| maskS2) fun t => .pfmt t s s2
  | 0x13 => ifWidth w maskS fun t => .pval t s
  | 0x14 => ifWidth w maskS fun t => .pbit t s
  | 0x15 => ifByteWidth w fun t => .pbytes t s
  | 0x16 => ifWidth w (maskS ||| maskS2) fun t => .peq t s s2
  | 0x20 => ifUnusedZero w 0 .wrue
  | 0x21 => ifUnusedZero w maskP (.rdue p)
  | 0x22 => ifUnusedZero w 0 .wrse
  | 0x23 => ifUnusedZero w maskP (.rdse p)
  | 0x24 => ifUnusedZero w 0 .wrte
  | 0x25 => ifUnusedZero w maskP (.rdte p)
  | _ => .error .unassignedOpcode

/-- The instruction the decoder reads from a table word: bit 0 of `w` is bit 0 of the command word, and bits at and
above `nbits` are 0. -/
def decodeTableWord (nbits w : Nat) : Option Instr :=
  match decode (BitVec.ofNat 32 (w % 2 ^ nbits)) with
  | .ok i => some i
  | .error _ => none

/-! ### Encoding, from the same tables -/

/-- The opcode of a command (R85). -/
def opcodeOf : Instr → CmdWord
  | .wrbit => 0x01 | .wrbits _ => 0x02 | .rdbit _ => 0x03 | .rdbits _ _ => 0x04 | .wrbytes _ => 0x05
  | .rdbytes _ _ => 0x06 | .align => 0x07 | .setpos => 0x08 | .skipbits => 0x09 | .skipbytes => 0x0A | .release => 0x0B
  | .pwr _ _ _ => 0x10 | .prd _ _ _ => 0x11 | .pfmt _ _ _ => 0x12 | .pval _ _ => 0x13 | .pbit _ _ => 0x14
  | .pbytes _ _ => 0x15 | .peq _ _ _ => 0x16
  | .wrue => 0x20 | .rdue _ => 0x21 | .wrse => 0x22 | .rdse _ => 0x23 | .wrte => 0x24 | .rdte _ => 0x25

def Sign.bit : Sign → Bool
  | .unsigned => false
  | .signed => true

def putN (n : BitVec 7) : CmdWord := n.setWidth 32 <<< 8
def putP (p : Bool) : CmdWord := if p then maskP else 0
def putWidx (t : Width) : CmdWord := (widthIndex t).setWidth 32 <<< 16
def putS (s : Sign) : CmdWord := if s.bit then maskS else 0
def putS2 (s : Sign) : CmdWord := if s.bit then maskS2 else 0

/-- The fields of a command in their places (R81, R89). -/
def fieldsOf : Instr → CmdWord
  | .wrbits n => putN n
  | .rdbit p => putP p
  | .rdbits n p => putN n ||| putP p
  | .wrbytes n => putN n
  | .rdbytes n p => putN n ||| putP p
  | .pwr t s s2 => putWidx t ||| putS s ||| putS2 s2
  | .prd t s p => putWidx t ||| putS s ||| putP p
  | .pfmt t s s2 => putWidx t ||| putS s ||| putS2 s2
  | .pval t s => putWidx t ||| putS s
  | .pbit t s => putWidx t ||| putS s
  | .pbytes t s => putWidx t ||| putS s
  | .peq t s s2 => putWidx t ||| putS s ||| putS2 s2
  | .rdue p => putP p
  | .rdse p => putP p
  | .rdte p => putP p
  | .wrbit | .align | .setpos | .skipbits | .skipbytes | .release | .wrue | .wrse | .wrte => 0

/-- The command word of a well-formed command (R81, R85, R89). -/
def encode (i : Instr) : CmdWord := opcodeOf i ||| fieldsOf i

end Sys2Proof
end

