-- ==== Sys2Proof/Config.lean ====
section
/-! DEFINITION. The parameters the spec leaves to an implementation (spec/00_scope.md R8; spec/92_eei_decisions.md
"Open parameters"). They are carried in State as plain data that no step changes, so a claim over every state is a
claim over every value of them. -/

namespace Sys2Proof

/-- STORE_CAP and INIT_AU (R8). -/
structure Config where
  /-- The largest byte-store length the store admits, 1 <= STORE_CAP <= 2^61 - 1: OPEN (R8, D12). -/
  storeCap : Nat
  /-- The reset value of CTRL.AU, a reset strap (R8, D19). -/
  initAu : Bool
deriving DecidableEq, Repr

/-- The range R8 gives STORE_CAP. -/
abbrev Config.wf (c : Config) : Prop := 1 ≤ c.storeCap ∧ c.storeCap ≤ 2 ^ 61 - 1

/-- The parameters `State.reset` takes. INIT_AU is the spec's default, 0 (R8; log entry 4).
DESIGN CHOICE (log entry 3): STORE_CAP is OPEN, and the largest value of its range stands here so that the machine
can be run; unsafe for a claim about `State.reset` alone that leans on it, and no claim of this package does. -/
def Config.default : Config := { storeCap := 2 ^ 61 - 1, initAu := false }

end Sys2Proof
end

