-- ==== Sys2Proof/Machine/State.lean ====
section
/-! DEFINITION. The machine's state as plain data, its faults and refusals, and the state after reset
(spec/10_state.md; spec/20_memory.md R50; spec/70_reset_and_hazards.md R270). -/

namespace Sys2Proof.Machine

/-- The code style CTRL.GMODE selects: 0 STANDARD, 1 COMPAT (10_state.md R24; 42_exp_golomb.md R201). -/
inductive GolombStyle where
  | standard
  | compat
deriving DecidableEq, Repr

/-- The values of STATUS.ERR that are ever produced (10_state.md R25; 60_exceptions.md R241). -/
inductive ErrCode where
  | ok
  | streamUnaligned
  | endOfStream
  | argumentRange
  | illegalCommand
deriving DecidableEq, Repr

/-- The bytes of the store: addresses strictly rising, no byte equal to what an unlisted address reads as, which is 0
(`Memory.wf`). -/
abbrev Memory := List Host.Cell

/-- The canonical form of a memory. -/
abbrev Memory.wf (m : Memory) : Prop := m.Pairwise (fun x y => x.1 < y.1) ∧ ∀ c ∈ m, c.2 ≠ 0#8

/-- The cursor and the byte store: exactly what a peek saves and restores (40_cursor.md R131) and what the cursor
micro-operations act on (R111 to R115). -/
structure Stream where
  /-- BYTE_POS (10_state.md R28) -/
  bytePos : BytePos
  /-- BIT_OFF (10_state.md R29) -/
  bitOff : BitOff
  /-- PEND (10_state.md R30) -/
  pend : Byte
  /-- HPW (10_state.md R31) -/
  hpw : Bool
  /-- the bytes of the store (20_memory.md R50) -/
  mem : Memory
  /-- LEN (20_memory.md R50) -/
  len : Nat
  /-- STORE_POS (20_memory.md R50, R69) -/
  storePos : BytePos
deriving DecidableEq, Repr

/-- One access of the host, the other agent (10_state.md R20). DESIGN CHOICE (log entry 1): the accesses the host is
going to make stand in State as a list, so that the step is one function of the state. -/
inductive HostAccess where
  /-- a 64-bit write at a byte offset of the register space (R36); at 0x40 it executes a command (R34) -/
  | regWrite (offset : Nat) (value : Word)
  /-- a 64-bit read at a byte offset of the register space (R36) -/
  | regRead (offset : Nat)
  /-- reads the store byte at an address (20_memory.md R70) -/
  | storeRead (addr : Nat)
  /-- writes the store byte at an existing address (R70) -/
  | storeWrite (addr : Nat) (value : Byte)
  /-- appends a byte to the store (R70) -/
  | storeAppend (value : Byte)
  /-- truncates the store to a length (R70) -/
  | storeTruncate (len : Nat)
  /-- reads LEN, the store's Length (R50) -/
  | storeReadLen
  /-- writes STORE_POS (R69, R70) -/
  | storeSeek (pos : BytePos)
  /-- reads STORE_POS (R69) -/
  | storeTell
  /-- the reset input, taken between commands (70_reset_and_hazards.md R271) -/
  | reset
deriving DecidableEq, Repr

/-- Everything the spec gives the machine. -/
structure State where
  /-- STORE_CAP and INIT_AU, the parameters (00_scope.md R8); no step changes them -/
  cfg : Config
  /-- CTRL.AU (10_state.md R24) -/
  au : Bool
  /-- CTRL.GMODE (R24) -/
  gmode : GolombStyle
  /-- STATUS.ERR (R25) -/
  err : ErrCode
  /-- STATUS.BITS_LEFT (R25) -/
  bitsLeft : BitVec 4
  /-- the cursor registers and the byte store (R28 to R31; 20_memory.md R50) -/
  stream : Stream
  /-- ARG0 (R32) -/
  arg0 : Word
  /-- ARG1 (R32) -/
  arg1 : Word
  /-- RES0 (R33) -/
  res0 : Word
  /-- RES1 (R33) -/
  res1 : Word
  /-- the host's accesses still to come, the next first; the model's own field (log entry 1) -/
  host : List HostAccess
  /-- what the host's last read returned; the model's own field (log entry 2) -/
  hostData : Word
deriving DecidableEq, Repr

/-- Why a step does not exist. -/
inductive Fault where
  /-- Raised by a commit at an address at or above STORE_CAP: the command is stuck, it has no step (20_memory.md R56;
  60_exceptions.md R247). Safe: the spec gives the command no step either. -/
  | storeFull
  /-- Raised by a cursor step that would set BYTE_POS to 2^61: stuck in the same way (20_memory.md R57). Safe, as
  `storeFull`. -/
  | positionOverflow
  /-- Raised by a host store read or write at an address >= LEN, which does not exist (20_memory.md R50, R70; log
  entry 7). Safe: the model stops where the spec says nothing. -/
  | hostStoreAddress
  /-- Raised by a host append to a store of length STORE_CAP, the largest the store admits (00_scope.md R8; log
  entry 7). Safe, as `hostStoreAddress`. -/
  | hostStoreFull
deriving DecidableEq, Repr

/-- Why an instruction has no meaning. No arm of `exec` uses it: every instruction of the table has its meaning. -/
inductive Refusal where
  /-- Raised by an arm of `exec` for an instruction without a meaning yet. Safe. -/
  | notModelled (mnemonic : String)
deriving DecidableEq, Repr

/-- The cursor and STORE_POS after reset (R270) over a byte store the host supplies (R272). -/
def Stream.resetOver (mem : Memory) (len : Nat) : Stream :=
  { bytePos := 0#61, bitOff := 0#3, pend := 0#8, hpw := false, mem := mem, len := len, storePos := 0#61 }

/-- The machine right after reset (70_reset_and_hazards.md R270) with the parameters `cfg`, over an empty store, no
host access to come and nothing read yet. -/
def State.resetWith (cfg : Config) : State :=
  { cfg := cfg, au := cfg.initAu, gmode := .standard, err := .ok, bitsLeft := 0#4, stream := Stream.resetOver [] 0,
    arg0 := 0#64, arg1 := 0#64, res0 := 0#64, res1 := 0#64, host := [], hostData := 0#64 }

/-- The machine right after reset. DESIGN CHOICE (log entries 1, 2, 3, 5): the store is empty, the host has no access
to come, `hostData` is 0 and STORE_CAP is the largest of its range. Everything else is R270's. -/
def State.reset : State := State.resetWith Config.default

end Sys2Proof.Machine
end

