-- ==== Sys2Proof/Machine/Ops.lean ====
section
/-! DEFINITION. The shared operations: one byte of the store (spec/20_memory.md R54 to R57), the cursor
micro-operations (spec/40_cursor.md R111 to R116), and how a command ends: success (spec/60_exceptions.md R242), an error,
the ONE operation that takes an exception of this machine (R243, R244), or no step at all (R247).

There is no return from an exception: R253 says that nothing is saved and nothing is restored later. -/

namespace Sys2Proof.Machine

/-! ### Memory in its canonical form -/

/-- The byte at an address: the listed one, and 0 where none is listed (20_memory.md R56 fills every gap with 0). -/
def Memory.read (m : Memory) (a : Nat) : Byte :=
  match m with
  | [] => 0#8
  | c :: rest => if c.1 = a then c.2 else Memory.read rest a

/-- The memory with one byte replaced; a byte 0 is not listed. -/
def Memory.write (m : Memory) (a : Nat) (b : Byte) : Memory :=
  match m with
  | [] => if b = 0#8 then [] else [(a, b)]
  | c :: rest =>
    if c.1 < a then c :: Memory.write rest a b
    else if c.1 = a then (if b = 0#8 then rest else (a, b) :: rest)
    else if b = 0#8 then c :: rest else (a, b) :: c :: rest

/-- `mem[lo .. hi-1] <- 0` (R56). -/
def Memory.zeroFill (m : Memory) (lo hi : Nat) : Memory := m.filter fun c => c.1 < lo || hi ≤ c.1

/-- The bytes below an address. -/
def Memory.truncate (m : Memory) (len : Nat) : Memory := m.filter fun c => c.1 < len

/-! ### Results of the micro-operations -/

/-- What a command can raise, with the information R243 records. IllegalCommand is the decoder's (R240). -/
inductive Raise where
  | streamUnaligned (bitsLeft : BitVec 4)
  | endOfStream
  | argumentRange
  | illegalCommand
deriving DecidableEq, Repr

/-- A micro-operation ends with a value and the stream it leaves, raises an error, or is stuck (00_scope.md R12). -/
inductive Res (α : Type) where
  | ok (a : α) (st : Stream)
  | raise (e : Raise)
  | stuck (f : Fault)
deriving Repr

/-- Sequencing, top to bottom (00_scope.md R13). -/
def Res.bind {α β : Type} (r : Res α) (f : α → Stream → Res β) : Res β :=
  match r with
  | .ok a st => f a st
  | .raise e => .raise e
  | .stuck e => .stuck e

/-- The value of a result, changed by a function. -/
def Res.map {α β : Type} (g : α → β) (r : Res α) : Res β := r.bind fun a st => .ok (g a) st

/-! ### One byte of the store -/

/-- `MemRead(a, 1)` for the byte at BYTE_POS, put into PEND; the caller has checked BYTE_POS < LEN (R54, R55). -/
def Stream.latch (st : Stream) : Stream :=
  { st with pend := st.mem.read st.bytePos.toNat, storePos := BitVec.ofNat 61 (st.bytePos.toNat + 1) }

/-- The store after the byte `b` has been put at the address `a`, a gap below it filled with 0 (R56). -/
def Stream.store (a : Nat) (b : Byte) (st : Stream) : Stream :=
  { st with
    mem := (if st.len < a then st.mem.zeroFill st.len a else st.mem).write a b
    len := max st.len (a + 1)
    storePos := BitVec.ofNat 61 (a + 1) }

/-- `MemWrite(a, 1, b)` with the capacity `cap` (R56). -/
def Stream.memWrite (cap a : Nat) (b : Byte) (st : Stream) : Res Unit :=
  if cap ≤ a then .stuck .storeFull else .ok () (st.store a b)

/-! ### The cursor micro-operations -/

/-- `if HPW = 1: MemWrite(BYTE_POS, 1, b)`: the commit of R111, R115 and R126 (R112). -/
def Stream.commitIfPending (cap : Nat) (b : Byte) (st : Stream) : Res Unit :=
  if st.hpw then st.memWrite cap st.bytePos.toNat b else .ok () st

/-- The cursor at the start of the next byte, with nothing pending (R111, R115). -/
def Stream.atNext (st : Stream) : Stream :=
  { st with bytePos := st.bytePos + 1#61, bitOff := 0#3, pend := 0#8, hpw := false }

/-- The step to the next byte that R111 and R115 share; stuck at BYTE_POS = 2^61 (R57). -/
def Stream.nextByte (st : Stream) : Res Unit :=
  if st.bytePos.toNat + 1 < 2 ^ 61 then .ok () st.atNext else .stuck .positionOverflow

/-- `advance()` (R111). -/
def Stream.advance (cap : Nat) (st : Stream) : Res Unit :=
  if st.bitOff = 7#3 then (st.commitIfPending cap st.pend).bind fun _ st => st.nextByte
  else .ok () { st with bitOff := st.bitOff + 1#3 }

/-- `PEND & ~(1 << BIT_OFF) & 0xFF | (b << BIT_OFF)` (R114). -/
def assignBit (p : Byte) (off : BitOff) (b : Bool) : Byte :=
  (p &&& ~~~(1#8 <<< off.toNat)) ||| ((BitVec.ofBool b).setWidth 8 <<< off.toNat)

/-- `put_bit(b)` (R114). -/
def Stream.putBit (cap : Nat) (b : Bool) (st : Stream) : Res Unit :=
  Stream.advance cap { st with pend := assignBit st.pend st.bitOff b, hpw := true }

/-- The part of `get_bit()` before the bit is taken: the fetch, or the test for a byte that does not exist (R113, R55). -/
def Stream.fetch (st : Stream) : Res Unit :=
  if st.bitOff = 0#3 then
    if st.len ≤ st.bytePos.toNat then .raise .endOfStream else .ok () st.latch
  else if !st.hpw && decide (st.len ≤ st.bytePos.toNat) then .raise .endOfStream
  else .ok () st

/-- `get_bit()` (R113). -/
def Stream.getBit (cap : Nat) (st : Stream) : Res Bool :=
  st.fetch.bind fun _ st => (st.advance cap).map fun _ => st.pend.getLsbD st.bitOff.toNat

/-- `put_bit` of each bit of a list in turn: the first is the first in the stream (20_memory.md R58). -/
def Stream.putBits (cap : Nat) (bits : List Bool) (st : Stream) : Res Unit :=
  match bits with
  | [] => .ok () st
  | b :: rest => (st.putBit cap b).bind fun _ st => Stream.putBits cap rest st

/-- `n` times `get_bit`: the bits in stream order (20_memory.md R58). -/
def Stream.getBits (cap : Nat) (n : Nat) (st : Stream) : Res (List Bool) :=
  match n with
  | 0 => .ok [] st
  | n + 1 => (st.getBit cap).bind fun b st => (Stream.getBits cap n st).map fun bits => b :: bits

/-- `PEND & (2^BIT_OFF - 1)` (R115): bits BIT_OFF..7 are 0. -/
def zeroPadded (p : Byte) (off : BitOff) : Byte := p &&& BitVec.ofNat 8 (2 ^ off.toNat - 1)

/-- `align_pad()` (R115). -/
def Stream.alignPad (cap : Nat) (st : Stream) : Res Unit :=
  if st.bitOff = 0#3 then .ok () st
  else (st.commitIfPending cap (zeroPadded st.pend st.bitOff)).bind fun _ st => st.nextByte

/-- The cursor at an absolute bit position, with no pending bits: the part of SETPOS after the commit (R126). -/
def Stream.moveTo (p : Word) (st : Stream) : Stream :=
  let st := { st with
    bytePos := p.extractLsb' 3 61, bitOff := p.extractLsb' 0 3, pend := 0#8, hpw := false, storePos := p.extractLsb' 3 61 }
  if st.bitOff ≠ 0#3 ∧ st.bytePos.toNat < st.len then st.latch else st

/-- The pseudocode of SETPOS (R126). -/
def Stream.setPos (cap : Nat) (p : Word) (st : Stream) : Res Unit :=
  (st.commitIfPending cap st.pend).bind fun _ st => .ok () (st.moveTo p)

/-- The cursor at position 0 with nothing pending: the part of RELEASE after `align_pad` (R130). -/
def Stream.rewind (st : Stream) : Stream :=
  { st with bytePos := 0#61, bitOff := 0#3, pend := 0#8, hpw := false }

/-- `byte_check()` (R116): the number of bits left to complete the current byte is 8 - BIT_OFF. -/
def byteCheck (au : Bool) (st : Stream) : Res Unit :=
  if st.bitOff ≠ 0#3 ∧ au = false then .raise (.streamUnaligned (8#4 - st.bitOff.setWidth 4)) else .ok () st

/-! ### How a command ends -/

/-- The code of an error (60_exceptions.md R241). -/
def Raise.code : Raise → ErrCode
  | .streamUnaligned _ => .streamUnaligned
  | .endOfStream => .endOfStream
  | .argumentRange => .argumentRange
  | .illegalCommand => .illegalCommand

/-- What STATUS.BITS_LEFT records of an error (R243). -/
def Raise.bitsLeft : Raise → BitVec 4
  | .streamUnaligned n => n
  | .endOfStream | .argumentRange | .illegalCommand => 0#4

/-- TAKING AN ERROR (R243, R244): the state `s` at the start of the command, with STATUS written. -/
def State.takeError (s : State) (e : Raise) : State := { s with err := e.code, bitsLeft := e.bitsLeft }

/-- Success (R242): STATUS is 0. -/
def State.clearStatus (s : State) : State := { s with err := .ok, bitsLeft := 0#4 }

/-- The end of a command that started in `s` and whose pseudocode ended in `r`. With `peek` the cursor and the store are
put back as they were (40_cursor.md R131); `deliver` writes the result registers the command names (10_state.md R33). -/
def State.finish {α : Type} (s : State) (peek : Bool) (r : Res α) (deliver : α → State → State) :
    Host.Outcome State Fault Refusal :=
  match r with
  | .ok a st => .next (deliver a { s with stream := if peek then s.stream else st }).clearStatus
  | .raise e => .next (s.takeError e)
  | .stuck f => .fault f

/-- A command that names no result register leaves both unchanged (10_state.md R33). -/
def noResult {α : Type} (_ : α) (s : State) : State := s

def State.setRes0 (v : Word) (s : State) : State := { s with res0 := v }
def State.setRes1 (v : Word) (s : State) : State := { s with res1 := v }
def State.setRes (v0 v1 : Word) (s : State) : State := { s with res0 := v0, res1 := v1 }

end Sys2Proof.Machine
end

