-- ==== Sys2Proof/Machine/Operands.lean ====
section
/-! DEFINITION. How each command reads its operands (spec/30_encoding.md R84), and the pure functions of the two
formatters: packed integers (spec/41_packed_int.md R160 to R167) and Exp-Golomb codes (spec/42_exp_golomb.md R202 to
R208). -/

namespace Sys2Proof.Machine

/-! ### Fields of bits -/

/-- Bits 0 to n-1 of a field, in stream order: least significant first (20_memory.md R58). -/
def fieldBits (v : Word) (n : Nat) : List Bool := (List.range n).map fun i => v.getLsbD i

/-- `r | (get_bit() << i)` over the bits read, first bit least significant (40_cursor.md R120). -/
def natOfBits : List Bool → Nat
  | [] => 0
  | b :: rest => b.toNat + 2 * natOfBits rest

/-- The field as a register holds it. -/
def wordOfBits (bits : List Bool) : Word := BitVec.ofNat 64 (natOfBits bits)

/-! ### Packed integers -/

/-- N_T (30_encoding.md R83). -/
def widthBits : Width → Nat
  | .w2 => 2 | .w3 => 3 | .w4 => 4 | .w5 => 5 | .w6 => 6 | .w7 => 7 | .w10 => 10 | .w12 => 12 | .w24 => 24 | .w48 => 48

/-- MASK = 2^N - 1 (41_packed_int.md, opening). -/
def packMask (t : Width) : Word := BitVec.ofNat 64 (2 ^ widthBits t - 1)

/-- MMASK = 2^(N-1) - 1. -/
def magMask (t : Width) : Word := BitVec.ofNat 64 (2 ^ (widthBits t - 1) - 1)

/-- The sign bit N-1 of a signed pattern, in its place. -/
def signMask (t : Width) : Word := BitVec.ofNat 64 (2 ^ (widthBits t - 1))

/-- `fmt(T, s2, a)`: the pattern of a source integer (R161). It never fails (R162). -/
def fmt (t : Width) (s s2 : Sign) (a : Word) : Word :=
  match s with
  | .unsigned => a &&& packMask t
  | .signed =>
    let neg := s2 = .signed ∧ a.msb = true
    let abs := if neg then -a else a
    (if neg then signMask t else 0) ||| (abs &&& magMask t)

/-- `val(T, p)`: the logical value of a pattern (R163). -/
def packVal (t : Width) (s : Sign) (p : Word) : Int :=
  let p := p &&& packMask t
  match s with
  | .unsigned => p.toNat
  | .signed =>
    let mag := (p &&& magMask t).toNat
    if p.getLsbD (widthBits t - 1) then -(mag : Int) else mag

/-- `out(T, p) = tc64(val(T, p))` (R163). -/
def packOut (t : Width) (s : Sign) (p : Word) : Word := BitVec.ofInt 64 (packVal t s p)

/-- `peq(N, SA, A, SB, B)` (R167). -/
def packEq (t : Width) (sa : Sign) (a : Word) (sb : Sign) (b : Word) : Bool :=
  let a := a &&& packMask t
  let b := b &&& packMask t
  if sa = sb then a = b
  else
    let sv := if sa = .signed then a else b
    let uv := if sa = .signed then b else a
    !sv.getLsbD (widthBits t - 1) && decide (sv &&& magMask t = uv)

/-! ### Exp-Golomb codes -/

/-- The unsigned 32-bit value of ARG0[31:0] or ARG1[31:0] (30_encoding.md R84). -/
def low32 (a : Word) : Nat := (a.setWidth 32).toNat

/-- The signed 32-bit value of ARG0[31:0] (30_encoding.md R84). -/
def signed32 (a : Word) : Int := (a.setWidth 32).toInt

/-- The bits `k - 1` downto 0 of `x`, in that order. -/
def downBits (x k : Nat) : List Bool :=
  match k with
  | 0 => []
  | k + 1 => x.testBit k :: downBits x k

/-- The code of the code number `c`: the bits `emit_ue` writes, in stream order (R202, R204, R206). -/
def ueCode (style : GolombStyle) (c : Nat) : List Bool :=
  let x := c + 1
  let m := x.log2
  match style with
  | .standard => List.replicate m false ++ downBits x (m + 1)
  | .compat => downBits x (2 * m)

/-- The count `emit_ue` returns (R204). -/
def ueWritten (style : GolombStyle) (c : Nat) : Nat :=
  let m := (c + 1).log2
  match style with
  | .standard => 2 * m + 1
  | .compat => 2 * m

/-- The longest run of zeros `parse_ue` admits (R205). -/
def zmax : GolombStyle → Nat
  | .standard => 32
  | .compat => 31

/-- How many suffix bits follow a run of `z` zeros and its 1 (R205). -/
def suffixLength (style : GolombStyle) (z : Nat) : Nat :=
  match style with
  | .standard => z
  | .compat => z + 1

/-- `x <- 1`, then `x <- 2x + get_bit()` for each suffix bit (R205). -/
def suffixValue (bits : List Bool) : Nat := bits.foldl (fun x b => 2 * x + b.toNat) 1

/-- The unary run of zeros of `parse_ue`, with the terminating 1: `left` more zeros are admitted (R205). -/
def Stream.zeroRun (cap : Nat) (left : Nat) (z : Nat) (st : Stream) : Res Nat :=
  (st.getBit cap).bind fun b st =>
    if b then .ok z st
    else
      match left with
      | 0 => .raise .argumentRange
      | left + 1 => Stream.zeroRun cap left (z + 1) st

/-- `parse_ue()`: the code number and the count it reports (R205). -/
def Stream.parseUe (cap : Nat) (style : GolombStyle) (st : Stream) : Res (Nat × Nat) :=
  (Stream.zeroRun cap (zmax style) 0 st).bind fun z st =>
    (st.getBits cap (suffixLength style z)).map fun bits => (suffixValue bits - 1, 2 * z + 1)

/-- `se_to_code(v)` (R207). -/
def seToCode (v : Int) : Nat := if 0 < v then (2 * v - 1).toNat else (-2 * v).toNat

/-- `code_to_se(c)` (R207). -/
def codeToSe (c : Nat) : Int := if c % 2 = 1 then ((c + 1) / 2 : Nat) else -((c / 2 : Nat) : Int)

/-- The single inverted bit of a te code with a maximum of at most 1 (R208). -/
def teBit (v : Nat) : Bool := decide (v = 0)

end Sys2Proof.Machine
end

