-- ==== Sys2Proof/Machine/Cursor.lean ====
section
/-! DEFINITION. The cursor commands (spec/40_cursor.md R117 to R131). -/

namespace Sys2Proof.Machine

/-- WRBIT: `put_bit(ARG0[0])` (R117). -/
def execWrbit (s : State) : Host.Outcome State Fault Refusal :=
  s.finish false (s.stream.putBit s.cfg.storeCap (s.arg0.getLsbD 0)) noResult

/-- WRBITS (R118). -/
def execWrbits (n : BitVec 7) (s : State) : Host.Outcome State Fault Refusal :=
  s.finish false
    (if 64 < n.toNat then .raise .argumentRange else s.stream.putBits s.cfg.storeCap (fieldBits s.arg0 n.toNat)) noResult

/-- RDBIT (R119). -/
def execRdbit (peek : Bool) (s : State) : Host.Outcome State Fault Refusal :=
  s.finish peek (s.stream.getBit s.cfg.storeCap) fun b => State.setRes0 ((BitVec.ofBool b).setWidth 64)

/-- RDBITS (R120). -/
def execRdbits (n : BitVec 7) (peek : Bool) (s : State) : Host.Outcome State Fault Refusal :=
  s.finish peek (if 64 < n.toNat then .raise .argumentRange else s.stream.getBits s.cfg.storeCap n.toNat)
    fun bits => State.setRes0 (wordOfBits bits)

/-- WRBYTES (R121): the count is tested before the alignment (60_exceptions.md R245). -/
def execWrbytes (n : BitVec 7) (s : State) : Host.Outcome State Fault Refusal :=
  s.finish false
    (if 8 < n.toNat then .raise .argumentRange
      else (byteCheck s.au s.stream).bind fun _ st => st.putBits s.cfg.storeCap (fieldBits s.arg0 (8 * n.toNat)))
    noResult

/-- RDBYTES (R122): the count is tested before the alignment (60_exceptions.md R245). -/
def execRdbytes (n : BitVec 7) (peek : Bool) (s : State) : Host.Outcome State Fault Refusal :=
  s.finish peek
    (if 8 < n.toNat then .raise .argumentRange
      else (byteCheck s.au s.stream).bind fun _ st => st.getBits s.cfg.storeCap (8 * n.toNat))
    fun bits => State.setRes0 (wordOfBits bits)

/-- ALIGN: `align_pad()` (R125). -/
def execAlign (s : State) : Host.Outcome State Fault Refusal :=
  s.finish false (s.stream.alignPad s.cfg.storeCap) noResult

/-- SETPOS to the bit position in ARG0 (R126). -/
def execSetpos (s : State) : Host.Outcome State Fault Refusal :=
  s.finish false (s.stream.setPos s.cfg.storeCap s.arg0) noResult

/-- SKIPBITS over ARG0 bits (R127). -/
def execSkipbits (s : State) : Host.Outcome State Fault Refusal :=
  s.finish false (s.stream.getBits s.cfg.storeCap s.arg0.toNat) noResult

/-- SKIPBYTES over ARG0 bytes; 8 * ARG0 is exact (R128). -/
def execSkipbytes (s : State) : Host.Outcome State Fault Refusal :=
  s.finish false
    ((byteCheck s.au s.stream).bind fun _ st => st.getBits s.cfg.storeCap (8 * s.arg0.toNat)) noResult

/-- RELEASE: `align_pad()`, then position 0 (R130). -/
def execRelease (s : State) : Host.Outcome State Fault Refusal :=
  s.finish false ((s.stream.alignPad s.cfg.storeCap).bind fun _ st => .ok () st.rewind) noResult

end Sys2Proof.Machine
end

