-- ==== Sys2Proof/Machine/ExpGolomb.lean ====
section
/-! DEFINITION. The Exp-Golomb commands (spec/42_exp_golomb.md R210 to R215). The reported count goes to RES1 and a
decoded value to RES0 (R209). -/

namespace Sys2Proof.Machine

/-- `emit_ue(c)`: writes the code and gives the count (R204). -/
def emitUe (s : State) (c : Nat) : Res Nat :=
  (s.stream.putBits s.cfg.storeCap (ueCode s.gmode c)).map fun _ => ueWritten s.gmode c

/-- `parse_ue()`, and ArgumentRange for a code number above 2^32 - 1 (R211, R215). -/
def readUe (s : State) : Res (Nat × Nat) :=
  (s.stream.parseUe s.cfg.storeCap s.gmode).bind fun cr st =>
    if 2 ^ 32 - 1 < cr.1 then .raise .argumentRange else .ok cr st

/-- `parse_ue()`, the se mapping, and ArgumentRange for a value outside the signed 32-bit domain (R213). -/
def readSe (s : State) : Res (Int × Nat) :=
  (s.stream.parseUe s.cfg.storeCap s.gmode).bind fun cr st =>
    let v := codeToSe cr.1
    if v < -2 ^ 31 ∨ 2 ^ 31 - 1 < v then .raise .argumentRange else .ok (v, cr.2) st

/-- The read of a te code with a maximum of at most 1: one bit b, the value 1 - b (R208, R215). -/
def readTeBit (s : State) : Res (Nat × Nat) :=
  (s.stream.getBit s.cfg.storeCap).map fun b => (1 - b.toNat, 1)

/-- WRUE (R210). -/
def execWrue (s : State) : Host.Outcome State Fault Refusal :=
  s.finish false (emitUe s (low32 s.arg0)) fun r => State.setRes1 (BitVec.ofNat 64 r)

/-- RDUE (R211). -/
def execRdue (peek : Bool) (s : State) : Host.Outcome State Fault Refusal :=
  s.finish peek (readUe s) fun cr => State.setRes (BitVec.ofNat 64 cr.1) (BitVec.ofNat 64 cr.2)

/-- WRSE (R212). -/
def execWrse (s : State) : Host.Outcome State Fault Refusal :=
  s.finish false (emitUe s (seToCode (signed32 s.arg0))) fun r => State.setRes1 (BitVec.ofNat 64 r)

/-- RDSE (R213). -/
def execRdse (peek : Bool) (s : State) : Host.Outcome State Fault Refusal :=
  s.finish peek (readSe s) fun vr => State.setRes (BitVec.ofInt 64 vr.1) (BitVec.ofNat 64 vr.2)

/-- WRTE: the ue code if the maximum ARG1[31:0] is above 1, else one inverted bit (R208, R214). -/
def execWrte (s : State) : Host.Outcome State Fault Refusal :=
  s.finish false
    (if 1 < low32 s.arg1 then emitUe s (low32 s.arg0)
      else (s.stream.putBit s.cfg.storeCap (teBit (low32 s.arg0))).map fun _ => 1)
    fun r => State.setRes1 (BitVec.ofNat 64 r)

/-- RDTE (R208, R215). -/
def execRdte (peek : Bool) (s : State) : Host.Outcome State Fault Refusal :=
  s.finish peek (if 1 < low32 s.arg1 then readUe s else readTeBit s)
    fun cr => State.setRes (BitVec.ofNat 64 cr.1) (BitVec.ofNat 64 cr.2)

end Sys2Proof.Machine
end

