-- ==== Sys2Proof/Machine/PackedInt.lean ====
section
/-! DEFINITION. The packed-integer commands (spec/41_packed_int.md R170 to R176). -/

namespace Sys2Proof.Machine

/-- PWR: the pattern of ARG0, bit 0 first (R170). -/
def execPwr (t : Width) (sg sg2 : Sign) (s : State) : Host.Outcome State Fault Refusal :=
  s.finish false (s.stream.putBits s.cfg.storeCap (fieldBits (fmt t sg sg2 s.arg0) (widthBits t))) noResult

/-- PRD: the value in RES0, the pattern in RES1 (R171). -/
def execPrd (t : Width) (sg : Sign) (peek : Bool) (s : State) : Host.Outcome State Fault Refusal :=
  s.finish peek (s.stream.getBits s.cfg.storeCap (widthBits t)) fun bits =>
    State.setRes (packOut t sg (wordOfBits bits)) (wordOfBits bits)

/-- PFMT: the value in RES0, the pattern in RES1 (R172). -/
def execPfmt (t : Width) (sg sg2 : Sign) (s : State) : Host.Outcome State Fault Refusal :=
  s.finish false (.ok (fmt t sg sg2 s.arg0) s.stream) fun p => State.setRes (packOut t sg p) p

/-- PVAL (R173). -/
def execPval (t : Width) (sg : Sign) (s : State) : Host.Outcome State Fault Refusal :=
  s.finish false (.ok (packOut t sg s.arg0) s.stream) State.setRes0

/-- PBIT: bit ARG1 of the pattern, which does not depend on S (R175). -/
def execPbit (t : Width) (_ : Sign) (s : State) : Host.Outcome State Fault Refusal :=
  s.finish false
    (if widthBits t ≤ s.arg1.toNat then .raise .argumentRange
      else .ok ((s.arg0 &&& packMask t).getLsbD s.arg1.toNat) s.stream)
    fun b => State.setRes0 ((BitVec.ofBool b).setWidth 64)

/-- PBYTES: the pattern's bytes in RES0, their number in RES1 (R174). The decoder gives the widths 24 and 48 only; for
any other width R174 names IllegalCommand, and so does this meaning (log entry 12). -/
def execPbytes (t : Width) (_ : Sign) (s : State) : Host.Outcome State Fault Refusal :=
  s.finish false
    (if t.byteAddressable then .ok (s.arg0 &&& packMask t) s.stream else .raise .illegalCommand)
    fun p => State.setRes p (BitVec.ofNat 64 (widthBits t / 8))

/-- PEQ: pattern A in ARG0 with the sign S, pattern B in ARG1 with the sign S2 (R176). -/
def execPeq (t : Width) (sa sb : Sign) (s : State) : Host.Outcome State Fault Refusal :=
  s.finish false (.ok (packEq t sa s.arg0 sb s.arg1) s.stream) fun b => State.setRes0 ((BitVec.ofBool b).setWidth 64)

end Sys2Proof.Machine
end

