-- ==== Sys2Proof/Machine/Dispatch.lean ====
section
/-! DEFINITION. One arm per command (spec/30_encoding.md R85). -/

namespace Sys2Proof.Machine

def exec (i : Instr) (s : State) : Host.Outcome State Fault Refusal :=
  match i with
  | .wrbit => Sys2Proof.Machine.execWrbit s
  | .wrbits n => Sys2Proof.Machine.execWrbits n s
  | .rdbit p => Sys2Proof.Machine.execRdbit p s
  | .rdbits n p => Sys2Proof.Machine.execRdbits n p s
  | .wrbytes n => Sys2Proof.Machine.execWrbytes n s
  | .rdbytes n p => Sys2Proof.Machine.execRdbytes n p s
  | .align => Sys2Proof.Machine.execAlign s
  | .setpos => Sys2Proof.Machine.execSetpos s
  | .skipbits => Sys2Proof.Machine.execSkipbits s
  | .skipbytes => Sys2Proof.Machine.execSkipbytes s
  | .release => Sys2Proof.Machine.execRelease s
  | .pwr t sg sg2 => Sys2Proof.Machine.execPwr t sg sg2 s
  | .prd t sg p => Sys2Proof.Machine.execPrd t sg p s
  | .pfmt t sg sg2 => Sys2Proof.Machine.execPfmt t sg sg2 s
  | .pval t sg => Sys2Proof.Machine.execPval t sg s
  | .pbit t sg => Sys2Proof.Machine.execPbit t sg s
  | .pbytes t sg => Sys2Proof.Machine.execPbytes t sg s
  | .peq t sa sb => Sys2Proof.Machine.execPeq t sa sb s
  | .wrue => Sys2Proof.Machine.execWrue s
  | .rdue p => Sys2Proof.Machine.execRdue p s
  | .wrse => Sys2Proof.Machine.execWrse s
  | .rdse p => Sys2Proof.Machine.execRdse p s
  | .wrte => Sys2Proof.Machine.execWrte s
  | .rdte p => Sys2Proof.Machine.execRdte p s

end Sys2Proof.Machine
end

