-- ==== Sys2Proof/Machine/Flags.lean ====
section
/-! DEFINITION. The status and control registers as the host reads and writes them, and the flags in them
(spec/10_state.md R23 to R27, R36, R37). -/

namespace Sys2Proof.Machine

/-- The code of STATUS.ERR (R25). -/
def ErrCode.code : ErrCode → BitVec 4
  | .ok => 0
  | .streamUnaligned => 1
  | .endOfStream => 2
  | .argumentRange => 3
  | .illegalCommand => 4

/-- The value of CTRL.GMODE (R24). -/
def GolombStyle.bit : GolombStyle → BitVec 1
  | .standard => 0
  | .compat => 1

def GolombStyle.ofBit (b : Bool) : GolombStyle := if b then .compat else .standard

/-- CURSOR.UNALIGNED: 1 if BIT_OFF != 0 else 0 (R26). -/
def Stream.unaligned (st : Stream) : Bool := decide (st.bitOff ≠ 0#3)

/-- CTRL as a word: AU in bit 0, GMODE in bit 1, bits 63:2 read 0 (R24). -/
def State.ctrlWord (s : State) : Word := 0#62 ++ s.gmode.bit ++ BitVec.ofBool s.au

/-- STATUS as a word: ERR in 3:0, BITS_LEFT in 7:4, the rest 0 (R25). -/
def State.statusWord (s : State) : Word := 0#56 ++ s.bitsLeft ++ s.err.code

/-- CURSOR as a word (R26). -/
def State.cursorWord (s : State) : Word :=
  0#48 ++ s.stream.pend ++ 0#3 ++ BitVec.ofBool s.stream.unaligned ++ BitVec.ofBool s.stream.hpw ++ s.stream.bitOff

/-- POS: BYTE_POS * 8 + BIT_OFF (R27). -/
def State.posWord (s : State) : Word := s.stream.bytePos ++ s.stream.bitOff

/-- A host read of the register space (R23, R36): CMD and an offset that holds no register read 0. -/
def State.readReg (s : State) (offset : Nat) : Word :=
  match offset with
  | 0x00 => s.ctrlWord
  | 0x08 => s.statusWord
  | 0x10 => s.cursorWord
  | 0x18 => s.posWord
  | 0x20 => s.arg0
  | 0x28 => s.arg1
  | 0x30 => s.res0
  | 0x38 => s.res1
  | _ => 0

/-- A host write of CTRL stores bits 1:0 and ignores the rest (R24, R36). -/
def State.writeCtrl (s : State) (v : Word) : State :=
  { s with au := v.getLsbD 0, gmode := GolombStyle.ofBit (v.getLsbD 1) }

/-- A host write of the register space other than CMD: read-only registers and offsets that hold no register ignore
it (R36). -/
def State.writeReg (s : State) (offset : Nat) (v : Word) : State :=
  match offset with
  | 0x00 => s.writeCtrl v
  | 0x20 => { s with arg0 := v }
  | 0x28 => { s with arg1 := v }
  | _ => s

end Sys2Proof.Machine
end

