-- ==== Sys2Proof/Machine/HostPort.lean ====
section
/-! DEFINITION. What one access of the host does: the register space (spec/10_state.md R23, R34, R36), a command
(spec/70_reset_and_hazards.md R280), the byte store between commands (spec/20_memory.md R69, R70) and the reset input
(spec/70_reset_and_hazards.md R270 to R272). -/

namespace Sys2Proof.Machine

/-- The offset of CMD (10_state.md R23). -/
def cmdOffset : Nat := 0x40

/-- The command word of a CMD write: bits 31:0, the rest ignored (10_state.md R34). -/
def cmdWordOf (v : Word) : CmdWord := v.setWidth 32

/-- One command step: decode, and refuse an illegal word before any operand is read (60_exceptions.md R240), or run it. -/
def runCommand (w : CmdWord) (s : State) : Host.Outcome State Fault Refusal :=
  match decode w with
  | .ok i => exec i s
  | .error _ => .next (s.takeError .illegalCommand)

/-- The reset input (70_reset_and_hazards.md R270, R271): every engine register and STORE_POS; the store's bytes and
length stay (R272), and so do the host's own list and read data (log entry 14). -/
def State.resetEngine (s : State) : State :=
  { State.resetWith s.cfg with
    stream := Stream.resetOver s.stream.mem s.stream.len, host := s.host, hostData := s.hostData }

/-- The host receives read data (log entry 2). -/
def State.answerHost (s : State) (v : Word) : State := { s with hostData := v }

/-- The host writes an existing byte (20_memory.md R70); no cursor register changes, and STORE_POS stays (log entry 8). -/
def Stream.hostWrite (st : Stream) (a : Nat) (b : Byte) : Stream := { st with mem := st.mem.write a b }

/-- The host appends a byte (20_memory.md R70). -/
def Stream.hostAppend (st : Stream) (b : Byte) : Stream :=
  { st with mem := st.mem.write st.len b, len := st.len + 1 }

/-- The host truncates the store to at most `len` bytes (20_memory.md R70; 70_reset_and_hazards.md R286). -/
def Stream.hostTruncate (st : Stream) (len : Nat) : Stream :=
  { st with mem := st.mem.truncate len, len := min st.len len }

/-- What one access of the host does. -/
def hostAccess (a : HostAccess) (s : State) : Host.Outcome State Fault Refusal :=
  match a with
  | .regWrite offset v =>
    if offset = cmdOffset then runCommand (cmdWordOf v) s else .next (s.writeReg offset v)
  | .regRead offset => .next (s.answerHost (s.readReg offset))
  | .storeRead addr =>
    if addr < s.stream.len then .next (s.answerHost ((s.stream.mem.read addr).setWidth 64)) else .fault .hostStoreAddress
  | .storeWrite addr v =>
    if addr < s.stream.len then .next { s with stream := s.stream.hostWrite addr v } else .fault .hostStoreAddress
  | .storeAppend v =>
    if s.stream.len < s.cfg.storeCap then .next { s with stream := s.stream.hostAppend v } else .fault .hostStoreFull
  | .storeTruncate len => .next { s with stream := s.stream.hostTruncate len }
  | .storeReadLen => .next (s.answerHost (BitVec.ofNat 64 s.stream.len))
  | .storeSeek pos => .next { s with stream := { s.stream with storePos := pos } }
  | .storeTell => .next (s.answerHost (s.stream.storePos.setWidth 64))
  | .reset => .next s.resetEngine

/-- The host's write of a command word to CMD. -/
def cmdWrite (w : Nat) : HostAccess := .regWrite cmdOffset (BitVec.ofNat 64 w)

end Sys2Proof.Machine
end

