-- ==== Sys2Proof/Machine/Step.lean ====
section
/-! DEFINITION. One step of the machine (spec/10_state.md R20; spec/70_reset_and_hazards.md R273, R280). -/

namespace Sys2Proof.Machine

/-- The host's next access, or nothing at all while none is to come: between commands the engine is idle and keeps all
its state (60_exceptions.md R260; 70_reset_and_hazards.md R273). -/
def step (s : State) : Host.Outcome State Fault Refusal :=
  match s.host with
  | [] => .next s
  | a :: rest => hostAccess a { s with host := rest }

/-- The state whose next step runs the command word `w`: commands come only from host writes of CMD (20_memory.md R68),
so the host's next access is that write. Bits of `w` at and above `nbits` are 0. -/
def State.withFetchWord (s : State) (nbits w : Nat) : State :=
  { s with host := cmdWrite (w % 2 ^ nbits) :: s.host }

end Sys2Proof.Machine
end

