-- ==== Sys2Proof/Safety.lean ====
section
/-! DEFINITION. The terms the claims are stated in: the stream of bits the cursor sees, the machine's invariants
(spec/10_state.md R35; spec/20_memory.md R50; spec/00_scope.md R8), when a read finds its bits and a write its room
(spec/40_cursor.md R129; spec/20_memory.md R56), and what a run of bits written or read leaves. None of them mentions the
loops of the micro-operations. -/

namespace Sys2Proof.Machine

/-! ### The stream of bits -/

/-- The byte of the store at an address; none at and above LEN (20_memory.md R50). -/
def Stream.byte? (st : Stream) (a : Nat) : Option Byte := if a < st.len then some (st.mem.read a) else none

/-- POS = BYTE_POS * 8 + BIT_OFF (10_state.md R27). -/
def Stream.pos (st : Stream) : Nat := st.bytePos.toNat * 8 + st.bitOff.toNat

/-- Stream bit `k`: bit `k mod 8` of byte `k div 8` (00_scope.md R11), taken from PEND for the byte the cursor is inside
(10_state.md R38, R39), and 0 where there is no byte. -/
def Stream.bitAt (st : Stream) (k : Nat) : Bool :=
  if st.bitOff ≠ 0#3 ∧ k / 8 = st.bytePos.toNat then st.pend.getLsbD (k % 8)
  else ((st.byte? (k / 8)).getD 0#8).getLsbD (k % 8)

/-! ### Invariants -/

/-- The invariants of the cursor and the store, under a capacity `cap`. INV3, BYTE_POS <= 2^61 - 1, is in the type. -/
structure Stream.Inv (cap : Nat) (st : Stream) : Prop where
  /-- INV1 and INV2 (10_state.md R35): BIT_OFF = 0 implies PEND = 0 and HPW = 0 -/
  aligned : st.bitOff = 0#3 → st.pend = 0#8 ∧ st.hpw = false
  /-- the memory is in its canonical form -/
  memWf : st.mem.wf
  /-- every listed byte is a byte of the store (20_memory.md R50) -/
  inStore : ∀ c ∈ st.mem, c.1 < st.len
  /-- the store admits no more than STORE_CAP bytes (00_scope.md R8) -/
  lenLe : st.len ≤ cap

/-- STATUS as 10_state.md R25 lets it read: BITS_LEFT is in 1..7 when ERR is StreamUnaligned, and 0 otherwise. -/
abbrev State.statusWf (s : State) : Prop :=
  if s.err = .streamUnaligned then 1 ≤ s.bitsLeft.toNat ∧ s.bitsLeft.toNat ≤ 7 else s.bitsLeft = 0#4

/-- The machine's invariant. -/
structure State.Inv (s : State) : Prop where
  /-- the parameters lie in their range (00_scope.md R8) -/
  cfgWf : s.cfg.wf
  stream : s.stream.Inv s.cfg.storeCap
  status : s.statusWf

/-! ### Bits to read, room to write -/

/-- The availability condition: `n` bits can be read from the cursor on (40_cursor.md R129). -/
abbrev Stream.avail (st : Stream) (n : Nat) : Prop :=
  n = 0 ∨ (st.hpw = true ∧ n ≤ 8 - st.bitOff.toNat) ∨ (st.pos + n - 1) / 8 < st.len

/-- No commit of `n` bits read is stuck: the only one a read makes is that of the pending byte it leaves (R111, R129;
20_memory.md R56). -/
abbrev Stream.readRoom (cap : Nat) (st : Stream) (n : Nat) : Prop :=
  st.hpw = true → 8 ≤ st.bitOff.toNat + n → st.bytePos.toNat < cap

/-- No commit of `n` bits written is stuck: they commit the (BIT_OFF + n) div 8 bytes from BYTE_POS on (R111, R118;
20_memory.md R56). -/
abbrev Stream.room (cap : Nat) (st : Stream) (n : Nat) : Prop :=
  (st.bitOff.toNat + n) / 8 = 0 ∨ st.bytePos.toNat + (st.bitOff.toNat + n) / 8 ≤ cap

/-! ### What writing and reading leave -/

/-- `st'` is `st` after writing `bits` from the cursor on. The bytes committed are those from BYTE_POS up to the new
BYTE_POS, exclusive. -/
structure Stream.Wrote (st : Stream) (bits : List Bool) (st' : Stream) : Prop where
  /-- the cursor has passed every bit -/
  pos : st'.pos = st.pos + bits.length
  /-- stream bit POS + i is bit i of the field (20_memory.md R58) -/
  written : ∀ i, i < bits.length → st'.bitAt (st.pos + i) = bits.getD i false
  /-- no bit before the cursor changes -/
  before : ∀ k, k < st.pos → st'.bitAt k = st.bitAt k
  /-- PEND above the written bits keeps what it held in the first byte, and is 0 in a byte entered since (R111, R114) -/
  rest : ∀ i, st'.bitOff.toNat ≤ i → i < 8 →
    st'.pend.getLsbD i = (decide (st'.bytePos = st.bytePos) && st.pend.getLsbD i)
  /-- bits are pending exactly inside a byte that holds written ones (10_state.md R31) -/
  hpw : st'.hpw = (decide (st'.bitOff ≠ 0#3) && (st.hpw || decide (bits ≠ [])))
  /-- LEN grows to the end of the last committed byte (20_memory.md R56) -/
  len : st'.len = if st'.bytePos = st.bytePos then st.len else max st.len st'.bytePos.toNat
  /-- every byte outside the committed ones is as before, and a gap below them is filled with 0 (R56) -/
  frame : ∀ a, ¬ (st.bytePos.toNat ≤ a ∧ a < st'.bytePos.toNat) →
    st'.byte? a = if a < st.len then st.byte? a else if a < st'.len then some 0#8 else none
  /-- STORE_POS is past the last committed byte (40_cursor.md R112) -/
  storePos : st'.storePos = if st'.bytePos = st.bytePos then st.storePos else st'.bytePos

/-- The store of `st` after its pending byte has been committed as the byte `b` (40_cursor.md R112; 20_memory.md R56). -/
def Stream.committedByte (st : Stream) (b : Byte) (a : Nat) : Option Byte :=
  if a = st.bytePos.toNat then some b
  else if a < st.len then st.byte? a
  else if a < st.bytePos.toNat then some 0#8 else none

/-- `st'` is `st` after reading `n` bits from the cursor on. -/
structure Stream.Consumed (st : Stream) (n : Nat) (st' : Stream) : Prop where
  /-- the cursor has passed every bit -/
  pos : st'.pos = st.pos + n
  /-- PEND holds the byte the cursor is inside: the one it held, or the byte fetched since (R111, R113) -/
  pend : st'.pend =
    if st'.bitOff = 0#3 then 0#8
    else if st'.bytePos = st.bytePos ∧ st.bitOff ≠ 0#3 then st.pend
    else (st.byte? st'.bytePos.toNat).getD 0#8
  /-- pending bits stay pending until the cursor leaves their byte (R111, R132) -/
  hpw : st'.hpw = (st.hpw && decide (st'.bytePos = st.bytePos))
  /-- the store changes only by the commit of a pending byte the cursor leaves (R111, R129) -/
  bytes : ∀ a, st'.byte? a =
    if st.hpw = true ∧ st'.bytePos ≠ st.bytePos then st.committedByte st.pend a else st.byte? a
  /-- LEN grows only with that commit (20_memory.md R56) -/
  len : st'.len = if st.hpw = true ∧ st'.bytePos ≠ st.bytePos then max st.len (st.bytePos.toNat + 1) else st.len
  /-- STORE_POS is past the byte fetched last, or past the byte committed if none was fetched (20_memory.md R54, R56) -/
  storePos : st'.storePos.toNat =
    if n = 0 then st.storePos.toNat
    else if (st.pos + n - 1) / 8 = st.bytePos.toNat ∧ st.bitOff ≠ 0#3 then
      (if st.hpw = true ∧ st'.bytePos ≠ st.bytePos then st.bytePos.toNat + 1 else st.storePos.toNat)
    else (st.pos + n - 1) / 8 + 1

/-! ### How a command ends -/

/-- `s` after a command that succeeded with the stream `st` and the results `r0` and `r1` (60_exceptions.md R242;
10_state.md R33): nothing else changes. -/
def State.done (s : State) (st : Stream) (r0 r1 : Word) : State :=
  { s with stream := st, res0 := r0, res1 := r1, err := .ok, bitsLeft := 0#4 }

/-- `s` after a command that failed with the error code `e` (60_exceptions.md R243): nothing but STATUS changes. -/
def State.failed (s : State) (e : ErrCode) (bitsLeft : BitVec 4) : State := { s with err := e, bitsLeft := bitsLeft }

/-- The number the `n` stream bits from the cursor on stand for, the first least significant (20_memory.md R58). -/
def Stream.fieldNat (st : Stream) (n : Nat) : Nat :=
  ((List.range n).map fun i => if st.bitAt (st.pos + i) then 2 ^ i else 0).sum

/-- That number as a register holds it. -/
def Stream.field (st : Stream) (n : Nat) : Word := BitVec.ofNat 64 (st.fieldNat n)

/-! ### The outcomes a writing and a reading command can have -/

/-- The outcome `out` of a command that writes `bits` at the cursor: it ends as `ok` says of the stream it leaves where
there is room, and is stuck where there is none (20_memory.md R56). -/
def State.Writes (s : State) (bits : List Bool) (out : Host.Outcome State Fault Refusal) (ok : Stream → State) : Prop :=
  (s.stream.room s.cfg.storeCap bits.length → ∃ st, s.stream.Wrote bits st ∧ out = .next (ok st)) ∧
  (¬ s.stream.room s.cfg.storeCap bits.length → out = .fault .storeFull)

/-- The outcome `out` of a command that reads `n` bits from the cursor on: it ends as `ok` says of the stream it leaves
where the bits are there, fails with EndOfStream where they are not (40_cursor.md R129), and is stuck where it would
commit a pending byte past the capacity (log entry 11). -/
def State.Reads (s : State) (n : Nat) (out : Host.Outcome State Fault Refusal) (ok : Stream → State) : Prop :=
  (s.stream.avail n → s.stream.readRoom s.cfg.storeCap n → ∃ st, s.stream.Consumed n st ∧ out = .next (ok st)) ∧
  (¬ s.stream.avail n → s.stream.readRoom s.cfg.storeCap n → out = .next (s.failed .endOfStream 0#4)) ∧
  (¬ s.stream.readRoom s.cfg.storeCap n → out = .fault .storeFull)

/-- StreamUnaligned with BITS_LEFT = 8 - BIT_OFF (40_cursor.md R116; 60_exceptions.md R241). -/
def State.unalignedFailure (s : State) : State :=
  s.failed .streamUnaligned (BitVec.ofNat 4 (8 - s.stream.bitOff.toNat))

/-- The condition of that failure (40_cursor.md R116). -/
abbrev State.unalignedRefused (s : State) : Prop := s.stream.bitOff ≠ 0#3 ∧ s.au = false

/-- The store of `st'` is that of `st` after the byte `b` has been committed at BYTE_POS (40_cursor.md R112). -/
structure Stream.Committed (st : Stream) (b : Byte) (st' : Stream) : Prop where
  bytes : ∀ a, st'.byte? a = st.committedByte b a
  len : st'.len = max st.len (st.bytePos.toNat + 1)

/-- PEND with bits BIT_OFF..7 zeroed (40_cursor.md R115). -/
def Stream.paddedPend (st : Stream) : Byte := BitVec.ofNat 8 (st.pend.toNat % 2 ^ st.bitOff.toNat)

/-- The cursor at a byte boundary with nothing pending. -/
def Stream.alignedAt (st : Stream) (a : Nat) : Prop :=
  st.bytePos.toNat = a ∧ st.bitOff = 0#3 ∧ st.pend = 0#8 ∧ st.hpw = false

/-! ### Packed integers as integers (41_packed_int.md R161, R163) -/

/-- The source integer of a construction: signed if S2 = 1, unsigned if S2 = 0 (30_encoding.md R84). -/
def rawInt (s2 : Sign) (a : Word) : Int :=
  match s2 with
  | .signed => a.toInt
  | .unsigned => a.toNat

/-- The pattern of a raw integer: reduced modulo 2^N if unsigned, sign and magnitude modulo 2^(N-1) if signed (R161). -/
def patternNat (n : Nat) (sg : Sign) (raw : Int) : Nat :=
  match sg with
  | .unsigned => (raw % 2 ^ n).toNat
  | .signed => (if raw < 0 then 2 ^ (n - 1) else 0) + raw.natAbs % 2 ^ (n - 1)

/-- The logical value of a pattern, bits at and above N ignored (R163). -/
def logicalInt (n : Nat) (sg : Sign) (p : Nat) : Int :=
  match sg with
  | .unsigned => (p % 2 ^ n : Nat)
  | .signed => if p.testBit (n - 1) then -((p % 2 ^ (n - 1) : Nat) : Int) else (p % 2 ^ (n - 1) : Nat)

/-- The equality of two packed integers of one width (R167). -/
abbrev packedEqual (n : Nat) (sa : Sign) (a : Nat) (sb : Sign) (b : Nat) : Prop :=
  match sa, sb with
  | .unsigned, .unsigned => a % 2 ^ n = b % 2 ^ n
  | .signed, .signed => a % 2 ^ n = b % 2 ^ n
  | .signed, .unsigned => a.testBit (n - 1) = false ∧ a % 2 ^ (n - 1) = b % 2 ^ n
  | .unsigned, .signed => b.testBit (n - 1) = false ∧ b % 2 ^ (n - 1) = a % 2 ^ n

/-- The range of the type of width N and sign `sg` (R160). -/
abbrev inRange (n : Nat) (sg : Sign) (v : Int) : Prop :=
  match sg with
  | .unsigned => 0 ≤ v ∧ v ≤ 2 ^ n - 1
  | .signed => -(2 ^ (n - 1) - 1) ≤ v ∧ v ≤ 2 ^ (n - 1) - 1

/-! ### Exp-Golomb codes as bits (42_exp_golomb.md R202 to R206) -/

/-- The length of the code of `c`: 2m + 1 in STANDARD, 2m in COMPAT, m = floor(log2 (c + 1)) (R202, R206). -/
def codeLength (style : GolombStyle) (c : Nat) : Nat :=
  match style with
  | .standard => 2 * (c + 1).log2 + 1
  | .compat => 2 * (c + 1).log2

/-- The code of `c` in stream order: the bits of c + 1 from the code's length - 1 down to 0 (R202, R203, R206). -/
def codeBits (style : GolombStyle) (c : Nat) : List Bool :=
  (List.range (codeLength style c)).map fun j => (c + 1).testBit (codeLength style c - 1 - j)

/-- The code number of a signed value (R207). -/
def codeOfSigned (v : Int) : Nat := (if 0 < v then 2 * v - 1 else -2 * v).toNat

/-- The signed value of a code number (R207). -/
def signedOfCode (c : Nat) : Int := if c % 2 = 1 then ((c : Int) + 1) / 2 else -((c : Int) / 2)

/-- The longest run of zeros a read admits: 32 in STANDARD, 31 in COMPAT (R205). -/
def zeroLimit : GolombStyle → Nat
  | .standard => 32
  | .compat => 31

/-- The suffix bits after `z` zeros and the 1: z in STANDARD, z + 1 in COMPAT (R205). -/
def suffixBits (style : GolombStyle) (z : Nat) : Nat :=
  match style with
  | .standard => z
  | .compat => z + 1

/-- `z` zeros and then a 1 stand at the cursor. -/
abbrev Stream.zerosThenOne (st : Stream) (z : Nat) : Prop :=
  (∀ j, j < z → st.bitAt (st.pos + j) = false) ∧ st.bitAt (st.pos + z) = true

/-- The number the `k` stream bits from position `q` on stand for, the first most significant (R203, R205). -/
def Stream.msbNat (st : Stream) (q k : Nat) : Nat :=
  ((List.range k).map fun j => if st.bitAt (q + j) then 2 ^ (k - 1 - j) else 0).sum

/-- The bits a code with `z` leading zeros takes from the stream (R205). -/
def codeSpan (style : GolombStyle) (z : Nat) : Nat := z + 1 + suffixBits style z

/-- The code number of the code with `z` leading zeros that stands at the cursor (R205). -/
def Stream.codeAt (st : Stream) (style : GolombStyle) (z : Nat) : Nat :=
  2 ^ suffixBits style z + st.msbNat (st.pos + z + 1) (suffixBits style z) - 1

/-- The outcome `out` of a ue-like read (R205, R211, R213, R215): `ok` gives the state it ends in from the code number, the
reported count and the stream it leaves, or none where the decoded value lies outside its domain. -/
def State.ReadsCode (s : State) (out : Host.Outcome State Fault Refusal) (ok : Nat → Nat → Option (Stream → State)) :
    Prop :=
  (∀ z, z ≤ zeroLimit s.gmode → s.stream.zerosThenOne z →
    s.Reads (codeSpan s.gmode z) out fun st =>
      match ok (s.stream.codeAt s.gmode z) (2 * z + 1) with
      | some f => f st
      | none => s.failed .argumentRange 0#4) ∧
  ((∀ j, j ≤ zeroLimit s.gmode → s.stream.bitAt (s.stream.pos + j) = false) →
    s.Reads (zeroLimit s.gmode + 1) out fun _ => s.failed .argumentRange 0#4)

/-! ### Which commands do what (10_state.md R33; 60_exceptions.md R241) -/

/-- The command names RES0 (10_state.md R33, by the rule of each command). -/
def namesRes0 : Instr → Bool
  | .rdbit _ | .rdbits _ _ | .rdbytes _ _ | .prd _ _ _ | .pfmt _ _ _ | .pval _ _ | .pbit _ _ | .pbytes _ _ | .peq _ _ _
  | .rdue _ | .rdse _ | .rdte _ => true
  | .wrbit | .wrbits _ | .wrbytes _ | .align | .setpos | .skipbits | .skipbytes | .release | .pwr _ _ _ | .wrue | .wrse
  | .wrte => false

/-- The command names RES1 (R33, by the rule of each command; 42_exp_golomb.md R209). -/
def namesRes1 : Instr → Bool
  | .prd _ _ _ | .pfmt _ _ _ | .pbytes _ _ | .wrue | .rdue _ | .wrse | .rdse _ | .wrte | .rdte _ => true
  | .wrbit | .wrbits _ | .rdbit _ | .rdbits _ _ | .wrbytes _ | .rdbytes _ _ | .align | .setpos | .skipbits | .skipbytes
  | .release | .pwr _ _ _ | .pval _ _ | .pbit _ _ | .peq _ _ _ => false

/-- The command may leave another cursor or another store: neither a peek (40_cursor.md R131) nor a packed-integer command
that does not touch the stream (41_packed_int.md R178) does. -/
def movesStream : Instr → Bool
  | .rdbit p | .rdbits _ p | .rdbytes _ p | .prd _ _ p | .rdue p | .rdse p | .rdte p => !p
  | .pfmt _ _ _ | .pval _ _ | .pbit _ _ | .pbytes _ _ | .peq _ _ _ => false
  | .wrbit | .wrbits _ | .wrbytes _ | .align | .setpos | .skipbits | .skipbytes | .release | .pwr _ _ _ | .wrue | .wrse
  | .wrte => true

/-- The byte-oriented commands: those that raise StreamUnaligned (R241). -/
def raisesUnaligned : Instr → Bool
  | .wrbytes _ | .rdbytes _ _ | .skipbytes => true
  | .wrbit | .wrbits _ | .rdbit _ | .rdbits _ _ | .align | .setpos | .skipbits | .release | .pwr _ _ _ | .prd _ _ _
  | .pfmt _ _ _ | .pval _ _ | .pbit _ _ | .pbytes _ _ | .peq _ _ _ | .wrue | .rdue _ | .wrse | .rdse _ | .wrte
  | .rdte _ => false

/-- The commands that raise EndOfStream (R241). -/
def raisesEnd : Instr → Bool
  | .rdbit _ | .rdbits _ _ | .rdbytes _ _ | .skipbits | .skipbytes | .prd _ _ _ | .rdue _ | .rdse _ | .rdte _ => true
  | .wrbit | .wrbits _ | .wrbytes _ | .align | .setpos | .release | .pwr _ _ _ | .pfmt _ _ _ | .pval _ _ | .pbit _ _
  | .pbytes _ _ | .peq _ _ _ | .wrue | .wrse | .wrte => false

/-- The commands that raise ArgumentRange (R241). -/
def raisesRange : Instr → Bool
  | .wrbits _ | .rdbits _ _ | .wrbytes _ | .rdbytes _ _ | .pbit _ _ | .rdue _ | .rdse _ | .rdte _ => true
  | .wrbit | .rdbit _ | .align | .setpos | .skipbits | .skipbytes | .release | .pwr _ _ _ | .prd _ _ _ | .pfmt _ _ _
  | .pval _ _ | .pbytes _ _ | .peq _ _ _ | .wrue | .wrse | .wrte => false

/-- The commands that write the stream (40_cursor.md R117, R118, R121; 41_packed_int.md R170; 42_exp_golomb.md R210, R212,
R214). -/
def writesStream : Instr → Bool
  | .wrbit | .wrbits _ | .wrbytes _ | .pwr _ _ _ | .wrue | .wrse | .wrte => true
  | .rdbit _ | .rdbits _ _ | .rdbytes _ _ | .align | .setpos | .skipbits | .skipbytes | .release | .prd _ _ _
  | .pfmt _ _ _ | .pval _ _ | .pbit _ _ | .pbytes _ _ | .peq _ _ _ | .rdue _ | .rdse _ | .rdte _ => false

/-- The outcome of the P = 1 form of a command, from that of its P = 0 form: the cursor and the store are put back as they
were in `s` (40_cursor.md R131). -/
def restoring (s : State) (out : Host.Outcome State Fault Refusal) : Host.Outcome State Fault Refusal :=
  match out with
  | .next t => .next { t with stream := s.stream }
  | .fault f => .fault f
  | .refused r => .refused r

/-- The state with STORE_POS put to 0: all the engine may depend on (20_memory.md R69). -/
def withoutStorePos (s : State) : State := { s with stream := { s.stream with storePos := 0#61 } }

/-- An outcome with the next state changed by a function. -/
def mapNext (f : State → State) (out : Host.Outcome State Fault Refusal) : Host.Outcome State Fault Refusal :=
  match out with
  | .next t => .next (f t)
  | .fault e => .fault e
  | .refused r => .refused r

/-- Room for `n` bits and for the last, partial byte of them, which a later SETPOS commits (40_cursor.md R126). -/
abbrev Stream.roomToFlush (cap : Nat) (st : Stream) (n : Nat) : Prop :=
  st.bytePos.toNat + (st.bitOff.toNat + n + 7) / 8 ≤ cap

/-! ### The opcode table (30_encoding.md R85, R86) -/

/-- A row of spec/opcode_table.json: its match, its mask, and whether it leaves all of WIDX free. -/
structure OpcodeRow where
  pattern : CmdWord
  mask : CmdWord
  widxFree : Bool
deriving DecidableEq, Repr

/-- The rows of the cursor commands. -/
def cursorRows : List OpcodeRow :=
  [⟨0x00000001#32, 0xFFFFFFFF#32, false⟩, ⟨0x00000002#32, 0xFFFF80FF#32, false⟩, ⟨0x00000003#32, 0xFFFF7FFF#32, false⟩,
    ⟨0x00000004#32, 0xFFFF00FF#32, false⟩, ⟨0x00000005#32, 0xFFFF80FF#32, false⟩, ⟨0x00000006#32, 0xFFFF00FF#32, false⟩,
    ⟨0x00000007#32, 0xFFFFFFFF#32, false⟩, ⟨0x00000008#32, 0xFFFFFFFF#32, false⟩, ⟨0x00000009#32, 0xFFFFFFFF#32, false⟩,
    ⟨0x0000000A#32, 0xFFFFFFFF#32, false⟩, ⟨0x0000000B#32, 0xFFFFFFFF#32, false⟩]

/-- The rows of the packed-integer commands. -/
def packedRows : List OpcodeRow :=
  [⟨0x00000010#32, 0xFFC0FFFF#32, true⟩, ⟨0x00000011#32, 0xFFE07FFF#32, true⟩, ⟨0x00000012#32, 0xFFC0FFFF#32, true⟩,
    ⟨0x00000013#32, 0xFFE0FFFF#32, true⟩, ⟨0x00000014#32, 0xFFE0FFFF#32, true⟩, ⟨0x00080015#32, 0xFFEEFFFF#32, false⟩,
    ⟨0x00000016#32, 0xFFC0FFFF#32, true⟩]

/-- The rows of the Exp-Golomb commands. -/
def golombRows : List OpcodeRow :=
  [⟨0x00000020#32, 0xFFFFFFFF#32, false⟩, ⟨0x00000021#32, 0xFFFF7FFF#32, false⟩, ⟨0x00000022#32, 0xFFFFFFFF#32, false⟩,
    ⟨0x00000023#32, 0xFFFF7FFF#32, false⟩, ⟨0x00000024#32, 0xFFFFFFFF#32, false⟩, ⟨0x00000025#32, 0xFFFF7FFF#32, false⟩]

/-- The 24 rows. -/
def opcodeRows : List OpcodeRow := cursorRows ++ packedRows ++ golombRows

/-- A word selects a row (R86). -/
abbrev OpcodeRow.selects (r : OpcodeRow) (w : CmdWord) : Prop := w &&& r.mask = r.pattern

/-- A legal command word: some row matches it, and WIDX is below 10 where the row leaves it free (R87). -/
def legalWord (w : CmdWord) : Prop :=
  ∃ r ∈ opcodeRows, r.selects w ∧ (r.widxFree = true → (w.extractLsb' 16 4).toNat < 10)

end Sys2Proof.Machine
end

