-- ==== Sys2Proof/Certificates/Slice0/Obligations.lean ====
section
/-! DEFINITION. The statements for the provers, in the order of the spec's files. Each docstring names the rule of spec/ it
formalises; OBLIGATIONS.json lists them. -/

open Sys2Proof Sys2Proof.Machine

/-! ### The cursor commands (spec/40_cursor.md) -/

/-- R117: WRBIT writes bit 0 of ARG0 at the cursor; nothing else changes but STATUS, which is 0. -/
def Obligations.WrbitWritesBit : Prop :=
  ∀ s : State, s.Inv → s.Writes [s.arg0.getLsbD 0] (exec .wrbit s) fun st => s.done st s.res0 s.res1

/-- R118: WRBITS writes bits 0 to N-1 of ARG0 in that order, and fails with ArgumentRange for N > 64. -/
def Obligations.WrbitsWritesField : Prop :=
  ∀ (n : BitVec 7) (s : State), s.Inv →
    (n.toNat ≤ 64 →
      s.Writes ((List.range n.toNat).map fun i => s.arg0.getLsbD i) (exec (.wrbits n) s) fun st => s.done st s.res0 s.res1) ∧
    (64 < n.toNat → exec (.wrbits n) s = .next (s.failed .argumentRange 0#4))

/-- R119: RDBIT delivers the stream bit at the cursor in RES0. That a read which would commit a pending byte at or above
STORE_CAP is stuck is log entry 11, and that its peek is stuck too is log entry 15. -/
def Obligations.RdbitReadsBit : Prop :=
  ∀ (p : Bool) (s : State), s.Inv →
    s.Reads 1 (exec (.rdbit p) s) fun st =>
      s.done (if p then s.stream else st) (if s.stream.bitAt s.stream.pos then 1#64 else 0#64) s.res1

/-- R120: RDBITS delivers the next N stream bits in RES0, the first in bit 0, and fails with ArgumentRange for N > 64.
That a read which would commit a pending byte at or above
STORE_CAP is stuck is log entry 11, and that its peek is stuck too is log entry 15. -/
def Obligations.RdbitsReadsField : Prop :=
  ∀ (n : BitVec 7) (p : Bool) (s : State), s.Inv →
    (n.toNat ≤ 64 →
      s.Reads n.toNat (exec (.rdbits n p) s) fun st =>
        s.done (if p then s.stream else st) (s.stream.field n.toNat) s.res1) ∧
    (64 < n.toNat → exec (.rdbits n p) s = .next (s.failed .argumentRange 0#4))

/-- R121: WRBYTES tests N, then the alignment, and then writes the 8N low bits of ARG0. -/
def Obligations.WrbytesWritesBytes : Prop :=
  ∀ (n : BitVec 7) (s : State), s.Inv →
    (8 < n.toNat → exec (.wrbytes n) s = .next (s.failed .argumentRange 0#4)) ∧
    (n.toNat ≤ 8 → s.unalignedRefused → exec (.wrbytes n) s = .next s.unalignedFailure) ∧
    (n.toNat ≤ 8 → ¬ s.unalignedRefused →
      s.Writes ((List.range (8 * n.toNat)).map fun i => s.arg0.getLsbD i) (exec (.wrbytes n) s) fun st =>
        s.done st s.res0 s.res1)

/-- R122: RDBYTES tests N, then the alignment, and then delivers the next 8N stream bits.
That a read which would commit a pending byte at or above
STORE_CAP is stuck is log entry 11, and that its peek is stuck too is log entry 15. -/
def Obligations.RdbytesReadsBytes : Prop :=
  ∀ (n : BitVec 7) (p : Bool) (s : State), s.Inv →
    (8 < n.toNat → exec (.rdbytes n p) s = .next (s.failed .argumentRange 0#4)) ∧
    (n.toNat ≤ 8 → s.unalignedRefused → exec (.rdbytes n p) s = .next s.unalignedFailure) ∧
    (n.toNat ≤ 8 → ¬ s.unalignedRefused →
      s.Reads (8 * n.toNat) (exec (.rdbytes n p) s) fun st =>
        s.done (if p then s.stream else st) (s.stream.field (8 * n.toNat)) s.res1)

/-- R123, the writing half: from a byte boundary WRBYTES writes byte k of ARG0 at BYTE_POS + k, and nothing else. -/
def Obligations.AlignedWrbytesStoresBytes : Prop :=
  ∀ (n : BitVec 7) (s : State), s.Inv → s.stream.bitOff = 0#3 → n.toNat ≤ 8 →
    s.stream.bytePos.toNat + n.toNat ≤ s.cfg.storeCap →
    ∃ st, exec (.wrbytes n) s = .next (s.done st s.res0 s.res1) ∧
      st.alignedAt (s.stream.bytePos.toNat + n.toNat) ∧
      (∀ k, k < n.toNat → st.byte? (s.stream.bytePos.toNat + k) = some (s.arg0.extractLsb' (8 * k) 8)) ∧
      (∀ a, ¬ (s.stream.bytePos.toNat ≤ a ∧ a < s.stream.bytePos.toNat + n.toNat) → a < s.stream.len →
        st.byte? a = s.stream.byte? a) ∧
      (∀ a, s.stream.len ≤ a → a < s.stream.bytePos.toNat → 0 < n.toNat → st.byte? a = some 0#8) ∧
      st.len = (if n = 0#7 then s.stream.len else max s.stream.len (s.stream.bytePos.toNat + n.toNat)) ∧
      st.storePos.toNat =
        (if n = 0#7 then s.stream.storePos.toNat else s.stream.bytePos.toNat + n.toNat)

/-- R123, the reading half: from a byte boundary RDBYTES delivers the store's bytes, byte k in bits 8k to 8k + 7, and
leaves the store as it is. -/
def Obligations.AlignedRdbytesLoadsBytes : Prop :=
  ∀ (n : BitVec 7) (s : State), s.Inv → s.stream.bitOff = 0#3 → n.toNat ≤ 8 →
    (0 < n.toNat → s.stream.bytePos.toNat + n.toNat ≤ s.stream.len) →
    ∃ st r, exec (.rdbytes n false) s = .next (s.done st r s.res1) ∧
      st.alignedAt (s.stream.bytePos.toNat + n.toNat) ∧
      (∀ k, k < n.toNat → s.stream.byte? (s.stream.bytePos.toNat + k) = some (r.extractLsb' (8 * k) 8)) ∧
      r.toNat < 2 ^ (8 * n.toNat) ∧
      (∀ a, st.byte? a = s.stream.byte? a) ∧ st.len = s.stream.len ∧
      st.storePos.toNat =
        (if n = 0#7 then s.stream.storePos.toNat else s.stream.bytePos.toNat + n.toNat)

/-- R124: with BIT_OFF = k and AU = 1, WRBYTES of one byte B commits the low k bits of PEND with B << k above them, and
leaves bits 8-k to 7 of B pending. -/
def Obligations.UnalignedWrbytesShifts : Prop :=
  ∀ s : State, s.Inv → s.stream.bitOff ≠ 0#3 → s.au = true → s.stream.bytePos.toNat < s.cfg.storeCap →
    ∃ st, exec (.wrbytes 1#7) s = .next (s.done st s.res0 s.res1) ∧
      st.bytePos.toNat = s.stream.bytePos.toNat + 1 ∧ st.bitOff = s.stream.bitOff ∧ st.hpw = true ∧
      st.byte? s.stream.bytePos.toNat =
        some (s.stream.paddedPend ||| (s.arg0.extractLsb' 0 8) <<< s.stream.bitOff.toNat) ∧
      st.pend = (s.arg0.extractLsb' 0 8) >>> (8 - s.stream.bitOff.toNat) ∧
      ∀ a, a ≠ s.stream.bytePos.toNat → a < s.stream.len → st.byte? a = s.stream.byte? a

/-- R125 and R115: ALIGN does nothing on a byte boundary, commits the padded pending byte inside one, and skips the rest of
a byte with nothing pending. -/
def Obligations.AlignMovesToBoundary : Prop :=
  ∀ s : State, s.Inv →
    (s.stream.bitOff = 0#3 → exec .align s = .next (s.done s.stream s.res0 s.res1)) ∧
    (s.stream.bitOff ≠ 0#3 → s.stream.hpw = true → s.stream.bytePos.toNat < s.cfg.storeCap →
      ∃ st, exec .align s = .next (s.done st s.res0 s.res1) ∧ s.stream.Committed s.stream.paddedPend st ∧
        st.alignedAt (s.stream.bytePos.toNat + 1) ∧ st.storePos.toNat = s.stream.bytePos.toNat + 1) ∧
    (s.stream.bitOff ≠ 0#3 → s.stream.hpw = false → s.stream.bytePos.toNat + 1 < 2 ^ 61 →
      exec .align s = .next (s.done
        { s.stream with bytePos := s.stream.bytePos + 1#61, bitOff := 0#3, pend := 0#8, hpw := false } s.res0 s.res1)) ∧
    (s.stream.hpw = true → s.cfg.storeCap ≤ s.stream.bytePos.toNat → exec .align s = .fault .storeFull) ∧
    (s.stream.bitOff ≠ 0#3 → s.stream.hpw = false → s.stream.bytePos.toNat + 1 = 2 ^ 61 →
      exec .align s = .fault .positionOverflow)

/-- R126: SETPOS commits the pending byte as it stands, moves the cursor to the bit position in ARG0 and latches the byte
the cursor is then inside. -/
def Obligations.SetposMovesCursor : Prop :=
  ∀ s : State, s.Inv →
    ((s.stream.hpw = true → s.stream.bytePos.toNat < s.cfg.storeCap) →
      ∃ st, exec .setpos s = .next (s.done st s.res0 s.res1) ∧ st.pos = s.arg0.toNat ∧ st.hpw = false ∧
        (∀ a, st.byte? a = if s.stream.hpw = true then s.stream.committedByte s.stream.pend a else s.stream.byte? a) ∧
        st.len = (if s.stream.hpw = true then max s.stream.len (s.stream.bytePos.toNat + 1) else s.stream.len) ∧
        st.pend = (if st.bitOff = 0#3 then 0#8 else (st.byte? st.bytePos.toNat).getD 0#8) ∧
        st.storePos.toNat =
          (if st.bitOff ≠ 0#3 ∧ st.bytePos.toNat < st.len then st.bytePos.toNat + 1 else st.bytePos.toNat)) ∧
    (s.stream.hpw = true → s.cfg.storeCap ≤ s.stream.bytePos.toNat → exec .setpos s = .fault .storeFull)

/-- R127: SKIPBITS passes over ARG0 stream bits and delivers none. That a read which would commit a pending byte at or above
STORE_CAP is stuck is log entry 11. -/
def Obligations.SkipbitsPassesBits : Prop :=
  ∀ s : State, s.Inv → s.Reads s.arg0.toNat (exec .skipbits s) fun st => s.done st s.res0 s.res1

/-- R128: SKIPBYTES tests the alignment and passes over 8 * ARG0 stream bits; the product does not wrap.
That a read which would commit a pending byte at or above
STORE_CAP is stuck is log entry 11. -/
def Obligations.SkipbytesPassesBytes : Prop :=
  ∀ s : State, s.Inv →
    (s.unalignedRefused → exec .skipbytes s = .next s.unalignedFailure) ∧
    (¬ s.unalignedRefused → s.Reads (8 * s.arg0.toNat) (exec .skipbytes s) fun st => s.done st s.res0 s.res1)

/-- R130: RELEASE commits the padded pending byte, if there is one, and puts the cursor at position 0. -/
def Obligations.ReleaseFlushesAndRewinds : Prop :=
  ∀ s : State, s.Inv →
    (s.stream.hpw = true → s.stream.bytePos.toNat < s.cfg.storeCap →
      ∃ st, exec .release s = .next (s.done st s.res0 s.res1) ∧ s.stream.Committed s.stream.paddedPend st ∧
        st.alignedAt 0 ∧ st.storePos.toNat = s.stream.bytePos.toNat + 1) ∧
    (s.stream.hpw = false → (s.stream.bitOff = 0#3 ∨ s.stream.bytePos.toNat + 1 < 2 ^ 61) →
      exec .release s = .next (s.done
        { s.stream with bytePos := 0#61, bitOff := 0#3, pend := 0#8, hpw := false } s.res0 s.res1)) ∧
    (s.stream.hpw = true → s.cfg.storeCap ≤ s.stream.bytePos.toNat → exec .release s = .fault .storeFull) ∧
    (s.stream.hpw = false → s.stream.bitOff ≠ 0#3 → s.stream.bytePos.toNat + 1 = 2 ^ 61 →
      exec .release s = .fault .positionOverflow)

/-- R131: the peek form of each read-class command delivers what the read delivers and leaves the cursor and the store.
That a peek whose read is stuck is stuck is log entry 15. -/
def Obligations.PeekRestoresStream : Prop :=
  ∀ s : State,
    exec (.rdbit true) s = restoring s (exec (.rdbit false) s) ∧
    (∀ n, exec (.rdbits n true) s = restoring s (exec (.rdbits n false) s)) ∧
    (∀ n, exec (.rdbytes n true) s = restoring s (exec (.rdbytes n false) s)) ∧
    (∀ t sg, exec (.prd t sg true) s = restoring s (exec (.prd t sg false) s)) ∧
    exec (.rdue true) s = restoring s (exec (.rdue false) s) ∧
    exec (.rdse true) s = restoring s (exec (.rdse false) s) ∧
    exec (.rdte true) s = restoring s (exec (.rdte false) s)

/-- R132: a read after a write in the same byte takes its bits from PEND, whatever the store holds, and commits the pending
byte when it leaves it. -/
def Obligations.ReadAfterWriteReadsPend : Prop :=
  ∀ (n : BitVec 7) (s : State), s.Inv → s.stream.hpw = true → s.stream.bitOff.toNat + n.toNat ≤ 8 →
    s.stream.bytePos.toNat < s.cfg.storeCap →
    ∃ st, exec (.rdbits n false) s = .next (s.done st
        (BitVec.ofNat 64 (s.stream.pend.toNat / 2 ^ s.stream.bitOff.toNat % 2 ^ n.toNat)) s.res1) ∧
      (s.stream.bitOff.toNat + n.toNat < 8 → ∀ a, st.byte? a = s.stream.byte? a) ∧
      (s.stream.bitOff.toNat + n.toNat = 8 → s.stream.Committed s.stream.pend st)

/-- R133: a write after a fetch in the same byte replaces only the bits it writes. The commit of that byte by `advance` or
by SETPOS keeps the fetched bits, and that by ALIGN zeroes the bits from the cursor on. -/
def Obligations.WriteAfterFetchKeepsBits : Prop :=
  ∀ (n : BitVec 7) (s : State), s.Inv → s.stream.bitOff ≠ 0#3 → s.stream.hpw = false → 0 < n.toNat →
    s.stream.bitOff.toNat + n.toNat ≤ 8 → s.stream.bytePos.toNat < s.cfg.storeCap →
    ∃ (t : State) (merged : Byte), exec (.wrbits n) s = .next t ∧
      (∀ i, i < 8 → merged.getLsbD i =
        if s.stream.bitOff.toNat ≤ i ∧ i < s.stream.bitOff.toNat + n.toNat
        then s.arg0.getLsbD (i - s.stream.bitOff.toNat) else s.stream.pend.getLsbD i) ∧
      (s.stream.bitOff.toNat + n.toNat = 8 → t.stream.byte? s.stream.bytePos.toNat = some merged) ∧
      (s.stream.bitOff.toNat + n.toNat < 8 → t.stream.pend = merged ∧
        (∃ u, exec .setpos t = .next u ∧ u.stream.byte? s.stream.bytePos.toNat = some merged) ∧
        ∃ u, exec .align t = .next u ∧ u.stream.byte? s.stream.bytePos.toNat =
          some (BitVec.ofNat 8 (merged.toNat % 2 ^ (s.stream.bitOff.toNat + n.toNat))))

/-- R58: a field of n bits written by one command is read back from the same position, bit for bit. -/
def Obligations.WrbitsReadBack : Prop :=
  ∀ (n : BitVec 7) (s : State), s.Inv → n.toNat ≤ 64 → s.stream.roomToFlush s.cfg.storeCap n.toNat →
    ∃ t u v, exec (.wrbits n) s = .next t ∧ exec .setpos { t with arg0 := s.posWord } = .next u ∧
      exec (.rdbits n false) u = .next v ∧ v.err = .ok ∧
      v.res0 = BitVec.ofNat 64 (s.arg0.toNat % 2 ^ n.toNat) ∧ v.stream.pos = s.stream.pos + n.toNat

/-! ### The packed-integer commands (spec/41_packed_int.md) -/

/-- R170: PWR writes the N bits of the pattern of ARG0, bit 0 first, at any BIT_OFF. -/
def Obligations.PwrWritesPattern : Prop :=
  ∀ (t : Width) (sg sg2 : Sign) (s : State), s.Inv →
    s.Writes ((List.range (widthBits t)).map fun i => (patternNat (widthBits t) sg (rawInt sg2 s.arg0)).testBit i)
      (exec (.pwr t sg sg2) s) fun st => s.done st s.res0 s.res1

/-- R171: PRD delivers the logical value of the next N stream bits in RES0 and their pattern in RES1.
That a read which would commit a pending byte at or above
STORE_CAP is stuck is log entry 11, and that its peek is stuck too is log entry 15. -/
def Obligations.PrdReadsPacked : Prop :=
  ∀ (t : Width) (sg : Sign) (p : Bool) (s : State), s.Inv →
    s.Reads (widthBits t) (exec (.prd t sg p) s) fun st =>
      s.done (if p then s.stream else st)
        (BitVec.ofInt 64 (logicalInt (widthBits t) sg (s.stream.fieldNat (widthBits t)))) (s.stream.field (widthBits t))

/-- R172, R161 and R162: PFMT never fails; it leaves the pattern of ARG0 in RES1 and its logical value in RES0. -/
def Obligations.PfmtConstructs : Prop :=
  ∀ (t : Width) (sg sg2 : Sign) (s : State),
    exec (.pfmt t sg sg2) s = .next (s.done s.stream
      (BitVec.ofInt 64 (logicalInt (widthBits t) sg (patternNat (widthBits t) sg (rawInt sg2 s.arg0))))
      (BitVec.ofNat 64 (patternNat (widthBits t) sg (rawInt sg2 s.arg0))))

/-- R173 and R163: PVAL leaves the logical value of the pattern in ARG0 in RES0. -/
def Obligations.PvalConverts : Prop :=
  ∀ (t : Width) (sg : Sign) (s : State),
    exec (.pval t sg) s =
      .next (s.done s.stream (BitVec.ofInt 64 (logicalInt (widthBits t) sg s.arg0.toNat)) s.res1)

/-- R174: PBYTES leaves the pattern's bytes in RES0 and their number in RES1, for the widths 24 and 48 only. The decoder gives
no other width; that the meaning of the ill-formed ones is IllegalCommand is the model's choice (log entry 12). -/
def Obligations.PbytesPacks : Prop :=
  ∀ (t : Width) (sg : Sign) (s : State),
    (t = .w24 ∨ t = .w48 → exec (.pbytes t sg) s = .next (s.done s.stream
      (BitVec.ofNat 64 (s.arg0.toNat % 2 ^ widthBits t)) (BitVec.ofNat 64 (widthBits t / 8)))) ∧
    (¬ (t = .w24 ∨ t = .w48) → exec (.pbytes t sg) s = .next (s.failed .illegalCommand 0#4))

/-- R175: PBIT leaves bit ARG1 of the pattern in RES0, and fails with ArgumentRange for an index of N or more. -/
def Obligations.PbitGivesBit : Prop :=
  ∀ (t : Width) (sg : Sign) (s : State),
    (s.arg1.toNat < widthBits t → exec (.pbit t sg) s =
      .next (s.done s.stream (if s.arg0.toNat.testBit s.arg1.toNat then 1#64 else 0#64) s.res1)) ∧
    (widthBits t ≤ s.arg1.toNat → exec (.pbit t sg) s = .next (s.failed .argumentRange 0#4))

/-- R176 and R167: PEQ leaves 1 in RES0 if the two packed integers are equal, and 0 otherwise. -/
def Obligations.PeqCompares : Prop :=
  ∀ (t : Width) (sa sb : Sign) (s : State),
    (packedEqual (widthBits t) sa s.arg0.toNat sb s.arg1.toNat →
      exec (.peq t sa sb) s = .next (s.done s.stream 1#64 s.res1)) ∧
    (¬ packedEqual (widthBits t) sa s.arg0.toNat sb s.arg1.toNat →
      exec (.peq t sa sb) s = .next (s.done s.stream 0#64 s.res1))

/-- R166: construction and conversion are inverse on a type's range, and wrap outside it. -/
def Obligations.FormatRoundTrip : Prop :=
  ∀ (t : Width) (sg : Sign) (s : State),
    (∀ sg2, ∃ u v, exec (.pfmt t sg sg2) s = .next u ∧ exec (.pval t sg) { u with arg0 := u.res1 } = .next v ∧
      (inRange (widthBits t) sg (rawInt sg2 s.arg0) → v.res0 = s.arg0) ∧
      (sg = .unsigned → v.res0 = BitVec.ofInt 64 (rawInt sg2 s.arg0 % 2 ^ widthBits t)) ∧
      (sg = .signed → v.res0 = BitVec.ofInt 64
        ((rawInt sg2 s.arg0).sign * ((rawInt sg2 s.arg0).natAbs % 2 ^ (widthBits t - 1) : Nat)))) ∧
    (∃ u v, exec (.pval t sg) s = .next u ∧ exec (.pfmt t sg .signed) { u with arg0 := u.res0 } = .next v ∧
      v.res1 = if sg = .signed ∧ s.arg0.toNat % 2 ^ widthBits t = 2 ^ (widthBits t - 1) then 0#64
        else BitVec.ofNat 64 (s.arg0.toNat % 2 ^ widthBits t))

/-- R177: writing with PWR and reading with PRD of the same type at the same position restores the pattern, and restores
the value where it lies in the type's range. -/
def Obligations.PwrReadBack : Prop :=
  ∀ (w : Width) (sg sg2 : Sign) (s : State), s.Inv → s.stream.roomToFlush s.cfg.storeCap (widthBits w) →
    ∃ t u v, exec (.pwr w sg sg2) s = .next t ∧ exec .setpos { t with arg0 := s.posWord } = .next u ∧
      exec (.prd w sg false) u = .next v ∧ v.err = .ok ∧
      v.res1 = BitVec.ofNat 64 (patternNat (widthBits w) sg (rawInt sg2 s.arg0)) ∧
      (inRange (widthBits w) sg (rawInt sg2 s.arg0) → v.res0 = s.arg0) ∧
      v.stream.pos = s.stream.pos + widthBits w

/-! ### The Exp-Golomb commands (spec/42_exp_golomb.md) -/

/-- R210: WRUE writes the code of ARG0[31:0] in the style of GMODE and leaves its length in RES1. -/
def Obligations.WrueWritesCode : Prop :=
  ∀ s : State, s.Inv →
    s.Writes (codeBits s.gmode (s.arg0.toNat % 2 ^ 32)) (exec .wrue s) fun st =>
      s.done st s.res0 (BitVec.ofNat 64 (codeLength s.gmode (s.arg0.toNat % 2 ^ 32)))

/-- R211: RDUE reads a code; the code number goes to RES0 and the count to RES1, and a code number above 2^32 - 1 or too
long a run of zeros is ArgumentRange. That a read which would commit a pending byte at or above
STORE_CAP is stuck is log entry 11, and that its peek is stuck too is log entry 15. -/
def Obligations.RdueReadsCode : Prop :=
  ∀ (p : Bool) (s : State), s.Inv →
    s.ReadsCode (exec (.rdue p) s) fun c r =>
      if c ≤ 2 ^ 32 - 1 then
        some fun st => s.done (if p then s.stream else st) (BitVec.ofNat 64 c) (BitVec.ofNat 64 r)
      else none

/-- R212: WRSE writes the code of the code number of the signed ARG0[31:0] and leaves its length in RES1. -/
def Obligations.WrseWritesCode : Prop :=
  ∀ s : State, s.Inv →
    s.Writes (codeBits s.gmode (codeOfSigned (s.arg0.setWidth 32).toInt)) (exec .wrse s) fun st =>
      s.done st s.res0 (BitVec.ofNat 64 (codeLength s.gmode (codeOfSigned (s.arg0.setWidth 32).toInt)))

/-- R213: RDSE reads a code and delivers its signed value, or ArgumentRange outside the signed 32-bit domain.
That a read which would commit a pending byte at or above
STORE_CAP is stuck is log entry 11, and that its peek is stuck too is log entry 15. -/
def Obligations.RdseReadsCode : Prop :=
  ∀ (p : Bool) (s : State), s.Inv →
    s.ReadsCode (exec (.rdse p) s) fun c r =>
      if -2 ^ 31 ≤ signedOfCode c ∧ signedOfCode c ≤ 2 ^ 31 - 1 then
        some fun st => s.done (if p then s.stream else st) (BitVec.ofInt 64 (signedOfCode c)) (BitVec.ofNat 64 r)
      else none

/-- R214: WRTE writes the ue code of ARG0[31:0] if the maximum ARG1[31:0] is above 1, and otherwise one bit, 1 for the
value 0 and 0 for any other. -/
def Obligations.WrteWritesCode : Prop :=
  ∀ s : State, s.Inv →
    (1 < s.arg1.toNat % 2 ^ 32 →
      s.Writes (codeBits s.gmode (s.arg0.toNat % 2 ^ 32)) (exec .wrte s) fun st =>
        s.done st s.res0 (BitVec.ofNat 64 (codeLength s.gmode (s.arg0.toNat % 2 ^ 32)))) ∧
    (s.arg1.toNat % 2 ^ 32 ≤ 1 →
      s.Writes [decide (s.arg0.toNat % 2 ^ 32 = 0)] (exec .wrte s) fun st => s.done st s.res0 1#64)

/-- R215: RDTE reads a ue code if the maximum is above 1, and otherwise one bit b, delivering 1 - b.
That a read which would commit a pending byte at or above
STORE_CAP is stuck is log entry 11, and that its peek is stuck too is log entry 15. -/
def Obligations.RdteReadsCode : Prop :=
  ∀ (p : Bool) (s : State), s.Inv →
    (1 < s.arg1.toNat % 2 ^ 32 →
      s.ReadsCode (exec (.rdte p) s) fun c r =>
        if c ≤ 2 ^ 32 - 1 then
          some fun st => s.done (if p then s.stream else st) (BitVec.ofNat 64 c) (BitVec.ofNat 64 r)
        else none) ∧
    (s.arg1.toNat % 2 ^ 32 ≤ 1 →
      s.Reads 1 (exec (.rdte p) s) fun st =>
        s.done (if p then s.stream else st) (if s.stream.bitAt s.stream.pos then 0#64 else 1#64) 1#64)

/-- R218 for ue, se and te: what a write wrote, the read of the same kind gives back from its start. In COMPAT the code
number is at least 1, and the count read is one less than the count written. -/
def Obligations.GolombRoundTrip : Prop :=
  ∀ s : State, s.Inv →
    ((s.gmode = .compat → s.arg0.toNat % 2 ^ 32 ≠ 0) →
      s.stream.roomToFlush s.cfg.storeCap (codeLength s.gmode (s.arg0.toNat % 2 ^ 32)) →
      ∃ t u v, exec .wrue s = .next t ∧ exec .setpos { t with arg0 := s.posWord } = .next u ∧
        exec (.rdue false) u = .next v ∧ v.err = .ok ∧ v.res0 = BitVec.ofNat 64 (s.arg0.toNat % 2 ^ 32) ∧
        v.res1 = (if s.gmode = .standard then t.res1 else t.res1 - 1#64)) ∧
    ((s.gmode = .compat → s.arg0.toNat % 2 ^ 32 ≠ 0) →
      s.stream.roomToFlush s.cfg.storeCap (codeLength s.gmode (codeOfSigned (s.arg0.setWidth 32).toInt)) →
      ∃ t u v, exec .wrse s = .next t ∧ exec .setpos { t with arg0 := s.posWord } = .next u ∧
        exec (.rdse false) u = .next v ∧ v.err = .ok ∧ v.res0 = BitVec.ofInt 64 (s.arg0.setWidth 32).toInt ∧
        v.res1 = (if s.gmode = .standard then t.res1 else t.res1 - 1#64)) ∧
    (1 < s.arg1.toNat % 2 ^ 32 → (s.gmode = .compat → s.arg0.toNat % 2 ^ 32 ≠ 0) →
      s.stream.roomToFlush s.cfg.storeCap (codeLength s.gmode (s.arg0.toNat % 2 ^ 32)) →
      ∃ t u v, exec .wrte s = .next t ∧ exec .setpos { t with arg0 := s.posWord } = .next u ∧
        exec (.rdte false) u = .next v ∧ v.err = .ok ∧ v.res0 = BitVec.ofNat 64 (s.arg0.toNat % 2 ^ 32) ∧
        v.res1 = (if s.gmode = .standard then t.res1 else t.res1 - 1#64)) ∧
    (s.arg1.toNat % 2 ^ 32 ≤ 1 → s.arg0.toNat % 2 ^ 32 ≤ 1 → s.stream.roomToFlush s.cfg.storeCap 1 →
      ∃ t u v, exec .wrte s = .next t ∧ exec .setpos { t with arg0 := s.posWord } = .next u ∧
        exec (.rdte false) u = .next v ∧ v.err = .ok ∧ v.res0 = BitVec.ofNat 64 (s.arg0.toNat % 2 ^ 32) ∧
        v.res1 = t.res1) ∧
    (s.gmode = .compat → s.arg0.toNat % 2 ^ 32 = 0 → exec .wrue s = .next (s.done s.stream s.res0 0#64))

/-! ### Every command (spec/10_state.md, spec/60_exceptions.md) -/

/-- R243: a command that raises an error undoes everything and writes STATUS alone. -/
def Obligations.ErrorUndoesEverything : Prop :=
  ∀ (i : Instr) (s t : State), exec i s = .next t → t.err ≠ .ok →
    t = s.failed t.err t.bitsLeft ∧ (t.err ≠ .streamUnaligned → t.bitsLeft = 0#4)

/-- R242 and R33: a command that completes clears STATUS, writes the result registers it names and no others, and changes
no register the host writes. A peek and a command that does not touch the stream leave the cursor and the store. -/
def Obligations.SuccessFrame : Prop :=
  ∀ (i : Instr) (s t : State), exec i s = .next t → t.err = .ok →
    t = s.done t.stream t.res0 t.res1 ∧ (namesRes0 i = false → t.res0 = s.res0) ∧
      (namesRes1 i = false → t.res1 = s.res1) ∧ (movesStream i = false → t.stream = s.stream)

/-- The columns "raised by" and "recorded" of R241. -/
def Obligations.ErrorTable : Prop :=
  ∀ (i : Instr) (s t : State), s.Inv → i.wf = true → exec i s = .next t →
    (t.err = .streamUnaligned → raisesUnaligned i = true ∧ s.stream.bitOff ≠ 0#3 ∧ s.au = false ∧
      t.bitsLeft.toNat = 8 - s.stream.bitOff.toNat) ∧
    (t.err = .endOfStream → raisesEnd i = true) ∧ (t.err = .argumentRange → raisesRange i = true) ∧
    t.err ≠ .illegalCommand

/-- R247 with R56 and R57: a command is stuck only at a commit past the capacity, and at the last byte address in ALIGN and
RELEASE; no command is refused. -/
def Obligations.StuckCommands : Prop :=
  ∀ (i : Instr) (s : State), s.Inv →
    (∀ r, exec i s ≠ .refused r) ∧
    ∀ f, exec i s = .fault f →
      (f = .storeFull ∧ (writesStream i = true ∨ s.stream.hpw = true) ∧ s.cfg.storeCap < s.stream.bytePos.toNat + 9) ∨
      (f = .positionOverflow ∧ (i = .align ∨ i = .release) ∧ s.stream.hpw = false ∧
        s.stream.bytePos.toNat = 2 ^ 61 - 1)

/-- Every command completes or fails with an error in a store with room for nine bytes, the most one command commits. -/
def Obligations.CommandsCompleteWithRoom : Prop :=
  ∀ (i : Instr) (s : State), s.Inv → s.stream.bytePos.toNat + 9 ≤ s.cfg.storeCap → ∃ t, exec i s = .next t

/-- R69: STORE_POS is an output; no command depends on it. -/
def Obligations.StorePosIsNotAnInput : Prop :=
  ∀ (i : Instr) (s t : State), withoutStorePos s = withoutStorePos t →
    mapNext withoutStorePos (exec i s) = mapNext withoutStorePos (exec i t)

/-! ### Command words (spec/30_encoding.md) -/

/-- R81, R82 and R85: decoding the word of a well-formed command gives it back, with every operand. -/
def Obligations.DecodeEncode : Prop := ∀ i : Instr, i.wf = true → decode (encode i) = .ok i

/-- The other direction: a word that decodes is the word of the command it decodes to, so no two words share one. -/
def Obligations.EncodeDecode : Prop := ∀ (w : CmdWord) (i : Instr), decode w = .ok i → i.wf = true ∧ encode i = w

/-- R86 and R87: the decoder accepts exactly the words a row of the opcode table matches, with WIDX below 10 where it is
free; and no two rows match one word. -/
def Obligations.LegalWords : Prop :=
  (∀ w : CmdWord, (∃ i, decode w = .ok i) ↔ legalWord w) ∧
  ∀ (w : CmdWord) (r r' : OpcodeRow), r ∈ opcodeRows → r' ∈ opcodeRows → r.selects w → r'.selects w → r = r'

/-- Words written out from R81, R83 and R85. -/
def Obligations.DecodeWords : Prop :=
  decode 0x00000402#32 = .ok (.wrbits 4#7) ∧ decode 0x0000C004#32 = .ok (.rdbits 64#7 true) ∧
  decode 0x00000007#32 = .ok .align ∧ decode 0x00320010#32 = .ok (.pwr .w4 .signed .signed) ∧
  decode 0x00190015#32 = .ok (.pbytes .w48 .signed) ∧ decode 0x00008021#32 = .ok (.rdue true) ∧
  decode 0x000A0013#32 = .error .reservedWidth ∧ decode 0x00000000#32 = .error .unassignedOpcode ∧
  decode 0x00000101#32 = .error .unusedField ∧ decode 0x00000015#32 = .error .pbytesWidth

/-! ### The step (spec/10_state.md, spec/70_reset_and_hazards.md) -/

/-- R280 and R34: a host write of a legal word to CMD runs the command as one step. The host's accesses stand in State (log
entry 1). -/
def Obligations.StepRunsDecodedCommand : Prop :=
  ∀ (s : State) (v : Word) (rest : List HostAccess) (i : Instr), s.host = .regWrite 0x40 v :: rest →
    decode (v.setWidth 32) = .ok i → step s = exec i { s with host := rest }

/-- R240 and R87: an illegal word raises IllegalCommand and changes nothing else. -/
def Obligations.IllegalWordFails : Prop :=
  ∀ (s : State) (v : Word) (rest : List HostAccess), s.host = .regWrite 0x40 v :: rest → ¬ legalWord (v.setWidth 32) →
    step s = .next (State.failed { s with host := rest } .illegalCommand 0#4)

/-- R260 and R273: with no access of the host to come the engine is idle and keeps all its state. -/
def Obligations.IdleStep : Prop := ∀ s : State, s.host = [] → step s = .next s

/-- R34: bits 63:32 of the value written to CMD do not matter. -/
def Obligations.CmdUpperBitsIgnored : Prop :=
  ∀ (s : State) (v w : Word) (rest : List HostAccess), v.toNat % 2 ^ 32 = w.toNat % 2 ^ 32 →
    step { s with host := .regWrite 0x40 v :: rest } = step { s with host := .regWrite 0x40 w :: rest }

/-- R24 to R27 and R36: what a host read of each register gives. The answer goes to `hostData` (log entry 2). -/
def Obligations.HostReadsRegister : Prop :=
  ∀ (s : State) (off : Nat) (rest : List HostAccess), s.host = .regRead off :: rest →
    ∃ v, step s = .next { s with host := rest, hostData := v } ∧
      (off = 0x00 → v.toNat = s.au.toNat + 2 * (if s.gmode = .compat then 1 else 0)) ∧
      (off = 0x08 → v.toNat = (match s.err with
        | .ok => 0 | .streamUnaligned => 1 | .endOfStream => 2 | .argumentRange => 3 | .illegalCommand => 4) +
          16 * s.bitsLeft.toNat) ∧
      (off = 0x10 → v.toNat = s.stream.bitOff.toNat + 8 * s.stream.hpw.toNat +
        16 * (if s.stream.bitOff = 0#3 then 0 else 1) + 256 * s.stream.pend.toNat) ∧
      (off = 0x18 → v.toNat = s.stream.bytePos.toNat * 8 + s.stream.bitOff.toNat) ∧
      (off = 0x20 → v = s.arg0) ∧ (off = 0x28 → v = s.arg1) ∧ (off = 0x30 → v = s.res0) ∧ (off = 0x38 → v = s.res1) ∧
      (off ∉ [0x00, 0x08, 0x10, 0x18, 0x20, 0x28, 0x30, 0x38] → v = 0#64)

/-- R24, R32 and R36: what a host write of each register but CMD does. -/
def Obligations.HostWritesRegister : Prop :=
  ∀ (s : State) (off : Nat) (v : Word) (rest : List HostAccess), s.host = .regWrite off v :: rest →
    (off = 0x00 → step s = .next { s with
      host := rest, au := v.getLsbD 0, gmode := if v.getLsbD 1 then .compat else .standard }) ∧
    (off = 0x20 → step s = .next { s with host := rest, arg0 := v }) ∧
    (off = 0x28 → step s = .next { s with host := rest, arg1 := v }) ∧
    (off ∉ [0x00, 0x20, 0x28, 0x40] → step s = .next { s with host := rest })

/-- R24, R25, R32 and R33: a step changes CTRL, STATUS, ARG0, ARG1, RES0 and RES1 only where the host writes that register,
issues a command or resets; no step changes the parameters. -/
def Obligations.RegistersChangeOnlyByTheirWriters : Prop :=
  ∀ s t : State, step s = .next t →
    t.cfg = s.cfg ∧
    (∀ a rest, s.host = a :: rest → a ≠ .reset →
      ((∀ v, a ≠ .regWrite 0x00 v) → t.au = s.au ∧ t.gmode = s.gmode) ∧
      ((∀ v, a ≠ .regWrite 0x20 v) → t.arg0 = s.arg0) ∧ ((∀ v, a ≠ .regWrite 0x28 v) → t.arg1 = s.arg1) ∧
      ((∀ v, a ≠ .regWrite 0x40 v) →
        t.err = s.err ∧ t.bitsLeft = s.bitsLeft ∧ t.res0 = s.res0 ∧ t.res1 = s.res1 ∧
          t.stream.bytePos = s.stream.bytePos ∧ t.stream.bitOff = s.stream.bitOff ∧ t.stream.pend = s.stream.pend ∧
          t.stream.hpw = s.stream.hpw))

/-! ### The host and the store (spec/20_memory.md, spec/70_reset_and_hazards.md) -/

/-- R50, R69 and R70: what each host access of the store does, LEN and STORE_POS among what the host reads. The accesses
stand in State (log entry 1) and what a read gives goes to `hostData` (log entry 2); an access outside the store stops
(log entry 7), and STORE_POS changes by a seek alone (log entry 8). -/
def Obligations.HostStoreAccess : Prop :=
  ∀ (s : State) (rest : List HostAccess), s.Inv →
    (∀ a b, a < s.stream.len → s.host = .storeWrite a b :: rest →
      ∃ st, step s = .next { s with host := rest, stream := st } ∧ st.len = s.stream.len ∧
        (∀ x, st.byte? x = if x = a then some b else s.stream.byte? x) ∧ st.storePos = s.stream.storePos) ∧
    (∀ b, s.stream.len < s.cfg.storeCap → s.host = .storeAppend b :: rest →
      ∃ st, step s = .next { s with host := rest, stream := st } ∧ st.len = s.stream.len + 1 ∧
        (∀ x, st.byte? x = if x = s.stream.len then some b else s.stream.byte? x) ∧ st.storePos = s.stream.storePos) ∧
    (∀ b, s.stream.len = s.cfg.storeCap → s.host = .storeAppend b :: rest → step s = .fault .hostStoreFull) ∧
    (∀ l, s.host = .storeTruncate l :: rest →
      ∃ st, step s = .next { s with host := rest, stream := st } ∧ st.len = min s.stream.len l ∧
        (∀ x, st.byte? x = if x < l then s.stream.byte? x else none) ∧ st.storePos = s.stream.storePos) ∧
    (∀ a b, a < s.stream.len → s.stream.byte? a = some b → s.host = .storeRead a :: rest →
      step s = .next { s with host := rest, hostData := b.setWidth 64 }) ∧
    (∀ a b, s.stream.len ≤ a → (s.host = .storeWrite a b :: rest ∨ s.host = .storeRead a :: rest) →
      step s = .fault .hostStoreAddress) ∧
    (s.host = .storeReadLen :: rest →
      ∃ v, step s = .next { s with host := rest, hostData := v } ∧ v.toNat = s.stream.len) ∧
    (s.host = .storeTell :: rest →
      ∃ v, step s = .next { s with host := rest, hostData := v } ∧ v.toNat = s.stream.storePos.toNat) ∧
    (∀ p, s.host = .storeSeek p :: rest →
      step s = .next { s with host := rest, stream := { s.stream with storePos := p } })

/-- R38 and R285: a host write to the byte the cursor is inside is not seen by reads of that byte; with bits pending SETPOS
overwrites it, and with none SETPOS to the same position fetches it. -/
def Obligations.HostWriteUnderTheLatch : Prop :=
  ∀ (s : State) (b : Byte) (rest : List HostAccess), s.Inv → s.stream.bitOff ≠ 0#3 →
    s.stream.bytePos.toNat < s.stream.len → s.host = .storeWrite s.stream.bytePos.toNat b :: rest →
    ∃ t, step s = .next t ∧
      (∀ n : BitVec 7, s.stream.bitOff.toNat + n.toNat ≤ 8 →
        ∃ u v, exec (.rdbits n false) { s with host := rest } = .next u ∧ exec (.rdbits n false) t = .next v ∧
          v.err = .ok ∧ v.res0 = u.res0) ∧
      (s.stream.hpw = true → ∃ u, exec .setpos t = .next u ∧
        u.stream.byte? s.stream.bytePos.toNat = some s.stream.pend) ∧
      (s.stream.hpw = false → ∃ u, exec .setpos { t with arg0 := s.posWord } = .next u ∧ u.stream.pend = b ∧
        u.stream.pos = s.stream.pos)

/-- R286: after the host has truncated the store under the cursor. Inside a byte (LEN at or below BYTE_POS), a read fails
with EndOfStream if nothing is pending, and a commit fills the gap with 0 if something is. On a byte boundary (LEN below
BYTE_POS), a read fails with EndOfStream and a write fills the gap with 0. -/
def Obligations.TruncationUnderTheCursor : Prop :=
  ∀ (s : State) (l : Nat) (rest : List HostAccess), s.Inv → s.host = .storeTruncate l :: rest →
    ∃ t, step s = .next t ∧
      (s.stream.bitOff ≠ 0#3 → l ≤ s.stream.bytePos.toNat →
        (s.stream.hpw = false → ∀ p, exec (.rdbit p) t = .next (t.failed .endOfStream 0#4)) ∧
        (s.stream.hpw = true → s.stream.bytePos.toNat < s.cfg.storeCap →
          ∃ u, exec .align t = .next u ∧ u.stream.len = s.stream.bytePos.toNat + 1 ∧
            u.stream.byte? s.stream.bytePos.toNat = some s.stream.paddedPend ∧
            (∀ a, min s.stream.len l ≤ a → a < s.stream.bytePos.toNat → u.stream.byte? a = some 0#8) ∧
            ∀ a, a < min s.stream.len l → u.stream.byte? a = s.stream.byte? a)) ∧
      (s.stream.bitOff = 0#3 → l < s.stream.bytePos.toNat →
        (∀ p, exec (.rdbit p) t = .next (t.failed .endOfStream 0#4)) ∧
        (∀ n : BitVec 7, 0 < n.toNat → n.toNat ≤ 8 → s.stream.bytePos.toNat + n.toNat ≤ s.cfg.storeCap →
          ∃ u, exec (.wrbytes n) t = .next u ∧ u.stream.len = s.stream.bytePos.toNat + n.toNat ∧
            (∀ k, k < n.toNat →
              u.stream.byte? (s.stream.bytePos.toNat + k) = some (s.arg0.extractLsb' (8 * k) 8)) ∧
            (∀ a, min s.stream.len l ≤ a → a < s.stream.bytePos.toNat → u.stream.byte? a = some 0#8) ∧
            ∀ a, a < min s.stream.len l → u.stream.byte? a = s.stream.byte? a))

/-! ### Reset (spec/70_reset_and_hazards.md) -/

/-- R270: the registers after reset, for every value of the parameters. -/
def Obligations.ResetValues : Prop :=
  ∀ cfg : Config,
    (State.resetWith cfg).cfg = cfg ∧ (State.resetWith cfg).au = cfg.initAu ∧ State.reset.au = false ∧
    (State.resetWith cfg).gmode = .standard ∧ (State.resetWith cfg).ctrlWord = (BitVec.ofBool cfg.initAu).setWidth 64 ∧
    (State.resetWith cfg).statusWord = 0#64 ∧
    (State.resetWith cfg).stream.bytePos = 0#61 ∧ (State.resetWith cfg).stream.bitOff = 0#3 ∧
    (State.resetWith cfg).stream.pend = 0#8 ∧ (State.resetWith cfg).stream.hpw = false ∧
    (State.resetWith cfg).posWord = 0#64 ∧ (State.resetWith cfg).cursorWord = 0#64 ∧
    (State.resetWith cfg).arg0 = 0#64 ∧ (State.resetWith cfg).arg1 = 0#64 ∧ (State.resetWith cfg).res0 = 0#64 ∧
    (State.resetWith cfg).res1 = 0#64 ∧ (State.resetWith cfg).stream.storePos = 0#61

/-- R270 to R272: the reset input gives the engine its reset values, loses the pending bits and leaves the store's bytes
and length. -/
def Obligations.ResetInput : Prop :=
  ∀ (s : State) (rest : List HostAccess), s.host = .reset :: rest →
    ∃ t, step s = .next t ∧ t.au = s.cfg.initAu ∧ t.gmode = .standard ∧ t.err = .ok ∧ t.bitsLeft = 0#4 ∧
      t.arg0 = 0#64 ∧ t.arg1 = 0#64 ∧ t.res0 = 0#64 ∧ t.res1 = 0#64 ∧ t.stream.alignedAt 0 ∧
      t.stream.storePos = 0#61 ∧ t.stream.len = s.stream.len ∧ t.cfg = s.cfg ∧
      ∀ a, t.stream.byte? a = s.stream.byte? a

/-! ### The invariant -/

/-- R35 after reset, with R8, R25 and R50: the machine's invariant holds after reset, for every value of the parameters in
their range. -/
def Obligations.ResetInvariant : Prop :=
  State.reset.Inv ∧ ∀ cfg : Config, cfg.wf → (State.resetWith cfg).Inv

/-- R35: every step keeps the invariant. -/
def Obligations.StepKeepsInvariant : Prop := ∀ s t : State, s.Inv → step s = .next t → t.Inv
end

