-- ==== Sys2Proof/Laws/Formats.lean ====
section
/-! SUPPORT. The pure functions of the two formatters against their plain readings: packed integers as integers
(spec/41_packed_int.md R161, R163, R167) and Exp-Golomb codes as bits (spec/42_exp_golomb.md R202 to R208). -/

namespace Sys2Proof.Machine

/-! ### Widths and masks -/

theorem widthBits_bounds (t : Width) : 2 ≤ widthBits t ∧ widthBits t ≤ 48 := by cases t <;> decide

theorem toNat_ofNat_two_pow_sub_one {n : Nat} (hn : n ≤ 64) : (BitVec.ofNat 64 (2 ^ n - 1)).toNat = 2 ^ n - 1 := by
  have : 2 ^ n ≤ 2 ^ 64 := Nat.pow_le_pow_right (by decide) hn
  rw [BitVec.toNat_ofNat, Nat.mod_eq_of_lt]
  have : 0 < 2 ^ n := Nat.two_pow_pos n
  omega

theorem toNat_and_packMask (t : Width) (a : Word) : (a &&& packMask t).toNat = a.toNat % 2 ^ widthBits t := by
  have := widthBits_bounds t
  rw [BitVec.toNat_and, packMask, toNat_ofNat_two_pow_sub_one (by omega), Nat.and_two_pow_sub_one_eq_mod]

theorem toNat_and_magMask (t : Width) (a : Word) : (a &&& magMask t).toNat = a.toNat % 2 ^ (widthBits t - 1) := by
  have := widthBits_bounds t
  rw [BitVec.toNat_and, magMask, toNat_ofNat_two_pow_sub_one (by omega), Nat.and_two_pow_sub_one_eq_mod]

theorem toNat_signMask (t : Width) : (signMask t).toNat = 2 ^ (widthBits t - 1) := by
  have := widthBits_bounds t
  rw [signMask, BitVec.toNat_ofNat, Nat.mod_eq_of_lt]
  exact Nat.pow_lt_pow_right (by decide) (by omega)

/-! ### Packed integers -/

theorem patternNat_lt {n : Nat} (hn : 0 < n) (sg : Sign) (raw : Int) : patternNat n sg raw < 2 ^ n := by
  have h1 : 2 ^ n = 2 * 2 ^ (n - 1) := by rw [← Nat.pow_succ']; congr 1; omega
  cases sg with
  | unsigned =>
    have : (0 : Int) < 2 ^ n := by positivity
    have := Int.emod_lt_of_pos raw this
    have := Int.emod_nonneg raw (b := 2 ^ n) (by positivity)
    have h2 : ((2 ^ n : Nat) : Int) = 2 ^ n := by push_cast; rfl
    simp only [patternNat]; omega
  | signed =>
    have := Nat.mod_lt raw.natAbs (Nat.two_pow_pos (n - 1))
    simp only [patternNat]
    split <;> omega

theorem patternNat_neg {raw : Int} (h : raw < 0) (n : Nat) :
    patternNat n .signed raw = 2 ^ (n - 1) + raw.natAbs % 2 ^ (n - 1) := by
  simp only [patternNat, if_pos h]

theorem patternNat_nonneg {raw : Int} (h : 0 ≤ raw) (n : Nat) :
    patternNat n .signed raw = raw.natAbs % 2 ^ (n - 1) := by
  simp only [patternNat, if_neg (not_lt.2 h), Nat.zero_add]

theorem rawInt_neg {a : Word} (h : a.msb = true) :
    rawInt .signed a < 0 ∧ (rawInt .signed a).natAbs = (-a).toNat ∧ rawInt .signed a = (a.toNat : Int) - 2 ^ 64 := by
  have e : rawInt .signed a = (a.toNat : Int) - 2 ^ 64 := by
    simp only [rawInt]; rw [BitVec.toInt_eq_msb_cond, if_pos h]; norm_num
  have := a.isLt
  have h63 : 2 ^ 63 ≤ a.toNat := by
    have := BitVec.msb_eq_decide a
    rw [h] at this
    simpa using this.symm
  refine ⟨by rw [e]; omega, ?_, e⟩
  rw [e, BitVec.toNat_neg]
  omega

theorem rawInt_nonneg {a : Word} (h : a.msb = false) : rawInt .signed a = a.toNat := by
  simp only [rawInt]; rw [BitVec.toInt_eq_msb_cond, if_neg (by simp [h])]

/-- The source integer is the word, up to a multiple of 2^64. -/
theorem rawInt_emod (sg : Sign) (a : Word) {n : Nat} (hn : n ≤ 64) : rawInt sg a % 2 ^ n = (a.toNat : Int) % 2 ^ n := by
  cases sg with
  | unsigned => rfl
  | signed =>
    cases h : a.msb with
    | false => rw [rawInt_nonneg h]
    | true =>
      have hd : (2 ^ n : Int) ∣ 2 ^ 64 := pow_dvd_pow 2 hn
      rw [(rawInt_neg h).2.2, Int.sub_emod, Int.emod_eq_zero_of_dvd hd, Int.sub_zero, Int.emod_emod]

/-- `fmt` gives the pattern R161 describes. -/
theorem fmt_toNat (t : Width) (sg sg2 : Sign) (a : Word) :
    (fmt t sg sg2 a).toNat = patternNat (widthBits t) sg (rawInt sg2 a) := by
  have hb := widthBits_bounds t
  cases sg with
  | unsigned =>
    simp only [fmt, patternNat]
    have hp : ((2 ^ widthBits t : Nat) : Int) = 2 ^ widthBits t := by push_cast; rfl
    rw [toNat_and_packMask, rawInt_emod sg2 a (by omega), ← hp, ← Int.natCast_emod, Int.toNat_natCast]
  | signed =>
    have key : ∀ x : Word, (signMask t ||| (x &&& magMask t)).toNat =
        2 ^ (widthBits t - 1) + x.toNat % 2 ^ (widthBits t - 1) := fun x => by
      have := Nat.two_pow_add_eq_or_of_lt (Nat.mod_lt x.toNat (Nat.two_pow_pos (widthBits t - 1))) 1
      rw [Nat.mul_one] at this
      rw [BitVec.toNat_or, toNat_signMask, toNat_and_magMask, ← this]
    have pos : ∀ x : Word, (0#64 ||| (x &&& magMask t)).toNat = x.toNat % 2 ^ (widthBits t - 1) := fun x => by
      rw [BitVec.zero_or, toNat_and_magMask]
    cases sg2 with
    | unsigned =>
      rw [patternNat_nonneg (by simp [rawInt])]
      simpa [fmt, rawInt] using toNat_and_magMask t a
    | signed =>
      cases h : a.msb with
      | true =>
        obtain ⟨hneg, habs, -⟩ := rawInt_neg h
        rw [patternNat_neg hneg, habs, ← key]
        simp [fmt, h]
      | false =>
        rw [patternNat_nonneg (by rw [rawInt_nonneg h]; omega), rawInt_nonneg h, Int.natAbs_natCast, ← pos]
        simp [fmt, h]

theorem fmt_eq (t : Width) (sg sg2 : Sign) (a : Word) :
    fmt t sg sg2 a = BitVec.ofNat 64 (patternNat (widthBits t) sg (rawInt sg2 a)) := by
  rw [← fmt_toNat, BitVec.ofNat_toNat, BitVec.setWidth_eq]

theorem logicalInt_mod {n : Nat} (hn : 0 < n) (sg : Sign) (p : Nat) : logicalInt n sg (p % 2 ^ n) = logicalInt n sg p := by
  have hd : 2 ^ (n - 1) ∣ 2 ^ n := Nat.pow_dvd_pow 2 (by omega)
  cases sg with
  | unsigned => simp only [logicalInt, Nat.mod_mod]
  | signed =>
    simp only [logicalInt, Nat.testBit_mod_two_pow, Nat.mod_mod_of_dvd _ hd]
    simp [show n - 1 < n by omega]

/-- `val` gives the logical value R163 describes. -/
theorem packVal_eq (t : Width) (sg : Sign) (p : Word) : packVal t sg p = logicalInt (widthBits t) sg p.toNat := by
  have hb := widthBits_bounds t
  rw [← logicalInt_mod (by omega)]
  cases sg with
  | unsigned =>
    simp only [packVal, logicalInt, toNat_and_packMask, Nat.mod_mod]
  | signed =>
    simp only [packVal, logicalInt, toNat_and_packMask, toNat_and_magMask]
    rw [show (p &&& packMask t).getLsbD (widthBits t - 1) = (p &&& packMask t).toNat.testBit (widthBits t - 1) from rfl,
      toNat_and_packMask]

theorem packOut_eq (t : Width) (sg : Sign) (p : Word) :
    packOut t sg p = BitVec.ofInt 64 (logicalInt (widthBits t) sg p.toNat) := by
  rw [packOut, packVal_eq]

/-- `peq` is the relation R167 describes. -/
theorem packEq_iff (t : Width) (sa sb : Sign) (a b : Word) :
    packEq t sa a sb b = true ↔ packedEqual (widthBits t) sa a.toNat sb b.toNat := by
  have hb := widthBits_bounds t
  have hn : widthBits t - 1 < widthBits t := by omega
  have hd : 2 ^ (widthBits t - 1) ∣ 2 ^ widthBits t := Nat.pow_dvd_pow 2 (by omega)
  have bit : ∀ x : Word, (x &&& packMask t).getLsbD (widthBits t - 1) = x.toNat.testBit (widthBits t - 1) := fun x => by
    rw [show (x &&& packMask t).getLsbD (widthBits t - 1) = (x &&& packMask t).toNat.testBit (widthBits t - 1) from rfl,
      toNat_and_packMask, Nat.testBit_mod_two_pow]
    simp [hn]
  have eqv : ∀ x y : Word, x = y ↔ x.toNat = y.toNat := fun x y => BitVec.toNat_inj.symm
  have pm : (packMask t).toNat = 2 ^ widthBits t - 1 := toNat_ofNat_two_pow_sub_one (by omega)
  have mm : (magMask t).toNat = 2 ^ (widthBits t - 1) - 1 := toNat_ofNat_two_pow_sub_one (by omega)
  cases sa <;> cases sb <;>
    simp [packEq, packedEqual, bit, eqv, pm, mm, Nat.and_two_pow_sub_one_eq_mod, Nat.mod_mod_of_dvd _ hd]

/-! ### Construction and conversion (41_packed_int.md R166) -/

/-- One more bit of a remainder. -/
theorem mod_two_pow_succ_testBit (x k : Nat) : x % 2 ^ (k + 1) = x % 2 ^ k + 2 ^ k * (x.testBit k).toNat := by
  rw [Nat.toNat_testBit, Nat.mod_pow_succ]

/-- The sign bit of a magnitude, and of a magnitude with the sign bit set. -/
theorem sign_bit {m r : Nat} (hr : r < 2 ^ m) : r.testBit m = false ∧ (2 ^ m + r).testBit m = true := by
  refine ⟨Nat.testBit_lt_two_pow hr, ?_⟩
  rw [Nat.testBit_two_pow_add_eq, Nat.testBit_lt_two_pow hr]; rfl

/-- An unsigned type gives its source back modulo 2^N. -/
theorem logical_pattern_unsigned (n : Nat) (raw : Int) : logicalInt n .unsigned (patternNat n .unsigned raw) = raw % 2 ^ n := by
  have h0 := Int.emod_nonneg raw (b := 2 ^ n) (by positivity)
  have h1 := Int.emod_lt_of_pos raw (b := 2 ^ n) (by positivity)
  have hp : ((2 ^ n : Nat) : Int) = 2 ^ n := by push_cast; rfl
  simp only [logicalInt, patternNat]
  rw [Nat.mod_eq_of_lt (by omega)]; omega

/-- A signed type gives back the sign and the magnitude modulo 2^(N-1). -/
theorem logical_pattern_signed {n : Nat} (raw : Int) :
    logicalInt n .signed (patternNat n .signed raw) = raw.sign * ((raw.natAbs % 2 ^ (n - 1) : Nat) : Int) := by
  have hlt := Nat.mod_lt raw.natAbs (Nat.two_pow_pos (n - 1))
  rcases lt_trichotomy raw 0 with h | h | h
  · rw [patternNat_neg h, Int.sign_eq_neg_one_of_neg h]
    simp only [logicalInt, (sign_bit hlt).2, if_true, Nat.add_mod_left, Nat.mod_mod]; omega
  · subst h; simp [logicalInt, patternNat]
  · rw [patternNat_nonneg h.le, Int.sign_eq_one_of_pos h]
    simp only [logicalInt, (sign_bit hlt).1, Nat.mod_mod]; simp

/-- A value in a type's range is given back. -/
theorem logical_pattern_inRange {n : Nat} (sg : Sign) (raw : Int) (h : inRange n sg raw) :
    logicalInt n sg (patternNat n sg raw) = raw := by
  cases sg with
  | unsigned =>
    simp only [inRange] at h
    rw [logical_pattern_unsigned, Int.emod_eq_of_lt h.1 (by omega)]
  | signed =>
    simp only [inRange] at h
    have hp : ((2 ^ (n - 1) : Nat) : Int) = 2 ^ (n - 1) := by push_cast; rfl
    rw [logical_pattern_signed, Nat.mod_eq_of_lt (by omega), Int.sign_mul_natAbs]

/-- The source integer as a word is the word it was read from. -/
theorem ofInt_rawInt (sg : Sign) (a : Word) : BitVec.ofInt 64 (rawInt sg a) = a := by
  cases sg with
  | unsigned => simp only [rawInt]; rw [BitVec.ofInt_natCast, BitVec.ofNat_toNat, BitVec.setWidth_eq]
  | signed => simp only [rawInt]; exact BitVec.ofInt_toInt

/-- A logical value fits in N bits and a sign. -/
theorem logicalInt_bounds {n : Nat} (hn : 0 < n) (sg : Sign) (p : Nat) : -2 ^ n < logicalInt n sg p ∧ logicalInt n sg p < 2 ^ n := by
  have hp : ((2 ^ n : Nat) : Int) = 2 ^ n := by push_cast; rfl
  have hlt := Nat.mod_lt p (Nat.two_pow_pos n)
  have hlt2 := Nat.mod_lt p (Nat.two_pow_pos (n - 1))
  have : 2 ^ (n - 1) ≤ 2 ^ n := Nat.pow_le_pow_right (by decide) (by omega)
  cases sg with
  | unsigned => simp only [logicalInt]; omega
  | signed => simp only [logicalInt]; split <;> omega

/-- Converting a pattern and constructing it again gives it back, but for -0. -/
theorem pattern_logical {n : Nat} (hn : 0 < n) (sg : Sign) (p : Nat) :
    patternNat n sg (logicalInt n sg p) = if sg = .signed ∧ p % 2 ^ n = 2 ^ (n - 1) then 0 else p % 2 ^ n := by
  have hp : ((2 ^ n : Nat) : Int) = 2 ^ n := by push_cast; rfl
  cases sg with
  | unsigned =>
    simp only [logicalInt, patternNat, reduceCtorEq, false_and, if_false]
    rw [← hp, ← Int.natCast_emod, Int.toNat_natCast, Nat.mod_mod]
  | signed =>
    obtain ⟨m, rfl⟩ : ∃ m, n = m + 1 := ⟨n - 1, by omega⟩
    simp only [Nat.add_sub_cancel, true_and]
    have hlt := Nat.mod_lt p (Nat.two_pow_pos m)
    have hsplit : p % 2 ^ (m + 1) = p % 2 ^ m + 2 ^ m * (p.testBit m).toNat := mod_two_pow_succ_testBit p m
    simp only [logicalInt, Nat.add_sub_cancel]
    cases hb : p.testBit m with
    | true =>
      rw [hb] at hsplit
      simp only [Bool.toNat_true, Nat.mul_one] at hsplit
      rw [hsplit]
      by_cases hz : p % 2 ^ m = 0
      · rw [if_pos rfl, if_pos (by omega), hz]; simp [patternNat]
      · rw [if_pos rfl, if_neg (by omega), patternNat_neg (by omega), Nat.add_sub_cancel, Int.natAbs_neg, Int.natAbs_natCast, Nat.mod_mod]; omega
    | false =>
      rw [hb] at hsplit
      simp only [Bool.toNat_false, Nat.mul_zero, Nat.add_zero] at hsplit
      rw [hsplit, if_neg (by simp), if_neg (by omega), patternNat_nonneg (by omega), Nat.add_sub_cancel, Int.natAbs_natCast, Nat.mod_mod]

/-- A small signed value is read back from its word. -/
theorem rawInt_ofInt {n : Nat} (hn : n ≤ 48) {v : Int} (h1 : -2 ^ n < v) (h2 : v < 2 ^ n) : rawInt .signed (BitVec.ofInt 64 v) = v := by
  have h3 : (2 ^ n : Int) ≤ 2 ^ 48 := pow_le_pow_right₀ (by norm_num) hn
  simp only [rawInt]
  rw [BitVec.toInt_ofInt, Int.bmod_eq_of_le] <;> omega

/-! ### Exp-Golomb codes -/

theorem downBits_eq (x k : Nat) : downBits x k = (List.range k).map fun j => x.testBit (k - 1 - j) := by
  induction k with
  | zero => rfl
  | succ k ih =>
    rw [downBits, ih, List.range_succ_eq_map, List.map_cons, List.map_map]
    simp only [Nat.add_sub_cancel, Nat.sub_zero, List.cons.injEq, true_and]
    refine List.map_congr_left fun j _ => ?_
    simp only [Function.comp, Nat.succ_eq_add_one]
    congr 1; omega

theorem downBits_add {x k : Nat} (hx : x < 2 ^ k) (m : Nat) :
    downBits x (m + k) = List.replicate m false ++ downBits x k := by
  induction m with
  | zero => simp
  | succ m ih =>
    rw [Nat.succ_add, downBits, ih, List.replicate_succ, List.cons_append, Nat.testBit_lt_two_pow]
    exact lt_of_lt_of_le hx (Nat.pow_le_pow_right (by decide) (by omega))

/-- `emit_ue` writes the bits of the code, and returns its length. -/
theorem ueCode_eq (style : GolombStyle) (c : Nat) : ueCode style c = codeBits style c := by
  cases style with
  | compat => simp only [ueCode, codeBits, codeLength, downBits_eq]
  | standard =>
    simp only [ueCode, codeBits, codeLength, ← downBits_eq]
    rw [show 2 * (c + 1).log2 + 1 = (c + 1).log2 + ((c + 1).log2 + 1) by omega, downBits_add Nat.lt_log2_self]

theorem ueWritten_eq (style : GolombStyle) (c : Nat) : ueWritten style c = codeLength style c := by cases style <;> rfl

theorem codeBits_length (style : GolombStyle) (c : Nat) : (codeBits style c).length = codeLength style c := by
  simp [codeBits]

theorem seToCode_eq (v : Int) : seToCode v = codeOfSigned v := by unfold seToCode codeOfSigned; split <;> rfl

theorem codeToSe_eq (c : Nat) : codeToSe c = signedOfCode c := by
  unfold codeToSe signedOfCode
  split
  · push_cast; omega
  · push_cast; omega

/-- The se mapping is undone by its inverse (R207). -/
theorem signedOfCode_codeOfSigned (v : Int) : signedOfCode (codeOfSigned v) = v := by
  unfold signedOfCode codeOfSigned; split <;> split <;> omega

theorem low32_eq (a : Word) : low32 a = a.toNat % 2 ^ 32 := by simp [low32, BitVec.toNat_setWidth]

/-- The value of a suffix, most significant bit first. -/
theorem suffixValue_eq (f : Nat → Bool) (k : Nat) :
    suffixValue ((List.range k).map f) =
      2 ^ k + ((List.range k).map fun j => if f j then 2 ^ (k - 1 - j) else 0).sum := by
  induction k with
  | zero => rfl
  | succ k ih =>
    have hf : suffixValue ((List.range (k + 1)).map f) = 2 * suffixValue ((List.range k).map f) + (f k).toNat := by
      simp [suffixValue, List.range_succ, List.foldl_append]
    rw [hf, ih, List.range_succ, List.map_append, List.sum_append, Nat.mul_add, ← List.sum_map_mul_left, Nat.pow_succ,
      Nat.mul_comm 2 (2 ^ k), Nat.add_assoc]
    congr 1
    congr 1
    · congr 1
      refine List.map_congr_left fun j hj => ?_
      rw [List.mem_range] at hj
      split
      · rw [← Nat.pow_succ']; congr 1; omega
      · rfl
    · simp only [List.map_cons, List.map_nil, List.sum_singleton, Nat.add_sub_cancel, Nat.sub_self]
      cases f k <;> rfl

/-- A code of the domain is at most 65 bits long (R202, R206). -/
theorem codeLength_le {style : GolombStyle} {c : Nat} (hc : c ≤ 2 ^ 32) : codeLength style c ≤ 65 := by
  have hx1 : 2 ^ (c + 1).log2 ≤ c + 1 := Nat.log2_self_le (by omega)
  have : (c + 1).log2 ≤ 32 := by
    by_contra hcon
    have : 2 ^ 33 ≤ 2 ^ (c + 1).log2 := Nat.pow_le_pow_right (by decide) (by omega)
    omega
  cases style <;> simp only [codeLength] <;> omega

/-- The se mapping stays inside the code numbers of the domain (R207). -/
theorem codeOfSigned_le (x : BitVec 32) : codeOfSigned x.toInt ≤ 2 ^ 32 := by
  have h1 := BitVec.toInt_lt (x := x); have h2 := BitVec.le_toInt (x := x)
  unfold codeOfSigned; split <;> omega

end Sys2Proof.Machine
end

