-- ==== Sys2Proof/Laws/Memory.lean ====
section
/-! SUPPORT. The laws of the memory in its canonical form: a read after a write, and that every operation keeps the
form (spec/20_memory.md R56). -/

namespace Sys2Proof.Machine

@[simp] theorem Memory.read_nil (a : Nat) : Memory.read [] a = 0#8 := rfl

theorem Memory.read_cons (c : Host.Cell) (rest : Memory) (a : Nat) :
    Memory.read (c :: rest) a = if c.1 = a then c.2 else Memory.read rest a := rfl

/-- An address below every listed one is not listed. -/
theorem Memory.read_eq_zero_of_not_listed (m : Memory) (a : Nat) (h : ∀ c ∈ m, c.1 ≠ a) : Memory.read m a = 0#8 := by
  induction m with
  | nil => rfl
  | cons c rest ih =>
    simp only [Memory.read_cons, List.mem_cons, forall_eq_or_imp] at *
    rw [if_neg h.1, ih h.2]

theorem Memory.wf_nil : Memory.wf [] := by simp [Memory.wf]

theorem Memory.wf_cons (c : Host.Cell) (rest : Memory) :
    Memory.wf (c :: rest) ↔ (∀ x ∈ rest, c.1 < x.1) ∧ c.2 ≠ 0#8 ∧ Memory.wf rest := by
  simp only [Memory.wf, List.pairwise_cons, List.mem_cons, forall_eq_or_imp]
  tauto

/-- The listed bytes after a write are the old ones and the written one. -/
theorem Memory.mem_write {m : Memory} {a : Nat} {b : Byte} {c : Host.Cell} (h : c ∈ Memory.write m a b) :
    c ∈ m ∨ c = (a, b) := by
  induction m with
  | nil =>
    simp only [Memory.write] at h
    split at h <;> simp_all
  | cons d rest ih =>
    simp only [Memory.write] at h
    split at h
    · rcases List.mem_cons.1 h with h | h
      · exact .inl (by simp [h])
      · exact (ih h).imp (by simp +contextual) id
    · split at h <;> split at h <;> simp_all <;> tauto

theorem Memory.write_wf {m : Memory} (hm : m.wf) (a : Nat) (b : Byte) : (Memory.write m a b).wf := by
  induction m with
  | nil =>
    simp only [Memory.write]
    split <;> simp_all [Memory.wf]
  | cons c rest ih =>
    obtain ⟨hlt, hne, hrest⟩ := (Memory.wf_cons c rest).1 hm
    simp only [Memory.write]
    split
    · refine (Memory.wf_cons _ _).2 ⟨fun x hx => ?_, hne, ih hrest⟩
      rcases Memory.mem_write hx with hx | rfl
      · exact hlt x hx
      · assumption
    · split
      · split
        · exact hrest
        · exact (Memory.wf_cons _ _).2 ⟨fun x hx => by have := hlt x hx; simp only; omega, ‹_›, hrest⟩
      · split
        · exact hm
        · refine (Memory.wf_cons _ _).2 ⟨fun x hx => ?_, ‹_›, hm⟩
          rcases List.mem_cons.1 hx with rfl | hx
          · simp only; omega
          · have := hlt x hx; simp only; omega

/-- A read after a write: the written byte at its address, the old byte everywhere else. -/
theorem Memory.read_write {m : Memory} (hm : m.wf) (a : Nat) (b : Byte) (x : Nat) :
    Memory.read (Memory.write m a b) x = if x = a then b else Memory.read m x := by
  induction m with
  | nil =>
    simp only [Memory.write, Memory.read_nil]
    split
    · simp_all
    · simp only [Memory.read_cons, Memory.read_nil, eq_comm (a := a)]
  | cons c rest ih =>
    obtain ⟨hlt, hne, hrest⟩ := (Memory.wf_cons c rest).1 hm
    have notIn : ∀ y, y ≤ c.1 → Memory.read rest y = 0#8 := fun y hy =>
      Memory.read_eq_zero_of_not_listed rest y fun z hz => by have := hlt z hz; omega
    simp only [Memory.write]
    split
    · rw [Memory.read_cons, Memory.read_cons, ih hrest]
      split <;> split <;> first | rfl | omega
    · split
      · split
        · rw [Memory.read_cons]
          by_cases hx : x = a
          · subst hx; rw [if_pos rfl, notIn x (by omega)]; simp_all
          · rw [if_neg hx, if_neg (by omega)]
        · rw [Memory.read_cons, Memory.read_cons]
          by_cases hx : x = a
          · subst hx; simp
          · rw [if_neg hx, if_neg (by simp only; omega), if_neg (by omega)]
      · split
        · by_cases hx : x = a
          · subst hx
            rw [if_pos rfl, Memory.read_cons, if_neg (by omega), notIn x (by omega)]; simp_all
          · rw [if_neg hx]
        · rw [Memory.read_cons]
          by_cases hx : x = a
          · subst hx; simp
          · rw [if_neg hx, if_neg (by simp only; omega)]

theorem Memory.filter_wf {m : Memory} (hm : m.wf) (p : Host.Cell → Bool) : Memory.wf (m.filter p) :=
  ⟨hm.1.filter _, fun c hc => hm.2 c (List.mem_filter.1 hc).1⟩

theorem Memory.zeroFill_wf {m : Memory} (hm : m.wf) (lo hi : Nat) : (m.zeroFill lo hi).wf := Memory.filter_wf hm _

theorem Memory.truncate_wf {m : Memory} (hm : m.wf) (len : Nat) : (m.truncate len).wf := Memory.filter_wf hm _

/-- A filter on addresses keeps or drops the byte of an address. -/
theorem Memory.read_filter (m : Memory) (p : Nat → Bool) (x : Nat) :
    Memory.read (m.filter fun c => p c.1) x = if p x then Memory.read m x else 0#8 := by
  induction m with
  | nil => simp
  | cons c rest ih =>
    rw [List.filter_cons]
    by_cases hc : c.1 = x
    · subst hc
      by_cases hp : p c.1
      · simp [hp, Memory.read_cons]
      · rw [if_neg hp, ih]; simp [hp]
    · split <;> simp [Memory.read_cons, hc, ih]

theorem Memory.read_zeroFill (m : Memory) (lo hi x : Nat) :
    Memory.read (m.zeroFill lo hi) x = if lo ≤ x ∧ x < hi then 0#8 else Memory.read m x := by
  rw [Memory.zeroFill, Memory.read_filter m (fun n => n < lo || hi ≤ n)]
  by_cases h : lo ≤ x ∧ x < hi
  · rw [if_pos h, if_neg]; simp; omega
  · rw [if_neg h, if_pos]; simp; omega

theorem Memory.read_truncate (m : Memory) (len x : Nat) :
    Memory.read (m.truncate len) x = if x < len then Memory.read m x else 0#8 := by
  rw [Memory.truncate, Memory.read_filter m (fun n => n < len)]
  simp

/-- Two memories in canonical form that read alike are equal data. -/
theorem Memory.ext {m m' : Memory} (hm : m.wf) (hm' : m'.wf) (h : ∀ a, Memory.read m a = Memory.read m' a) : m = m' := by
  induction m generalizing m' with
  | nil =>
    cases m' with
    | nil => rfl
    | cons c rest =>
      have := h c.1
      simp only [Memory.read_nil, Memory.read_cons, if_pos] at this
      exact absurd this.symm ((Memory.wf_cons c rest).1 hm').2.1
  | cons c rest ih =>
    obtain ⟨hlt, hne, hrest⟩ := (Memory.wf_cons c rest).1 hm
    cases m' with
    | nil =>
      have := h c.1
      simp only [Memory.read_nil, Memory.read_cons, if_pos] at this
      exact absurd this hne
    | cons d rest' =>
      obtain ⟨hlt', hne', hrest'⟩ := (Memory.wf_cons d rest').1 hm'
      have below : ∀ {e : Host.Cell} {r : Memory} {y : Nat}, (∀ z ∈ r, e.1 < z.1) → y ≤ e.1 → Memory.read r y = 0#8 :=
        fun hz hy => Memory.read_eq_zero_of_not_listed _ _ fun z hzm => by have := hz z hzm; omega
      have hcd : c.1 = d.1 := by
        rcases Nat.lt_trichotomy c.1 d.1 with hl | he | hl
        · have := h c.1
          rw [Memory.read_cons, if_pos rfl, Memory.read_cons, if_neg (by omega), below hlt' (by omega)] at this
          exact absurd this hne
        · exact he
        · have := h d.1
          rw [Memory.read_cons, if_neg (by omega), below hlt (by omega), Memory.read_cons, if_pos rfl] at this
          exact absurd this.symm hne'
      have hval : c.2 = d.2 := by
        have := h c.1
        rwa [Memory.read_cons, if_pos rfl, Memory.read_cons, if_pos hcd.symm] at this
      have hr : rest = rest' := ih hrest hrest' fun a => by
        by_cases ha : a ≤ c.1
        · rw [below hlt ha, below hlt' (by omega)]
        · have := h a
          rwa [Memory.read_cons, if_neg (by omega), Memory.read_cons, if_neg (by omega)] at this
      rw [hr, Prod.ext hcd hval]

end Sys2Proof.Machine
end

