-- ==== Sys2Proof/Laws/State.lean ====
section
/-! SUPPORT. What each named update of the state does to each field, by definition. -/

namespace Sys2Proof.Machine

variable (s : State) (e : Raise) (v v' : Word) (st : Stream)

@[simp] theorem State.takeError_err : (s.takeError e).err = e.code := rfl
@[simp] theorem State.takeError_bitsLeft : (s.takeError e).bitsLeft = e.bitsLeft := rfl
@[simp] theorem State.takeError_stream : (s.takeError e).stream = s.stream := rfl
@[simp] theorem State.takeError_cfg : (s.takeError e).cfg = s.cfg := rfl
@[simp] theorem State.takeError_au : (s.takeError e).au = s.au := rfl
@[simp] theorem State.takeError_gmode : (s.takeError e).gmode = s.gmode := rfl
@[simp] theorem State.takeError_arg0 : (s.takeError e).arg0 = s.arg0 := rfl
@[simp] theorem State.takeError_arg1 : (s.takeError e).arg1 = s.arg1 := rfl
@[simp] theorem State.takeError_res0 : (s.takeError e).res0 = s.res0 := rfl
@[simp] theorem State.takeError_res1 : (s.takeError e).res1 = s.res1 := rfl
@[simp] theorem State.takeError_host : (s.takeError e).host = s.host := rfl
@[simp] theorem State.takeError_hostData : (s.takeError e).hostData = s.hostData := rfl

@[simp] theorem State.clearStatus_err : s.clearStatus.err = .ok := rfl
@[simp] theorem State.clearStatus_bitsLeft : s.clearStatus.bitsLeft = 0#4 := rfl
@[simp] theorem State.clearStatus_stream : s.clearStatus.stream = s.stream := rfl
@[simp] theorem State.clearStatus_cfg : s.clearStatus.cfg = s.cfg := rfl
@[simp] theorem State.clearStatus_au : s.clearStatus.au = s.au := rfl
@[simp] theorem State.clearStatus_gmode : s.clearStatus.gmode = s.gmode := rfl
@[simp] theorem State.clearStatus_arg0 : s.clearStatus.arg0 = s.arg0 := rfl
@[simp] theorem State.clearStatus_arg1 : s.clearStatus.arg1 = s.arg1 := rfl
@[simp] theorem State.clearStatus_res0 : s.clearStatus.res0 = s.res0 := rfl
@[simp] theorem State.clearStatus_res1 : s.clearStatus.res1 = s.res1 := rfl
@[simp] theorem State.clearStatus_host : s.clearStatus.host = s.host := rfl
@[simp] theorem State.clearStatus_hostData : s.clearStatus.hostData = s.hostData := rfl

@[simp] theorem State.setRes0_res0 : (s.setRes0 v).res0 = v := rfl
@[simp] theorem State.setRes0_res1 : (s.setRes0 v).res1 = s.res1 := rfl
@[simp] theorem State.setRes0_stream : (s.setRes0 v).stream = s.stream := rfl
@[simp] theorem State.setRes1_res0 : (s.setRes1 v).res0 = s.res0 := rfl
@[simp] theorem State.setRes1_res1 : (s.setRes1 v).res1 = v := rfl
@[simp] theorem State.setRes1_stream : (s.setRes1 v).stream = s.stream := rfl
@[simp] theorem State.setRes_res0 : (s.setRes v v').res0 = v := rfl
@[simp] theorem State.setRes_res1 : (s.setRes v v').res1 = v' := rfl
@[simp] theorem State.setRes_stream : (s.setRes v v').stream = s.stream := rfl
@[simp] theorem noResult_eq {α : Type} (a : α) : noResult a s = s := rfl

@[simp] theorem State.answerHost_hostData : (s.answerHost v).hostData = v := rfl
@[simp] theorem State.answerHost_stream : (s.answerHost v).stream = s.stream := rfl
@[simp] theorem State.answerHost_cfg : (s.answerHost v).cfg = s.cfg := rfl
@[simp] theorem State.answerHost_err : (s.answerHost v).err = s.err := rfl
@[simp] theorem State.answerHost_bitsLeft : (s.answerHost v).bitsLeft = s.bitsLeft := rfl

@[simp] theorem State.writeCtrl_au : (s.writeCtrl v).au = v.getLsbD 0 := rfl
@[simp] theorem State.writeCtrl_gmode : (s.writeCtrl v).gmode = GolombStyle.ofBit (v.getLsbD 1) := rfl
@[simp] theorem State.writeCtrl_stream : (s.writeCtrl v).stream = s.stream := rfl

@[simp] theorem State.resetEngine_cfg : s.resetEngine.cfg = s.cfg := rfl
@[simp] theorem State.resetEngine_au : s.resetEngine.au = s.cfg.initAu := rfl
@[simp] theorem State.resetEngine_host : s.resetEngine.host = s.host := rfl
@[simp] theorem State.resetEngine_stream : s.resetEngine.stream = Stream.resetOver s.stream.mem s.stream.len := rfl

@[simp] theorem State.withFetchWord_host (n w : Nat) :
    (s.withFetchWord n w).host = cmdWrite (w % 2 ^ n) :: s.host := rfl
@[simp] theorem State.withFetchWord_stream (n w : Nat) : (s.withFetchWord n w).stream = s.stream := rfl

end Sys2Proof.Machine
end

