-- ==== Sys2Proof/Laws/Ops.lean ====
section
/-! SUPPORT. What the cursor micro-operations can do, said once each (spec/40_cursor.md R111 to R116). -/

namespace Sys2Proof.Machine

/-! ### Sequencing -/

@[simp] theorem Res.bind_ok {α β : Type} (a : α) (st : Stream) (f : α → Stream → Res β) :
    (Res.ok a st).bind f = f a st := rfl
@[simp] theorem Res.bind_raise {α β : Type} (e : Raise) (f : α → Stream → Res β) : (Res.raise e).bind f = .raise e := rfl
@[simp] theorem Res.bind_stuck {α β : Type} (e : Fault) (f : α → Stream → Res β) : (Res.stuck e).bind f = .stuck e := rfl
@[simp] theorem Res.map_ok {α β : Type} (g : α → β) (a : α) (st : Stream) : (Res.ok a st).map g = .ok (g a) st := rfl
@[simp] theorem Res.map_raise {α β : Type} (g : α → β) (e : Raise) : (Res.raise e).map g = .raise e := rfl
@[simp] theorem Res.map_stuck {α β : Type} (g : α → β) (e : Fault) : (Res.stuck e).map g = .stuck e := rfl

theorem Res.bind_eq_ok {α β : Type} {r : Res α} {f : α → Stream → Res β} {b : β} {st' : Stream} :
    r.bind f = .ok b st' ↔ ∃ a st, r = .ok a st ∧ f a st = .ok b st' := by
  cases r <;> simp

theorem Res.bind_eq_raise {α β : Type} {r : Res α} {f : α → Stream → Res β} {e : Raise} :
    r.bind f = .raise e ↔ r = .raise e ∨ ∃ a st, r = .ok a st ∧ f a st = .raise e := by
  cases r <;> simp

theorem Res.bind_eq_stuck {α β : Type} {r : Res α} {f : α → Stream → Res β} {e : Fault} :
    r.bind f = .stuck e ↔ r = .stuck e ∨ ∃ a st, r = .ok a st ∧ f a st = .stuck e := by
  cases r <;> simp

/-! ### Positions -/

theorem Stream.bitOff_lt (st : Stream) : st.bitOff.toNat < 8 := st.bitOff.isLt

theorem Stream.pos_div (st : Stream) : st.pos / 8 = st.bytePos.toNat := by
  have := st.bitOff_lt; unfold Stream.pos; omega

theorem Stream.pos_mod (st : Stream) : st.pos % 8 = st.bitOff.toNat := by
  have := st.bitOff_lt; unfold Stream.pos; omega

theorem BitOff.eq_zero_iff (o : BitOff) : o = 0#3 ↔ o.toNat = 0 := by
  constructor
  · rintro rfl; rfl
  · intro h; exact BitVec.eq_of_toNat_eq (by simpa using h)

theorem BytePos.eq_iff (a b : BytePos) : a = b ↔ a.toNat = b.toNat := BitVec.toNat_inj.symm

/-! ### The bytes of the store -/

theorem Stream.byte?_of_lt {st : Stream} {a : Nat} (h : a < st.len) : st.byte? a = some (st.mem.read a) := if_pos h

theorem Stream.byte?_of_ge {st : Stream} {a : Nat} (h : st.len ≤ a) : st.byte? a = none := if_neg (by omega)

/-- The bytes and the length decide the store of a stream that meets the invariant. -/
theorem Stream.byte?_congr {st st' : Stream} (hm : st'.mem = st.mem) (hl : st'.len = st.len) : st'.byte? = st.byte? := by
  funext a; simp only [Stream.byte?, hm, hl]

@[simp] theorem Stream.store_len (st : Stream) (a : Nat) (b : Byte) : (st.store a b).len = max st.len (a + 1) := rfl
@[simp] theorem Stream.store_storePos (st : Stream) (a : Nat) (b : Byte) :
    (st.store a b).storePos = BitVec.ofNat 61 (a + 1) := rfl
@[simp] theorem Stream.store_bytePos (st : Stream) (a : Nat) (b : Byte) : (st.store a b).bytePos = st.bytePos := rfl
@[simp] theorem Stream.store_bitOff (st : Stream) (a : Nat) (b : Byte) : (st.store a b).bitOff = st.bitOff := rfl
@[simp] theorem Stream.store_pend (st : Stream) (a : Nat) (b : Byte) : (st.store a b).pend = st.pend := rfl
@[simp] theorem Stream.store_hpw (st : Stream) (a : Nat) (b : Byte) : (st.store a b).hpw = st.hpw := rfl

@[simp] theorem Stream.latch_bytePos (st : Stream) : st.latch.bytePos = st.bytePos := rfl
@[simp] theorem Stream.latch_bitOff (st : Stream) : st.latch.bitOff = st.bitOff := rfl
@[simp] theorem Stream.latch_pend (st : Stream) : st.latch.pend = st.mem.read st.bytePos.toNat := rfl
@[simp] theorem Stream.latch_hpw (st : Stream) : st.latch.hpw = st.hpw := rfl
@[simp] theorem Stream.latch_mem (st : Stream) : st.latch.mem = st.mem := rfl
@[simp] theorem Stream.latch_len (st : Stream) : st.latch.len = st.len := rfl
@[simp] theorem Stream.latch_storePos (st : Stream) :
    st.latch.storePos = BitVec.ofNat 61 (st.bytePos.toNat + 1) := rfl

@[simp] theorem Stream.atNext_bitOff (st : Stream) : st.atNext.bitOff = 0#3 := rfl
@[simp] theorem Stream.atNext_pend (st : Stream) : st.atNext.pend = 0#8 := rfl
@[simp] theorem Stream.atNext_hpw (st : Stream) : st.atNext.hpw = false := rfl
@[simp] theorem Stream.atNext_mem (st : Stream) : st.atNext.mem = st.mem := rfl
@[simp] theorem Stream.atNext_len (st : Stream) : st.atNext.len = st.len := rfl
@[simp] theorem Stream.atNext_storePos (st : Stream) : st.atNext.storePos = st.storePos := rfl

/-- MemWrite replaces one byte, fills the gap below it with 0 and grows the store to it (20_memory.md R56). -/
theorem Stream.byte?_store {st : Stream} (hm : st.mem.wf) (a : Nat) (b : Byte) (x : Nat) :
    (st.store a b).byte? x =
      if x = a then some b else if x < st.len then st.byte? x else if x < a then some 0#8 else none := by
  have hz : (if st.len < a then st.mem.zeroFill st.len a else st.mem).wf := by
    split
    · exact Memory.zeroFill_wf hm _ _
    · exact hm
  have hr := Memory.read_write hz a b x
  by_cases hx : x = a
  · subst hx
    rw [if_pos rfl] at hr ⊢
    rw [Stream.byte?_of_lt (by rw [Stream.store_len]; omega)]
    exact congrArg some hr
  · rw [if_neg hx] at hr ⊢
    by_cases hl : x < st.len
    · rw [if_pos hl, Stream.byte?_of_lt (by rw [Stream.store_len]; omega), Stream.byte?_of_lt hl]
      refine congrArg some (hr.trans ?_)
      split
      · rw [Memory.read_zeroFill, if_neg (by omega)]
      · rfl
    · rw [if_neg hl]
      by_cases hxa : x < a
      · rw [if_pos hxa, Stream.byte?_of_lt (by rw [Stream.store_len]; omega)]
        refine congrArg some (hr.trans ?_)
        rw [if_pos (by omega), Memory.read_zeroFill, if_pos (by omega)]
      · rw [if_neg hxa, Stream.byte?_of_ge (by rw [Stream.store_len]; omega)]

theorem Stream.store_Inv {cap a : Nat} {b : Byte} {st : Stream} (h : st.Inv cap) (ha : a < cap) :
    (st.store a b).Inv cap where
  aligned := h.aligned
  memWf := by
    apply Memory.write_wf
    split
    · exact Memory.zeroFill_wf h.memWf _ _
    · exact h.memWf
  inStore c hc := by
    have : c.1 < st.len ∨ c.1 = a := by
      rcases Memory.mem_write hc with hc | rfl
      · refine .inl (h.inStore c ?_)
        split at hc
        · exact (List.mem_filter.1 hc).1
        · exact hc
      · exact .inr rfl
    simp only [Stream.store]; omega
  lenLe := by have := h.lenLe; simp only [Stream.store]; omega

/-! ### Commit, the next byte, advance -/

theorem Stream.memWrite_of_lt {cap a : Nat} (h : a < cap) (b : Byte) (st : Stream) :
    st.memWrite cap a b = .ok () (st.store a b) := if_neg (by omega)

theorem Stream.memWrite_of_ge {cap a : Nat} (h : cap ≤ a) (b : Byte) (st : Stream) :
    st.memWrite cap a b = .stuck .storeFull := if_pos h

theorem Stream.nextByte_of_lt {st : Stream} (h : st.bytePos.toNat + 1 < 2 ^ 61) : st.nextByte = .ok () st.atNext :=
  if_pos h

theorem Stream.atNext_bytePos {st : Stream} (h : st.bytePos.toNat + 1 < 2 ^ 61) :
    st.atNext.bytePos.toNat = st.bytePos.toNat + 1 := by
  simp only [Stream.atNext, BitVec.toNat_add, BitVec.toNat_ofNat]; omega

@[simp] theorem Stream.atNext_byte? (st : Stream) : st.atNext.byte? = st.byte? := Stream.byte?_congr rfl rfl

theorem Stream.atNext_Inv {cap : Nat} {st : Stream} (hm : st.mem.wf) (hs : ∀ c ∈ st.mem, c.1 < st.len)
    (hl : st.len ≤ cap) : st.atNext.Inv cap :=
  ⟨fun _ => ⟨rfl, rfl⟩, hm, hs, hl⟩

/-- `advance` inside a byte only counts the bit. -/
theorem Stream.advance_inside (cap : Nat) {st : Stream} (h : st.bitOff ≠ 7#3) :
    st.advance cap = .ok () { st with bitOff := st.bitOff + 1 } := if_neg h

/-- `advance` past the last bit of a byte with pending bits commits it. -/
theorem Stream.advance_commit {cap : Nat} {st : Stream} (h : st.bitOff = 7#3) (hp : st.hpw = true)
    (ha : st.bytePos.toNat < cap) (hc : cap < 2 ^ 61) :
    st.advance cap = .ok () (st.store st.bytePos.toNat st.pend).atNext := by
  unfold Stream.advance Stream.commitIfPending
  rw [if_pos h, if_pos hp, Stream.memWrite_of_lt ha, Res.bind_ok, Stream.nextByte_of_lt (by simp only [Stream.store]; omega)]

/-- That commit is stuck at and above the capacity. -/
theorem Stream.advance_full {cap : Nat} {st : Stream} (h : st.bitOff = 7#3) (hp : st.hpw = true)
    (ha : cap ≤ st.bytePos.toNat) : st.advance cap = .stuck .storeFull := by
  unfold Stream.advance Stream.commitIfPending
  rw [if_pos h, if_pos hp, Stream.memWrite_of_ge ha, Res.bind_stuck]

/-- `advance` past the last bit of a byte with nothing pending moves on. -/
theorem Stream.advance_past {cap : Nat} {st : Stream} (h : st.bitOff = 7#3) (hp : st.hpw = false)
    (ha : st.bytePos.toNat + 1 < 2 ^ 61) : st.advance cap = .ok () st.atNext := by
  unfold Stream.advance Stream.commitIfPending
  rw [if_pos h, hp, if_neg (by simp), Res.bind_ok, Stream.nextByte_of_lt ha]

/-! ### The bit a write assigns (40_cursor.md R114) -/

theorem assignBit_getLsbD (p : Byte) (off : BitOff) (b : Bool) (i : Nat) :
    (assignBit p off b).getLsbD i = if i = off.toNat then b else p.getLsbD i := by
  have ho : off.toNat < 8 := off.isLt
  simp only [assignBit, BitVec.getLsbD_or, BitVec.getLsbD_and, BitVec.getLsbD_not, BitVec.getLsbD_shiftLeft,
    BitVec.getLsbD_setWidth, BitVec.getLsbD_ofBool, BitVec.getLsbD_one]
  by_cases hi : i = off.toNat
  · subst hi; simp [ho]
  · rw [if_neg hi]
    by_cases h8 : i < 8
    · by_cases hlt : i < off.toNat
      · simp [h8, hlt]
      · have : i - off.toNat ≠ 0 := by omega
        simp [h8, hlt, this]
    · simp [h8, BitVec.getLsbD_of_ge p i (by omega)]

/-- Bits BIT_OFF..7 of a padded byte are 0 (R115). -/
theorem zeroPadded_getLsbD (p : Byte) (off : BitOff) (i : Nat) :
    (zeroPadded p off).getLsbD i = (decide (i < off.toNat) && p.getLsbD i) := by
  have ho : off.toNat < 8 := off.isLt
  simp only [zeroPadded, BitVec.getLsbD_and, BitVec.getLsbD_ofNat]
  by_cases h8 : i < 8
  · rw [Nat.testBit_two_pow_sub_one]; simp [h8, Bool.and_comm]
  · rw [BitVec.getLsbD_of_ge p i (by omega)]; simp

end Sys2Proof.Machine
end

