-- ==== Sys2Proof/Laws/Write.lean ====
section
/-! SUPPORT. Everything `put_bit` of a list of bits can do: it leaves what `Stream.Wrote` says and keeps the invariant, or
it is stuck at a commit past the capacity (spec/40_cursor.md R111, R114; spec/20_memory.md R56). -/

namespace Sys2Proof.Machine

theorem Stream.bitOff_succ {st : Stream} (h : st.bitOff ≠ 7#3) : (st.bitOff + 1#3).toNat = st.bitOff.toNat + 1 := by
  have h1 := st.bitOff_lt
  have h2 : st.bitOff.toNat ≠ 7 := fun h7 => h (BitVec.eq_of_toNat_eq (by simpa using h7))
  rw [BitVec.toNat_add, BitVec.toNat_ofNat]
  omega

theorem Stream.bitAt_inside {st : Stream} (h : st.bitOff ≠ 0#3) {k : Nat} (hk : k / 8 = st.bytePos.toNat) :
    st.bitAt k = st.pend.getLsbD (k % 8) := if_pos ⟨h, hk⟩

theorem Stream.bitAt_outside {st : Stream} {k : Nat} (h : st.bitOff = 0#3 ∨ k / 8 ≠ st.bytePos.toNat) :
    st.bitAt k = ((st.byte? (k / 8)).getD 0#8).getLsbD (k % 8) :=
  if_neg fun hh => h.elim (fun h0 => hh.1 h0) fun h1 => h1 hh.2

/-- One bit written inside a byte. -/
theorem Stream.putBit_inside {cap : Nat} {st : Stream} (h : st.Inv cap) (h7 : st.bitOff ≠ 7#3) (b : Bool) :
    ∃ st', st.putBit cap b = .ok () st' ∧ st.Wrote [b] st' ∧ st'.Inv cap := by
  have hlt := st.bitOff_lt
  have hoff := Stream.bitOff_succ h7
  have hne : st.bitOff + 1#3 ≠ 0#3 := fun h0 => by rw [h0] at hoff; simp at hoff
  refine ⟨{ st with pend := assignBit st.pend st.bitOff b, hpw := true, bitOff := st.bitOff + 1#3 },
    Stream.advance_inside cap (st := { st with pend := assignBit st.pend st.bitOff b, hpw := true }) h7, ?_, ?_⟩
  · have hbyte : Stream.byte? { st with pend := assignBit st.pend st.bitOff b, hpw := true, bitOff := st.bitOff + 1#3 }
        = st.byte? := Stream.byte?_congr rfl rfl
    refine ⟨?_, ?_, ?_, ?_, ?_, ?_, ?_, ?_⟩
    · simp only [Stream.pos, hoff, List.length_singleton]; omega
    · intro i hi
      obtain rfl : i = 0 := by simpa using hi
      rw [Stream.bitAt_inside (by exact hne) (by simpa using st.pos_div)]
      simp [assignBit_getLsbD, Stream.pos_mod]
    · intro k hk
      by_cases hb : k / 8 = st.bytePos.toNat
      · have hkm : k % 8 < st.bitOff.toNat := by unfold Stream.pos at hk; omega
        have h0 : st.bitOff ≠ 0#3 := fun h0 => by rw [h0] at hkm; simp at hkm
        rw [Stream.bitAt_inside (by exact hne) (by exact hb), Stream.bitAt_inside h0 hb]
        simp only [assignBit_getLsbD]
        rw [if_neg (by omega)]
      · rw [Stream.bitAt_outside (.inr (by exact hb)), Stream.bitAt_outside (.inr hb), hbyte]
    · intro i hi h8
      simp only [hoff] at hi
      simp only [assignBit_getLsbD, decide_true, Bool.true_and]
      rw [if_neg (by omega)]
    · simp [hne]
    · simp
    · intro a _
      rw [hbyte]
      by_cases ha : a < st.len
      · rw [if_pos ha]
      · rw [if_neg ha, if_neg (by simpa using ha), Stream.byte?_of_ge (by omega)]
    · simp
  · exact ⟨fun h0 => absurd h0 hne, h.memWf, h.inStore, h.lenLe⟩

/-- The last bit of a byte written: the byte is committed. -/
theorem Stream.putBit_wrap {cap : Nat} {st : Stream} (h : st.Inv cap) (hc : cap < 2 ^ 61) (h7 : st.bitOff = 7#3)
    (hr : st.bytePos.toNat < cap) (b : Bool) :
    ∃ st', st.putBit cap b = .ok () st' ∧ st.Wrote [b] st' ∧ st'.Inv cap := by
  have h7' : st.bitOff.toNat = 7 := by rw [h7]; rfl
  set st0 : Stream := { st with pend := assignBit st.pend st.bitOff b, hpw := true } with hst0
  have hI0 : st0.Inv cap := ⟨fun h0 => absurd (h7.symm.trans h0) (by decide), h.memWf, h.inStore, h.lenLe⟩
  have hbyte0 : st0.byte? = st.byte? := Stream.byte?_congr rfl rfl
  have hpos' : (st0.store st.bytePos.toNat st0.pend).atNext.bytePos.toNat = st.bytePos.toNat + 1 :=
    Stream.atNext_bytePos (by simp only [Stream.store_bytePos]; exact (by omega : st.bytePos.toNat + 1 < 2 ^ 61))
  have hbyte : ∀ x, (st0.store st.bytePos.toNat st0.pend).atNext.byte? x =
      if x = st.bytePos.toNat then some st0.pend
      else if x < st.len then st.byte? x else if x < st.bytePos.toNat then some 0#8 else none := fun x => by
    rw [Stream.atNext_byte?, Stream.byte?_store hI0.memWf, hbyte0]
  have hbp : (st0.store st.bytePos.toNat st0.pend).atNext.bytePos ≠ st.bytePos := fun he => by
    rw [BytePos.eq_iff] at he; omega
  refine ⟨(st0.store st.bytePos.toNat st0.pend).atNext, Stream.advance_commit (st := st0) h7 rfl hr hc, ?_, ?_⟩
  · refine ⟨?_, ?_, ?_, ?_, ?_, ?_, ?_, ?_⟩
    · simp only [Stream.pos, hpos', List.length_singleton, Stream.atNext_bitOff]; simp; omega
    · intro i hi
      obtain rfl : i = 0 := by simpa using hi
      rw [Stream.bitAt_outside (.inl rfl), hbyte, Nat.add_zero, Stream.pos_div, Stream.pos_mod, if_pos rfl]
      simp [hst0, assignBit_getLsbD]
    · intro k hk
      rw [Stream.bitAt_outside (.inl rfl), hbyte]
      by_cases hb : k / 8 = st.bytePos.toNat
      · have hkm : k % 8 < st.bitOff.toNat := by unfold Stream.pos at hk; omega
        rw [if_pos hb, Stream.bitAt_inside (by rw [h7]; decide) hb]
        simp only [hst0, Option.getD_some, assignBit_getLsbD]
        rw [if_neg (by omega)]
      · rw [if_neg hb, Stream.bitAt_outside (.inr hb)]
        have hkb : k / 8 < st.bytePos.toNat := by unfold Stream.pos at hk; omega
        by_cases hl : k / 8 < st.len
        · rw [if_pos hl]
        · rw [if_neg hl, if_pos hkb, Stream.byte?_of_ge (by omega)]; rfl
    · intro i _ _
      simp [hbp]
    · simp
    · rw [if_neg hbp, hpos']; rfl
    · intro a ha
      rw [hpos'] at ha
      rw [hbyte, if_neg (by omega)]
      by_cases hl : a < st.len
      · rw [if_pos hl, if_pos hl]
      · rw [if_neg hl, if_neg hl]
        have hlen : (st0.store st.bytePos.toNat st0.pend).atNext.len = max st.len (st.bytePos.toNat + 1) := rfl
        rw [hlen]
        by_cases hb : a < st.bytePos.toNat
        · rw [if_pos hb, if_pos (by omega)]
        · rw [if_neg hb, if_neg (by omega)]
    · rw [if_neg hbp, BytePos.eq_iff, hpos']
      simp only [Stream.atNext_storePos, Stream.store_storePos, BitVec.toNat_ofNat]
      omega
  · have hs := Stream.store_Inv (b := st0.pend) hI0 hr
    exact Stream.atNext_Inv hs.memWf hs.inStore hs.lenLe

/-- `put_bit` where there is room for its bit. -/
theorem Stream.putBit_ok {cap : Nat} {st : Stream} (h : st.Inv cap) (hc : cap < 2 ^ 61) (hr : st.room cap 1) (b : Bool) :
    ∃ st', st.putBit cap b = .ok () st' ∧ st.Wrote [b] st' ∧ st'.Inv cap := by
  by_cases h7 : st.bitOff = 7#3
  · have h7' : st.bitOff.toNat = 7 := by rw [h7]; rfl
    exact Stream.putBit_wrap h hc h7 (by unfold Stream.room at hr; omega) b
  · exact Stream.putBit_inside h h7 b

/-- `put_bit` where there is none is stuck. -/
theorem Stream.putBit_full {cap : Nat} {st : Stream} (hr : ¬ st.room cap 1) (b : Bool) :
    st.putBit cap b = .stuck .storeFull := by
  have hlt := st.bitOff_lt
  have h7 : st.bitOff = 7#3 := by
    refine BitVec.eq_of_toNat_eq ?_
    unfold Stream.room at hr
    simp only [BitVec.toNat_ofNat]
    omega
  have h7' : st.bitOff.toNat = 7 := by rw [h7]; rfl
  exact Stream.advance_full (st := { st with pend := assignBit st.pend st.bitOff b, hpw := true }) h7 rfl
    (by unfold Stream.room at hr; simp only; omega)

/-- Writing nothing changes nothing. -/
theorem Stream.Wrote.nil {cap : Nat} {st : Stream} (h : st.Inv cap) : st.Wrote [] st := by
  refine ⟨by simp, fun i hi => by simp at hi, fun _ _ => rfl, fun i _ _ => by simp, ?_, by simp, fun a _ => ?_, by simp⟩
  · by_cases h0 : st.bitOff = 0#3
    · simp [h0, (h.aligned h0).2]
    · simp [h0]
  · by_cases ha : a < st.len
    · rw [if_pos ha]
    · rw [if_neg ha, if_neg ha, Stream.byte?_of_ge (by omega)]

/-- Writing a bit and then the rest. -/
theorem Stream.Wrote.cons {st st1 st2 : Stream} {b : Bool} {bs : List Bool} (w1 : st.Wrote [b] st1)
    (w2 : st1.Wrote bs st2) : st.Wrote (b :: bs) st2 := by
  have p1 := w1.pos
  have p2 := w2.pos
  simp only [List.length_singleton] at p1
  have e0 := st.pos_div
  have e1 := st1.pos_div
  have e2 := st2.pos_div
  have o1 := st1.pos_mod
  have o2 := st2.pos_mod
  have hm01 : st.bytePos.toNat ≤ st1.bytePos.toNat := by omega
  have hm12 : st1.bytePos.toNat ≤ st2.bytePos.toNat := by omega
  have hlen1 : st1.len = if st1.bytePos.toNat = st.bytePos.toNat then st.len else max st.len st1.bytePos.toNat := by
    rw [w1.len]; simp only [BytePos.eq_iff]
  have hlen2 : st2.len = if st2.bytePos.toNat = st1.bytePos.toNat then st1.len else max st1.len st2.bytePos.toNat := by
    rw [w2.len]; simp only [BytePos.eq_iff]
  refine ⟨?_, ?_, ?_, ?_, ?_, ?_, ?_, ?_⟩
  · simp only [List.length_cons]; omega
  · intro i hi
    cases i with
    | zero =>
      rw [w2.before _ (by omega)]
      simpa using w1.written 0 (by simp)
    | succ i =>
      have := w2.written i (by simpa using hi)
      rw [p1, show st.pos + 1 + i = st.pos + (i + 1) by omega] at this
      simpa using this
  · intro k hk
    rw [w2.before k (by omega), w1.before k hk]
  · intro i hi h8
    rw [w2.rest i hi h8]
    by_cases h12 : st2.bytePos = st1.bytePos
    · have h12' := (BytePos.eq_iff _ _).1 h12
      rw [w1.rest i (by omega) h8, h12]
      simp
    · have h02 : st2.bytePos ≠ st.bytePos := fun he => h12 ((BytePos.eq_iff _ _).2 (by
        have := (BytePos.eq_iff _ _).1 he; omega))
      simp [h12, h02]
  · rw [w2.hpw, w1.hpw]
    cases bs with
    | nil =>
      have : st2.bitOff = st1.bitOff := BitVec.eq_of_toNat_eq (by simp at p2; omega)
      simp [this]
    | cons c cs => simp
  · rw [hlen2, hlen1]
    simp only [BytePos.eq_iff]
    split <;> split <;> split <;> omega
  · intro a ha
    rw [w2.frame a (by omega), w1.frame a (by omega)]
    have : st.len ≤ st1.len := by rw [hlen1]; split <;> omega
    have : st1.len ≤ st2.len := by rw [hlen2]; split <;> omega
    by_cases h0 : a < st.len
    · rw [if_pos (by omega), if_pos h0, if_pos h0]
    · rw [if_neg h0, if_neg h0]
      by_cases h1 : a < st1.len
      · rw [if_pos h1, if_pos h1, if_pos (by omega)]
      · rw [if_neg h1]
  · rw [w2.storePos, w1.storePos]
    simp only [BytePos.eq_iff]
    by_cases h12 : st2.bytePos.toNat = st1.bytePos.toNat
    · rw [if_pos h12]
      by_cases h01 : st1.bytePos.toNat = st.bytePos.toNat
      · rw [if_pos h01, if_pos (by omega)]
      · rw [if_neg h01, if_neg (by omega)]; exact h12.symm
    · rw [if_neg h12, if_neg (by omega)]

theorem Stream.Wrote.room_succ {cap : Nat} {st st1 : Stream} {b : Bool} (w : st.Wrote [b] st1) (n : Nat) :
    st.room cap (n + 1) ↔ st.room cap 1 ∧ st1.room cap n := by
  have p1 := w.pos
  have := st.pos_div
  have := st.pos_mod
  have := st1.pos_div
  have := st1.pos_mod
  simp only [List.length_singleton] at p1
  unfold Stream.room
  omega

/-- Writing a list of bits where there is room for them. -/
theorem Stream.putBits_ok {cap : Nat} {st : Stream} (h : st.Inv cap) (hc : cap < 2 ^ 61) {bits : List Bool}
    (hr : st.room cap bits.length) : ∃ st', st.putBits cap bits = .ok () st' ∧ st.Wrote bits st' ∧ st'.Inv cap := by
  induction bits generalizing st with
  | nil => exact ⟨st, rfl, Stream.Wrote.nil h, h⟩
  | cons b bs ih =>
    have hr1 : st.room cap 1 := by
      simp only [List.length_cons] at hr
      have := st.bitOff_lt
      unfold Stream.room at hr ⊢; omega
    obtain ⟨st1, e1, w1, i1⟩ := Stream.putBit_ok h hc hr1 b
    obtain ⟨st2, e2, w2, i2⟩ := ih i1 ((w1.room_succ bs.length).1 hr).2
    exact ⟨st2, by simp only [Stream.putBits, e1, Res.bind_ok, e2], w1.cons w2, i2⟩

/-- Writing a list of bits where there is no room for them is stuck. -/
theorem Stream.putBits_full {cap : Nat} {st : Stream} (h : st.Inv cap) (hc : cap < 2 ^ 61) {bits : List Bool}
    (hr : ¬ st.room cap bits.length) : st.putBits cap bits = .stuck .storeFull := by
  induction bits generalizing st with
  | nil =>
    have := st.bitOff_lt
    exact absurd (.inl (by simp only [List.length_nil]; omega)) hr
  | cons b bs ih =>
    by_cases hr1 : st.room cap 1
    · obtain ⟨st1, e1, w1, i1⟩ := Stream.putBit_ok h hc hr1 b
      have : ¬ st1.room cap bs.length := fun h1 => hr ((w1.room_succ bs.length).2 ⟨hr1, h1⟩)
      simp only [Stream.putBits, e1, Res.bind_ok, ih i1 this]
    · simp only [Stream.putBits, Stream.putBit_full hr1, Res.bind_stuck]

/-- Writing one bit is writing a list of one. -/
theorem Stream.putBits_singleton (cap : Nat) (b : Bool) (st : Stream) : st.putBits cap [b] = st.putBit cap b := by
  simp only [Stream.putBits]
  cases st.putBit cap b <;> rfl

/-- Writing one list of bits and then another is writing them as one. -/
theorem Stream.putBits_append (cap : Nat) (xs ys : List Bool) (st : Stream) :
    st.putBits cap (xs ++ ys) = (st.putBits cap xs).bind fun _ st => st.putBits cap ys := by
  induction xs generalizing st with
  | nil => rfl
  | cons b bs ih =>
    simp only [List.cons_append, Stream.putBits]
    cases st.putBit cap b <;> simp [ih]

end Sys2Proof.Machine
end

