-- ==== Sys2Proof/Laws/Read.lean ====
section
/-! SUPPORT. Everything a run of `get_bit` can do: it delivers the stream's bits, leaves what `Stream.Consumed` says and
keeps the invariant; or it raises EndOfStream, exactly when the availability condition fails; or it is stuck at the commit
of a pending byte past the capacity (spec/40_cursor.md R111, R113, R129; spec/20_memory.md R56). -/

namespace Sys2Proof.Machine

theorem Stream.hpw_bitOff {cap : Nat} {st : Stream} (h : st.Inv cap) (hp : st.hpw = true) : st.bitOff.toNat ≠ 0 :=
  fun h0 => by
    have := (h.aligned ((BitOff.eq_zero_iff _).2 h0)).2
    rw [hp] at this; exact absurd this (by decide)

theorem Stream.avail_one {st : Stream} : st.avail 1 ↔ st.hpw = true ∨ st.bytePos.toNat < st.len := by
  have := st.bitOff_lt
  have := st.pos_div
  unfold Stream.avail
  cases st.hpw <;> simp <;> omega

/-- What `fetch` leaves when there is a bit to read. -/
theorem Stream.fetch_ok {cap : Nat} {st : Stream} (h : st.Inv cap) (ha : st.avail 1) :
    st.fetch = .ok () (if st.bitOff = 0#3 then st.latch else st) := by
  rw [Stream.avail_one] at ha
  unfold Stream.fetch
  by_cases h0 : st.bitOff = 0#3
  · have := (h.aligned h0).2
    rw [if_pos h0, if_pos h0, if_neg]
    rw [this] at ha; simp at ha; omega
  · rw [if_neg h0, if_neg h0, if_neg]
    rcases ha with ha | ha
    · simp [ha]
    · simp; intro _; omega

/-- `get_bit` with no bit to read raises EndOfStream (R113). -/
theorem Stream.getBit_end {cap : Nat} {st : Stream} (ha : ¬ st.avail 1) : st.getBit cap = .raise .endOfStream := by
  rw [Stream.avail_one, not_or] at ha
  have hl : st.len ≤ st.bytePos.toNat := by omega
  unfold Stream.getBit Stream.fetch
  by_cases h0 : st.bitOff = 0#3
  · rw [if_pos h0, if_pos hl]; rfl
  · rw [if_neg h0, if_pos (by simp [ha.1, hl])]; rfl

/-- `get_bit` that would commit a pending byte past the capacity is stuck. -/
theorem Stream.getBit_full {cap : Nat} {st : Stream} (h : st.Inv cap) (hr : ¬ st.readRoom cap 1) :
    st.getBit cap = .stuck .storeFull := by
  have hlt := st.bitOff_lt
  unfold Stream.readRoom at hr
  simp only [not_forall] at hr
  obtain ⟨hp, h8, hb⟩ := hr
  have h0 : st.bitOff ≠ 0#3 := fun h0 => Stream.hpw_bitOff h hp ((BitOff.eq_zero_iff _).1 h0)
  have h7 : st.bitOff = 7#3 := BitVec.eq_of_toNat_eq (by simp only [BitVec.toNat_ofNat]; omega)
  unfold Stream.getBit
  rw [Stream.fetch_ok h (Stream.avail_one.2 (.inl hp)), if_neg h0, Res.bind_ok, Stream.advance_full h7 hp (by omega)]
  rfl

theorem Stream.Consumed.zero {cap : Nat} {st : Stream} (h : st.Inv cap) : st.Consumed 0 st := by
  refine ⟨by simp, ?_, by simp, fun a => by simp, by simp, by simp⟩
  by_cases h0 : st.bitOff = 0#3
  · simp [h0, (h.aligned h0).1]
  · simp [h0]

/-- One bit read inside a byte. -/
theorem Stream.getBit_inside {cap : Nat} {st : Stream} (h : st.Inv cap) (hc : cap < 2 ^ 61) (ha : st.avail 1)
    (h7 : st.bitOff ≠ 7#3) :
    ∃ st', st.getBit cap = .ok (st.bitAt st.pos) st' ∧ st.Consumed 1 st' ∧ st'.Inv cap := by
  have hlt := st.bitOff_lt
  have hoff := Stream.bitOff_succ h7
  have hne : st.bitOff + 1#3 ≠ 0#3 := fun h0 => by rw [h0] at hoff; simp at hoff
  have hdiv := st.pos_div
  by_cases h0 : st.bitOff = 0#3
  · have hp := (h.aligned h0).2
    have hl : st.bytePos.toNat < st.len := by rw [Stream.avail_one, hp] at ha; simpa using ha
    have hle := h.lenLe
    have hbit : st.bitAt st.pos = (st.mem.read st.bytePos.toNat).getLsbD st.bitOff.toNat := by
      rw [Stream.bitAt_outside (.inl h0), Stream.pos_div, Stream.pos_mod, Stream.byte?_of_lt hl]; rfl
    refine ⟨{ st.latch with bitOff := st.bitOff + 1#3 }, ?_, ?_, ?_⟩
    · unfold Stream.getBit
      rw [Stream.fetch_ok h ha, if_pos h0, Res.bind_ok, Stream.advance_inside cap (by simpa using h7), hbit]
      rfl
    · have hbyte : Stream.byte? { st.latch with bitOff := st.bitOff + 1#3 } = st.byte? := Stream.byte?_congr rfl rfl
      refine ⟨?_, ?_, ?_, ?_, ?_, ?_⟩
      · simp only [Stream.pos, hoff, Stream.latch_bytePos]; omega
      · simp [h0, Stream.byte?_of_lt hl]
      · simp [hp]
      · intro a; rw [hbyte]; simp
      · simp
      · simp only [Stream.latch_storePos, BitVec.toNat_ofNat, one_ne_zero, if_false, h0, ne_eq, not_true, and_false,
          Nat.add_sub_cancel, hdiv]
        omega
    · exact ⟨fun hh => absurd hh hne, h.memWf, h.inStore, h.lenLe⟩
  · have hbit : st.bitAt st.pos = st.pend.getLsbD st.bitOff.toNat := by
      rw [Stream.bitAt_inside h0 hdiv, Stream.pos_mod]
    refine ⟨{ st with bitOff := st.bitOff + 1#3 }, ?_, ?_, ?_⟩
    · unfold Stream.getBit
      rw [Stream.fetch_ok h ha, if_neg h0, Res.bind_ok, Stream.advance_inside cap h7, hbit]
      rfl
    · have hbyte : Stream.byte? { st with bitOff := st.bitOff + 1#3 } = st.byte? := Stream.byte?_congr rfl rfl
      refine ⟨?_, ?_, ?_, ?_, ?_, ?_⟩
      · simp only [Stream.pos, hoff]; omega
      · simp [hne, h0]
      · simp
      · intro a; rw [hbyte]; simp
      · simp
      · simp [h0, hdiv]
    · exact ⟨fun hh => absurd hh hne, h.memWf, h.inStore, h.lenLe⟩

/-- The last bit of a byte read. -/
theorem Stream.getBit_wrap {cap : Nat} {st : Stream} (h : st.Inv cap) (hc : cap < 2 ^ 61) (ha : st.avail 1)
    (hr : st.readRoom cap 1) (h7 : st.bitOff = 7#3) :
    ∃ st', st.getBit cap = .ok (st.bitAt st.pos) st' ∧ st.Consumed 1 st' ∧ st'.Inv cap := by
  have h7' : st.bitOff.toNat = 7 := by rw [h7]; rfl
  have h0 : st.bitOff ≠ 0#3 := by rw [h7]; decide
  have hdiv := st.pos_div
  have hle := h.lenLe
  have hbit : st.bitAt st.pos = st.pend.getLsbD st.bitOff.toNat := by
    rw [Stream.bitAt_inside h0 hdiv, Stream.pos_mod]
  by_cases hp : st.hpw = true
  · have hb : st.bytePos.toNat < cap := hr hp (by omega)
    have hpos' : (st.store st.bytePos.toNat st.pend).atNext.bytePos.toNat = st.bytePos.toNat + 1 :=
      Stream.atNext_bytePos (by simp only [Stream.store_bytePos]; omega)
    have hbp : (st.store st.bytePos.toNat st.pend).atNext.bytePos ≠ st.bytePos := fun he => by
      rw [BytePos.eq_iff] at he; omega
    refine ⟨(st.store st.bytePos.toNat st.pend).atNext, ?_, ?_, ?_⟩
    · unfold Stream.getBit
      rw [Stream.fetch_ok h ha, if_neg h0, Res.bind_ok, Stream.advance_commit h7 hp hb hc, hbit]
      rfl
    · refine ⟨?_, ?_, ?_, ?_, ?_, ?_⟩
      · simp only [Stream.pos, hpos', Stream.atNext_bitOff, BitVec.toNat_ofNat]; omega
      · simp
      · simp [hbp]
      · intro a
        rw [if_pos ⟨hp, hbp⟩, Stream.atNext_byte?, Stream.byte?_store h.memWf]
        rfl
      · rw [if_pos ⟨hp, hbp⟩]; rfl
      · rw [if_neg one_ne_zero, if_pos ⟨by rw [Nat.add_sub_cancel, hdiv], h0⟩, if_pos ⟨hp, hbp⟩]
        simp only [Stream.atNext_storePos, Stream.store_storePos, BitVec.toNat_ofNat]
        omega
    · have hs := Stream.store_Inv (b := st.pend) h hb
      exact Stream.atNext_Inv hs.memWf hs.inStore hs.lenLe
  · have hp' : st.hpw = false := by simpa using hp
    have hl : st.bytePos.toNat < st.len := by rw [Stream.avail_one] at ha; exact ha.resolve_left hp
    have hpos' : st.atNext.bytePos.toNat = st.bytePos.toNat + 1 := Stream.atNext_bytePos (by omega)
    refine ⟨st.atNext, ?_, ?_, ?_⟩
    · unfold Stream.getBit
      rw [Stream.fetch_ok h ha, if_neg h0, Res.bind_ok, Stream.advance_past h7 hp' (by omega), hbit]
      rfl
    · refine ⟨?_, ?_, ?_, ?_, ?_, ?_⟩
      · simp only [Stream.pos, hpos', Stream.atNext_bitOff, BitVec.toNat_ofNat]; omega
      · simp
      · simp [hp']
      · intro a; simp [hp']
      · simp [hp']
      · simp [hp', h0, hdiv]
    · exact Stream.atNext_Inv h.memWf h.inStore h.lenLe

/-- `get_bit` where there is a bit to read and room for the commit it may make. -/
theorem Stream.getBit_ok {cap : Nat} {st : Stream} (h : st.Inv cap) (hc : cap < 2 ^ 61) (ha : st.avail 1)
    (hr : st.readRoom cap 1) :
    ∃ st', st.getBit cap = .ok (st.bitAt st.pos) st' ∧ st.Consumed 1 st' ∧ st'.Inv cap := by
  by_cases h7 : st.bitOff = 7#3
  · exact Stream.getBit_wrap h hc ha hr h7
  · exact Stream.getBit_inside h hc ha h7

/-! ### Reading on from where a read ended -/

/-- Reading does not change the bits still to come. -/
theorem Stream.Consumed.bitAt {st st' : Stream} {n : Nat} (c : st.Consumed n st') {k : Nat} (hk : st'.pos ≤ k) :
    st'.bitAt k = st.bitAt k := by
  have hp := c.pos
  have d0 := st.pos_div
  have m0 := st.pos_mod
  have d1 := st'.pos_div
  have m1 := st'.pos_mod
  by_cases hin : st'.bitOff ≠ 0#3 ∧ k / 8 = st'.bytePos.toNat
  · rw [Stream.bitAt_inside hin.1 hin.2, c.pend, if_neg hin.1]
    by_cases hs : st'.bytePos = st.bytePos ∧ st.bitOff ≠ 0#3
    · rw [if_pos hs, Stream.bitAt_inside hs.2 (by rw [hin.2, hs.1])]
    · rw [if_neg hs, Stream.bitAt_outside, hin.2]
      by_cases h0 : st.bitOff = 0#3
      · exact .inl h0
      · exact .inr fun he => hs ⟨(BytePos.eq_iff _ _).2 (by omega), h0⟩
  · rw [Stream.bitAt_outside (by tauto), c.bytes]
    have hin' : st.bitOff = 0#3 ∨ k / 8 ≠ st.bytePos.toNat := by
      by_contra hcon
      simp only [not_or, not_not] at hcon
      refine hin ⟨fun h0 => hcon.1 ?_, by omega⟩
      rw [BitOff.eq_zero_iff] at h0 ⊢
      omega
    rw [Stream.bitAt_outside hin']
    by_cases hcm : st.hpw = true ∧ st'.bytePos ≠ st.bytePos
    · have : st'.bytePos.toNat ≠ st.bytePos.toNat := fun he => hcm.2 ((BytePos.eq_iff _ _).2 he)
      rw [if_pos hcm, Stream.committedByte, if_neg (by omega)]
      by_cases hl : k / 8 < st.len
      · rw [if_pos hl]
      · rw [if_neg hl, if_neg (by omega), Stream.byte?_of_ge (by omega)]
    · rw [if_neg hcm]

/-- Reading `n` bits and then `m` more is reading `n + m`. -/
theorem Stream.Consumed.trans {cap : Nat} {st st1 st2 : Stream} {n m : Nat} (h : st.Inv cap) (c1 : st.Consumed n st1)
    (c2 : st1.Consumed m st2) : st.Consumed (n + m) st2 := by
  have p1 := c1.pos
  have p2 := c2.pos
  have d0 := st.pos_div
  have m0 := st.pos_mod
  have d1 := st1.pos_div
  have m1 := st1.pos_mod
  have d2 := st2.pos_div
  have m2 := st2.pos_mod
  have hp1 := c1.hpw
  have hin : st.hpw = true → st.bitOff.toNat ≠ 0 := Stream.hpw_bitOff h
  refine ⟨by omega, ?_, ?_, ?_, ?_, ?_⟩
  · rw [c2.pend]
    by_cases h2 : st2.bitOff = 0#3
    · rw [if_pos h2, if_pos h2]
    · rw [if_neg h2, if_neg h2]
      by_cases hs : st2.bytePos = st1.bytePos ∧ st1.bitOff ≠ 0#3
      · rw [if_pos hs, c1.pend, if_neg hs.2, hs.1]
      · have hno : ¬ (st2.bytePos = st.bytePos ∧ st.bitOff ≠ 0#3) := by
          rintro ⟨he, hne⟩
          rw [BytePos.eq_iff] at he
          refine hs ⟨(BytePos.eq_iff _ _).2 (by omega), fun h0 => hne ?_⟩
          rw [BitOff.eq_zero_iff] at h0 ⊢; omega
        rw [if_neg hs, if_neg hno, c1.bytes]
        by_cases hcm : st.hpw = true ∧ st1.bytePos ≠ st.bytePos
        · have : st1.bytePos.toNat ≠ st.bytePos.toNat := fun he => hcm.2 ((BytePos.eq_iff _ _).2 he)
          rw [if_pos hcm, Stream.committedByte, if_neg (by omega)]
          by_cases hl : st2.bytePos.toNat < st.len
          · rw [if_pos hl]
          · rw [if_neg hl, if_neg (by omega), Stream.byte?_of_ge (by omega)]
        · rw [if_neg hcm]
  · rw [c2.hpw, hp1]
    by_cases h01 : st1.bytePos = st.bytePos
    · rw [h01]; simp
    · have : st2.bytePos ≠ st.bytePos := fun he => by
        rw [BytePos.eq_iff] at he h01; omega
      simp [h01, this]
  · intro a
    rw [c2.bytes]
    by_cases hcm : st1.hpw = true ∧ st2.bytePos ≠ st1.bytePos
    · rw [if_pos hcm]
      rw [hp1, Bool.and_eq_true, decide_eq_true_eq] at hcm
      obtain ⟨⟨hh, h01⟩, h12⟩ := hcm
      have h01' := (BytePos.eq_iff _ _).1 h01
      have hoff := hin hh
      have h1n : st1.bitOff ≠ 0#3 := fun h0 => by rw [BitOff.eq_zero_iff] at h0; omega
      have h0n : st.bitOff ≠ 0#3 := fun h0 => by rw [BitOff.eq_zero_iff] at h0; omega
      have hb1 : st1.byte? a = st.byte? a := by rw [c1.bytes, if_neg (by tauto)]
      have hl1 : st1.len = st.len := by rw [c1.len, if_neg (by tauto)]
      have hpd : st1.pend = st.pend := by rw [c1.pend, if_neg h1n, if_pos ⟨h01, h0n⟩]
      rw [if_pos ⟨hh, h01 ▸ h12⟩]
      simp only [Stream.committedByte, hb1, hl1, h01', hpd]
    · rw [if_neg hcm, c1.bytes]
      by_cases hc1 : st.hpw = true ∧ st1.bytePos ≠ st.bytePos
      · have h02 : st2.bytePos ≠ st.bytePos := fun he => hc1.2 (by rw [BytePos.eq_iff] at he ⊢; omega)
        rw [if_pos hc1, if_pos ⟨hc1.1, h02⟩]
      · rw [if_neg hc1, if_neg]
        rintro ⟨hh, h02⟩
        have h01 : st1.bytePos = st.bytePos := by by_contra hne; exact hc1 ⟨hh, hne⟩
        exact hcm ⟨by rw [hp1, hh, h01]; simp, h01 ▸ h02⟩
  · rw [c2.len]
    by_cases hcm : st1.hpw = true ∧ st2.bytePos ≠ st1.bytePos
    · rw [if_pos hcm]
      rw [hp1, Bool.and_eq_true, decide_eq_true_eq] at hcm
      obtain ⟨⟨hh, h01⟩, h12⟩ := hcm
      rw [c1.len, if_neg (by tauto), h01, if_pos ⟨hh, h01 ▸ h12⟩]
    · rw [if_neg hcm, c1.len]
      by_cases hc1 : st.hpw = true ∧ st1.bytePos ≠ st.bytePos
      · have h02 : st2.bytePos ≠ st.bytePos := fun he => hc1.2 (by rw [BytePos.eq_iff] at he ⊢; omega)
        rw [if_pos hc1, if_pos ⟨hc1.1, h02⟩]
      · rw [if_neg hc1, if_neg]
        rintro ⟨hh, h02⟩
        have h01 : st1.bytePos = st.bytePos := by by_contra hne; exact hc1 ⟨hh, hne⟩
        exact hcm ⟨by rw [hp1, hh, h01]; simp, h01 ▸ h02⟩
  · have s1 := c1.storePos
    have s2 := c2.storePos
    simp only [BytePos.eq_iff, BitOff.eq_zero_iff, ne_eq] at s1 s2 hp1 ⊢
    rw [s2, s1, hp1]
    clear s1 s2 c1 c2 h
    generalize st2.bytePos.toNat = b2 at *
    generalize st1.bytePos.toNat = b1 at *
    generalize st.bytePos.toNat = b0 at *
    generalize st2.bitOff.toNat = o2 at *
    generalize st1.bitOff.toNat = o1 at *
    generalize st.bitOff.toNat = o0 at *
    generalize st.storePos.toNat = sp at *
    generalize st.pos = q0 at *
    generalize st1.pos = q1 at *
    by_cases hm : m = 0
    · subst hm
      have h21 : b2 = b1 := by omega
      simp only [h21, Nat.add_zero, if_true]
    · by_cases hn : n = 0
      · subst hn
        have h10 : b1 = b0 := by omega
        have h1o : o1 = o0 := by omega
        have hq : q1 = q0 := by omega
        simp only [h10, h1o, hq, Nat.zero_add, if_true, decide_true, Bool.and_true]
      · have hnm : ¬ n + m = 0 := by omega
        rw [if_neg hm, if_neg hn, if_neg hnm, show q0 + (n + m) - 1 = q1 + m - 1 by omega]
        by_cases hL : (q1 + m - 1) / 8 = b1 ∧ ¬ o1 = 0
        · have hL1 : (q0 + n - 1) / 8 = b1 := by omega
          rw [if_pos hL, hL1, hL.1]
          by_cases h10 : b1 = b0
          · by_cases ho : o0 = 0
            · have hh : st.hpw = false := by by_contra hh; exact hin (by simpa using hh) ho
              simp [h10, ho, hh]
            · simp [h10, ho]
          · simp [h10]
        · have hL0 : ¬ ((q1 + m - 1) / 8 = b0 ∧ ¬ o0 = 0) := by omega
          rw [if_neg hL, if_neg hL0]

/-- The availability of `n + m` bits. -/
theorem Stream.Consumed.avail_add {cap : Nat} {st st1 : Stream} {n : Nat} (h : st.Inv cap) (c : st.Consumed n st1)
    (m : Nat) : st.avail (n + m) ↔ st.avail n ∧ st1.avail m := by
  have p1 := c.pos
  have d0 := st.pos_div
  have m0 := st.pos_mod
  have d1 := st1.pos_div
  have m1 := st1.pos_mod
  have b0 := st.bitOff_lt
  have hl := c.len
  have hp := c.hpw
  have hin : st.hpw = true → st.bitOff.toNat ≠ 0 := Stream.hpw_bitOff h
  simp only [BytePos.eq_iff, ne_eq] at hl hp
  unfold Stream.avail
  rw [hl, hp]
  cases hh : st.hpw with
  | false => simp only [Bool.false_and, Bool.false_eq_true, false_and, if_false, false_or]; omega
  | true =>
    have := hin hh
    simp only [Bool.true_and, decide_eq_true_eq, true_and]
    split_ifs <;> omega

/-- The room for the commit of `n + m` bits read. -/
theorem Stream.Consumed.readRoom_add {cap : Nat} {st st1 : Stream} {n : Nat} (c : st.Consumed n st1) (m : Nat) :
    st.readRoom cap (n + m) ↔ st.readRoom cap n ∧ st1.readRoom cap m := by
  have p1 := c.pos
  have d0 := st.pos_div
  have m0 := st.pos_mod
  have d1 := st1.pos_div
  have m1 := st1.pos_mod
  have b0 := st.bitOff_lt
  have hp := c.hpw
  simp only [BytePos.eq_iff] at hp
  unfold Stream.readRoom
  rw [hp]
  cases st.hpw with
  | false => simp
  | true =>
    simp only [Bool.true_and, decide_eq_true_eq, true_imp_iff]
    omega

/-! ### Runs of bits -/

/-- The bits from the cursor on, in stream order. -/
def Stream.bitsFrom (st : Stream) (n : Nat) : List Bool := (List.range n).map fun i => st.bitAt (st.pos + i)

@[simp] theorem Stream.bitsFrom_zero (st : Stream) : st.bitsFrom 0 = [] := rfl

@[simp] theorem Stream.bitsFrom_length (st : Stream) (n : Nat) : (st.bitsFrom n).length = n := by
  simp [Stream.bitsFrom]

theorem Stream.Consumed.bitsFrom_succ {st st1 : Stream} (c : st.Consumed 1 st1) (n : Nat) :
    st.bitsFrom (n + 1) = st.bitAt st.pos :: st1.bitsFrom n := by
  simp only [Stream.bitsFrom, List.range_succ_eq_map, List.map_cons, List.map_map, Nat.add_zero, List.cons.injEq, true_and]
  refine List.map_congr_left fun i _ => ?_
  rw [c.bitAt (by omega), c.pos]
  simp only [Function.comp, Nat.succ_eq_add_one]
  congr 1; omega

/-- Reading `n` bits that are there. -/
theorem Stream.getBits_ok {cap : Nat} {st : Stream} {n : Nat} (h : st.Inv cap) (hc : cap < 2 ^ 61) (ha : st.avail n)
    (hr : st.readRoom cap n) :
    ∃ st', st.getBits cap n = .ok (st.bitsFrom n) st' ∧ st.Consumed n st' ∧ st'.Inv cap := by
  induction n generalizing st with
  | zero => exact ⟨st, rfl, Stream.Consumed.zero h, h⟩
  | succ n ih =>
    have ha1 : st.avail 1 := by
      have := st.pos_div
      rcases ha with h0 | h1 | h2
      · omega
      · exact Stream.avail_one.2 (.inl h1.1)
      · exact Stream.avail_one.2 (.inr (by omega))
    have hr1 : st.readRoom cap 1 := fun hp h8 => hr hp (by omega)
    obtain ⟨st1, e1, c1, i1⟩ := Stream.getBit_ok h hc ha1 hr1
    rw [Nat.add_comm, c1.avail_add h] at ha
    rw [Nat.add_comm, c1.readRoom_add] at hr
    obtain ⟨st2, e2, c2, i2⟩ := ih i1 ha.2 hr.2
    refine ⟨st2, ?_, Nat.add_comm n 1 ▸ c1.trans h c2, i2⟩
    simp only [Stream.getBits, e1, Res.bind_ok, e2, Res.map_ok, c1.bitsFrom_succ]

/-- Reading `n` bits that are not all there raises EndOfStream (R129). -/
theorem Stream.getBits_end {cap : Nat} {st : Stream} {n : Nat} (h : st.Inv cap) (hc : cap < 2 ^ 61) (ha : ¬ st.avail n)
    (hr : st.readRoom cap n) : st.getBits cap n = .raise .endOfStream := by
  induction n generalizing st with
  | zero => exact absurd (.inl rfl) ha
  | succ n ih =>
    by_cases ha1 : st.avail 1
    · have hr1 : st.readRoom cap 1 := fun hp h8 => hr hp (by omega)
      obtain ⟨st1, e1, c1, i1⟩ := Stream.getBit_ok h hc ha1 hr1
      rw [Nat.add_comm, c1.avail_add h] at ha
      rw [Nat.add_comm, c1.readRoom_add] at hr
      simp only [Stream.getBits, e1, Res.bind_ok, ih i1 (fun h2 => ha ⟨ha1, h2⟩) hr.2, Res.map_raise]
    · simp only [Stream.getBits, Stream.getBit_end ha1, Res.bind_raise]

/-- Reading past a pending byte that lies past the capacity is stuck. -/
theorem Stream.getBits_full {cap : Nat} {st : Stream} {n : Nat} (h : st.Inv cap) (hc : cap < 2 ^ 61)
    (hr : ¬ st.readRoom cap n) : st.getBits cap n = .stuck .storeFull := by
  induction n generalizing st with
  | zero =>
    have := st.bitOff_lt
    exact absurd (fun _ h8 => by omega) hr
  | succ n ih =>
    by_cases hr1 : st.readRoom cap 1
    · have hp : st.hpw = true := by by_contra hp; exact hr fun hp' => absurd hp' hp
      obtain ⟨st1, e1, c1, i1⟩ := Stream.getBit_ok h hc (Stream.avail_one.2 (.inl hp)) hr1
      rw [Nat.add_comm, c1.readRoom_add] at hr
      simp only [Stream.getBits, e1, Res.bind_ok, ih i1 (fun h2 => hr ⟨hr1, h2⟩), Res.map_stuck]
    · simp only [Stream.getBits, Stream.getBit_full h hr1, Res.bind_stuck]

/-! ### The field of a run of bits -/

theorem natOfBits_range (f : Nat → Bool) (n : Nat) :
    natOfBits ((List.range n).map f) = ((List.range n).map fun i => if f i then 2 ^ i else 0).sum := by
  induction n generalizing f with
  | zero => rfl
  | succ n ih =>
    rw [List.range_succ_eq_map, List.map_cons, List.map_map, natOfBits, ih, List.map_cons, List.sum_cons, List.map_map,
      ← List.sum_map_mul_left]
    congr 1
    · cases f 0 <;> rfl
    · congr 1
      refine List.map_congr_left fun i _ => ?_
      simp only [Function.comp, Nat.succ_eq_add_one]
      split
      · rw [Nat.pow_succ]; omega
      · rfl

/-- The bits read assemble to the field the spec gives. -/
theorem Stream.natOfBits_bitsFrom (st : Stream) (n : Nat) : natOfBits (st.bitsFrom n) = st.fieldNat n :=
  natOfBits_range _ n

theorem Stream.wordOfBits_bitsFrom (st : Stream) (n : Nat) : wordOfBits (st.bitsFrom n) = st.field n := by
  rw [wordOfBits, Stream.natOfBits_bitsFrom]; rfl

/-- An entry of a tabulated list. -/
theorem getD_range_map (f : Nat → Bool) {n i : Nat} (hi : i < n) : ((List.range n).map f).getD i false = f i := by
  simp [List.getD, hi]

/-- Bit i of a field is stream bit POS + i (20_memory.md R58). -/
theorem Stream.fieldNat_testBit (st : Stream) (n i : Nat) : (st.fieldNat n).testBit i = (decide (i < n) && st.bitAt (st.pos + i)) := by
  rw [← Stream.natOfBits_bitsFrom]
  have : ∀ (l : List Bool) (i : Nat), (natOfBits l).testBit i = l.getD i false := by
    intro l
    induction l with
    | nil => intro i; simp [natOfBits]
    | cons b l ih =>
      intro i
      cases i with
      | zero => cases b <;> simp [natOfBits, Nat.testBit_zero, Nat.add_mod]
      | succ i =>
        rw [Nat.testBit_succ, List.getD_cons_succ, ← ih]
        congr 1
        cases b <;> simp [natOfBits] <;> omega
  rw [this, Stream.bitsFrom]
  by_cases hi : i < n
  · rw [getD_range_map _ hi]; simp [hi]
  · simp [List.getD, hi]

/-- A field of n bits is below 2^n. -/
theorem Stream.fieldNat_lt (st : Stream) (n : Nat) : st.fieldNat n < 2 ^ n := by
  apply Nat.lt_pow_two_of_testBit
  intro i hi
  rw [Stream.fieldNat_testBit]; simp; omega

/-- The same, of the field as a register holds it. -/
theorem Stream.field_getLsbD (st : Stream) {n : Nat} (hn : n ≤ 64) (i : Nat) :
    (st.field n).getLsbD i = (decide (i < n) && st.bitAt (st.pos + i)) := by
  rw [Stream.field, BitVec.getLsbD_ofNat, Stream.fieldNat_testBit]
  by_cases hi : i < n
  · simp [hi]; omega
  · simp [hi]

end Sys2Proof.Machine
end

