-- ==== Sys2Proof/Laws/Commands.lean ====
section
/-! SUPPORT. How commands end, said once: a command is its pseudocode's result given to `State.finish`; a run of `put_bit`
gives `State.Writes`, a run of `get_bit` gives `State.Reads`, and `parse_ue` gives `State.ReadsCode`. -/

namespace Sys2Proof.Machine

/-! ### The end of a command -/

theorem State.finish_ok {α : Type} (s : State) (p : Bool) (a : α) (st : Stream) (d : α → State → State) :
    s.finish p (.ok a st) d = .next (d a { s with stream := if p then s.stream else st }).clearStatus := rfl

theorem State.finish_raise {α : Type} (s : State) (p : Bool) (e : Raise) (d : α → State → State) :
    s.finish p (.raise e) d = .next (s.takeError e) := rfl

theorem State.finish_stuck {α : Type} (s : State) (p : Bool) (f : Fault) (d : α → State → State) :
    s.finish p (.stuck f) d = .fault f := rfl

/-- Everything a command that answers a next state has done. -/
theorem State.finish_next {α : Type} {s t : State} {p : Bool} {r : Res α} {d : α → State → State}
    (h : s.finish p r d = .next t) :
    (∃ a st, r = .ok a st ∧ t = (d a { s with stream := if p then s.stream else st }).clearStatus) ∨
    ∃ e, r = .raise e ∧ t = s.takeError e := by
  cases r with
  | ok a st => exact .inl ⟨a, st, rfl, by simpa [State.finish] using h.symm⟩
  | raise e => exact .inr ⟨e, rfl, by simpa [State.finish] using h.symm⟩
  | stuck f => simp [State.finish] at h

theorem State.finish_fault {α : Type} {s : State} {p : Bool} {r : Res α} {d : α → State → State} {f : Fault}
    (h : s.finish p r d = .fault f) : r = .stuck f := by
  cases r <;> simp_all [State.finish]

theorem State.finish_ne_refused {α : Type} (s : State) (p : Bool) (r : Res α) (d : α → State → State) (e : Refusal) :
    s.finish p r d ≠ .refused e := by
  cases r <;> simp [State.finish]

theorem State.finish_map {α β : Type} (s : State) (p : Bool) (g : α → β) (r : Res α) (d : β → State → State) :
    s.finish p (r.map g) d = s.finish p r fun a => d (g a) := by
  cases r <;> rfl

/-! ### Capacity -/

theorem State.Inv.cap_lt {s : State} (h : s.Inv) : s.cfg.storeCap < 2 ^ 61 := by have := h.cfgWf.2; omega

/-! ### Writing -/

/-- A run of `put_bit`, as the outcome of a command. -/
theorem State.finish_putBits {s : State} (h : s.Inv) (bits : List Bool) (d : Unit → State → State) :
    s.Writes bits (s.finish false (s.stream.putBits s.cfg.storeCap bits) d) fun st =>
      (d () { s with stream := st }).clearStatus := by
  refine ⟨fun hr => ?_, fun hr => ?_⟩
  · obtain ⟨st, e, w, -⟩ := Stream.putBits_ok h.stream h.cap_lt hr
    exact ⟨st, w, by rw [e]; rfl⟩
  · rw [Stream.putBits_full h.stream h.cap_lt hr]; rfl

/-- The one bit of `put_bit`, likewise. -/
theorem State.finish_putBit {s : State} (h : s.Inv) (b : Bool) (d : Unit → State → State) :
    s.Writes [b] (s.finish false (s.stream.putBit s.cfg.storeCap b) d) fun st =>
      (d () { s with stream := st }).clearStatus := by
  rw [← Stream.putBits_singleton]; exact State.finish_putBits h [b] d

/-! ### Reading -/

/-- A run of `get_bit`, as the outcome of a command. -/
theorem State.finish_getBits {s : State} (h : s.Inv) (n : Nat) (p : Bool) (d : List Bool → State → State) :
    s.Reads n (s.finish p (s.stream.getBits s.cfg.storeCap n) d) fun st =>
      (d (s.stream.bitsFrom n) { s with stream := if p then s.stream else st }).clearStatus := by
  refine ⟨fun ha hr => ?_, fun ha hr => ?_, fun hr => ?_⟩
  · obtain ⟨st, e, c, -⟩ := Stream.getBits_ok h.stream h.cap_lt ha hr
    exact ⟨st, c, by rw [e]; rfl⟩
  · rw [Stream.getBits_end h.stream h.cap_lt ha hr]; rfl
  · rw [Stream.getBits_full h.stream h.cap_lt hr]; rfl

/-- `get_bit` that is not available, or that has no room. -/
theorem State.finish_getBit {s : State} (h : s.Inv) (p : Bool) (d : Bool → State → State) :
    s.Reads 1 (s.finish p (s.stream.getBit s.cfg.storeCap) d) fun st =>
      (d (s.stream.bitAt s.stream.pos) { s with stream := if p then s.stream else st }).clearStatus := by
  refine ⟨fun ha hr => ?_, fun ha hr => ?_, fun hr => ?_⟩
  · obtain ⟨st, e, c, -⟩ := Stream.getBit_ok h.stream h.cap_lt ha hr
    exact ⟨st, c, by rw [e]; rfl⟩
  · rw [Stream.getBit_end ha]; rfl
  · rw [Stream.getBit_full h.stream hr]; rfl

/-! ### `byte_check` -/

theorem byteCheck_refused {s : State} (h : s.unalignedRefused) :
    byteCheck s.au s.stream = .raise (.streamUnaligned (8#4 - s.stream.bitOff.setWidth 4)) := if_pos h

theorem byteCheck_passed {s : State} (h : ¬ s.unalignedRefused) : byteCheck s.au s.stream = .ok () s.stream := if_neg h

/-- BITS_LEFT is 8 - BIT_OFF. -/
theorem bitsLeft_eq (o : BitOff) : 8#4 - o.setWidth 4 = BitVec.ofNat 4 (8 - o.toNat) := by
  revert o; decide

theorem takeError_unaligned (s : State) :
    s.takeError (.streamUnaligned (8#4 - s.stream.bitOff.setWidth 4)) = s.unalignedFailure := by
  rw [bitsLeft_eq]; rfl

/-! ### `parse_ue` -/

/-- Nothing but the pending byte can be past the capacity: where a read has no room, its bits up to that commit are there. -/
theorem Stream.avail_of_no_room {cap : Nat} {st : Stream} {n k : Nat} (hr : ¬ st.readRoom cap n) (hk : st.readRoom cap k) :
    st.avail k := by
  unfold Stream.readRoom at hr hk
  simp only [not_forall] at hr
  obtain ⟨hp, -, hb⟩ := hr
  refine .inr (.inl ⟨hp, ?_⟩)
  by_contra hcon
  exact hb (hk hp (by have := st.bitOff_lt; omega))

theorem Stream.bitAt_after {cap : Nat} {st st1 : Stream} (c : st.Consumed 1 st1) (_ : st.Inv cap) (j : Nat) :
    st1.bitAt (st1.pos + j) = st.bitAt (st.pos + (j + 1)) := by
  rw [c.bitAt (by omega), c.pos]; congr 1; omega

/-- The unary run, one bit at a time (R205). -/
theorem Stream.zeroRun_raise {cap left z : Nat} {st : Stream} {e : Raise} (h : st.getBit cap = .raise e) :
    st.zeroRun cap left z = .raise e := by
  cases left <;> (unfold Stream.zeroRun; rw [h]; rfl)

theorem Stream.zeroRun_stuck {cap left z : Nat} {st : Stream} {f : Fault} (h : st.getBit cap = .stuck f) :
    st.zeroRun cap left z = .stuck f := by
  cases left <;> (unfold Stream.zeroRun; rw [h]; rfl)

theorem Stream.zeroRun_one {cap left z : Nat} {st st1 : Stream} {b : Bool} (h : st.getBit cap = .ok b st1) (hb : b = true) :
    st.zeroRun cap left z = .ok z st1 := by
  subst hb
  cases left <;> (unfold Stream.zeroRun; rw [h]; rfl)

theorem Stream.zeroRun_zero {cap left z : Nat} {st st1 : Stream} {b : Bool} (h : st.getBit cap = .ok b st1)
    (hb : b = false) : st.zeroRun cap (left + 1) z = st1.zeroRun cap left (z + 1) := by
  subst hb
  rw [Stream.zeroRun.eq_def, h]; rfl

theorem Stream.zeroRun_last {cap z : Nat} {st st1 : Stream} {b : Bool} (h : st.getBit cap = .ok b st1) (hb : b = false) :
    st.zeroRun cap 0 z = .raise .argumentRange := by
  subst hb
  unfold Stream.zeroRun; rw [h]; rfl

/-- The unary run where `k` zeros and a 1 stand at the cursor (R205). -/
theorem Stream.zeroRun_ones {cap : Nat} {st : Stream} {k left : Nat} (h : st.Inv cap) (hc : cap < 2 ^ 61) (hk : k ≤ left)
    (hz : st.zerosThenOne k) (z : Nat) :
    (st.avail (k + 1) → st.readRoom cap (k + 1) →
      ∃ st', st.zeroRun cap left z = .ok (z + k) st' ∧ st.Consumed (k + 1) st' ∧ st'.Inv cap) ∧
    (¬ st.avail (k + 1) → st.readRoom cap (k + 1) → st.zeroRun cap left z = .raise .endOfStream) ∧
    (¬ st.readRoom cap (k + 1) → st.zeroRun cap left z = .stuck .storeFull) := by
  induction k generalizing st left z with
  | zero =>
    have hb := hz.2
    rw [Nat.add_zero] at hb
    refine ⟨fun ha hr => ?_, fun ha hr => ?_, fun hr => ?_⟩
    · obtain ⟨st', e, c, i⟩ := Stream.getBit_ok h hc ha hr
      refine ⟨st', ?_, c, i⟩
      exact Stream.zeroRun_one e hb
    · exact Stream.zeroRun_raise (Stream.getBit_end ha)
    · exact Stream.zeroRun_stuck (Stream.getBit_full h hr)
  | succ k ih =>
    obtain ⟨left, rfl⟩ : ∃ l, left = l + 1 := ⟨left - 1, by omega⟩
    have hb := hz.1 0 (by omega)
    rw [Nat.add_zero] at hb
    by_cases hr1 : st.readRoom cap 1
    · by_cases ha1 : st.avail 1
      · obtain ⟨st1, e, c, i⟩ := Stream.getBit_ok h hc ha1 hr1
        have hz1 : st1.zerosThenOne k :=
          ⟨fun j hj => by rw [Stream.bitAt_after c h]; exact hz.1 (j + 1) (by omega),
            by rw [Stream.bitAt_after c h]; exact hz.2⟩
        have step : st.zeroRun cap (left + 1) z = st1.zeroRun cap left (z + 1) := Stream.zeroRun_zero e hb
        obtain ⟨i1, i2, i3⟩ := ih (left := left) i (by omega) hz1 (z + 1)
        have hA := c.avail_add h (k + 1)
        have hR := c.readRoom_add (cap := cap) (k + 1)
        rw [show 1 + (k + 1) = k + 1 + 1 by omega] at hA hR
        rw [step, hA, hR]
        refine ⟨fun ha hr => ?_, fun ha hr => i2 (fun h2 => ha ⟨ha1, h2⟩) hr.2, fun hr => i3 (fun h2 => hr ⟨hr1, h2⟩)⟩
        obtain ⟨st', e', c', i'⟩ := i1 ha.2 hr.2
        refine ⟨st', by rw [e']; congr 1; omega, ?_, i'⟩
        have := c.trans h c'
        rwa [show 1 + (k + 1) = k + 1 + 1 by omega] at this
      · have hend : st.zeroRun cap (left + 1) z = .raise .endOfStream :=
          Stream.zeroRun_raise (Stream.getBit_end ha1)
        have hno : ¬ st.avail (k + 1 + 1) := fun ha => ha1 (by
          have := st.pos_div
          rcases ha with h0 | h1 | h2
          · omega
          · exact Stream.avail_one.2 (.inl h1.1)
          · -- the last bit is a 1, so it is in a byte that exists
            exact absurd (Stream.avail_one.2 (.inr (by omega))) ha1)
        refine ⟨fun ha => absurd ha hno, fun _ _ => hend, fun hr => absurd (Stream.avail_of_no_room hr hr1) ha1⟩
    · have hst : st.zeroRun cap (left + 1) z = .stuck .storeFull :=
        Stream.zeroRun_stuck (Stream.getBit_full h hr1)
      have hno : ¬ st.readRoom cap (k + 1 + 1) := fun hr => hr1 fun hp h8 => hr hp (by omega)
      exact ⟨fun _ hr => absurd hr hno, fun _ hr => absurd hr hno, fun _ => hst⟩

/-- The unary run where only zeros stand at the cursor, as many as it admits and one more (R205). -/
theorem Stream.zeroRun_zeros {cap : Nat} {st : Stream} {left : Nat} (h : st.Inv cap) (hc : cap < 2 ^ 61)
    (hz : ∀ j, j ≤ left → st.bitAt (st.pos + j) = false) (z : Nat) :
    (st.avail (left + 1) → st.readRoom cap (left + 1) → st.zeroRun cap left z = .raise .argumentRange) ∧
    (¬ st.avail (left + 1) → st.readRoom cap (left + 1) → st.zeroRun cap left z = .raise .endOfStream) ∧
    (¬ st.readRoom cap (left + 1) → st.zeroRun cap left z = .stuck .storeFull) := by
  induction left generalizing st z with
  | zero =>
    have hb := hz 0 (le_refl _)
    rw [Nat.add_zero] at hb
    refine ⟨fun ha hr => ?_, fun ha hr => ?_, fun hr => ?_⟩
    · obtain ⟨st', e, c, i⟩ := Stream.getBit_ok h hc ha hr
      exact Stream.zeroRun_last e hb
    · exact Stream.zeroRun_raise (Stream.getBit_end ha)
    · exact Stream.zeroRun_stuck (Stream.getBit_full h hr)
  | succ left ih =>
    have hb := hz 0 (by omega)
    rw [Nat.add_zero] at hb
    by_cases hr1 : st.readRoom cap 1
    · by_cases ha1 : st.avail 1
      · obtain ⟨st1, e, c, i⟩ := Stream.getBit_ok h hc ha1 hr1
        have step : st.zeroRun cap (left + 1) z = st1.zeroRun cap left (z + 1) := Stream.zeroRun_zero e hb
        obtain ⟨i1, i2, i3⟩ := ih i (fun j hj => by rw [Stream.bitAt_after c h]; exact hz (j + 1) (by omega)) (z + 1)
        have hA := c.avail_add h (left + 1)
        have hR := c.readRoom_add (cap := cap) (left + 1)
        rw [show 1 + (left + 1) = left + 1 + 1 by omega] at hA hR
        rw [step, hA, hR]
        exact ⟨fun ha hr => i1 ha.2 hr.2, fun ha hr => i2 (fun h2 => ha ⟨ha1, h2⟩) hr.2, fun hr => i3 (fun h2 => hr ⟨hr1, h2⟩)⟩
      · have hend : st.zeroRun cap (left + 1) z = .raise .endOfStream :=
          Stream.zeroRun_raise (Stream.getBit_end ha1)
        have hno : ¬ st.avail (left + 1 + 1) := fun ha => by
          have := st.pos_div
          rcases ha with h0 | h1 | h2
          · omega
          · exact ha1 (Stream.avail_one.2 (.inl h1.1))
          · exact ha1 (Stream.avail_one.2 (.inr (by omega)))
        refine ⟨fun ha => absurd ha hno, fun _ _ => hend, fun hr => absurd (Stream.avail_of_no_room hr hr1) ha1⟩
    · have hst : st.zeroRun cap (left + 1) z = .stuck .storeFull :=
        Stream.zeroRun_stuck (Stream.getBit_full h hr1)
      have hno : ¬ st.readRoom cap (left + 1 + 1) := fun hr => hr1 fun hp h8 => hr hp (by omega)
      exact ⟨fun _ hr => absurd hr hno, fun _ hr => absurd hr hno, fun _ => hst⟩

theorem zmax_eq (style : GolombStyle) : zmax style = zeroLimit style := by cases style <;> rfl
theorem suffixLength_eq (style : GolombStyle) (z : Nat) : suffixLength style z = suffixBits style z := by cases style <;> rfl

/-- `parse_ue` on a code (R205). -/
theorem Stream.parseUe_code {cap : Nat} {st : Stream} {style : GolombStyle} {z : Nat} (h : st.Inv cap) (hc : cap < 2 ^ 61)
    (hz : z ≤ zeroLimit style) (h1 : st.zerosThenOne z) :
    (st.avail (codeSpan style z) → st.readRoom cap (codeSpan style z) →
      ∃ st', st.parseUe cap style = .ok (st.codeAt style z, 2 * z + 1) st' ∧ st.Consumed (codeSpan style z) st' ∧
        st'.Inv cap) ∧
    (¬ st.avail (codeSpan style z) → st.readRoom cap (codeSpan style z) → st.parseUe cap style = .raise .endOfStream) ∧
    (¬ st.readRoom cap (codeSpan style z) → st.parseUe cap style = .stuck .storeFull) := by
  obtain ⟨r1, r2, r3⟩ := Stream.zeroRun_ones (left := zmax style) h hc (by rwa [zmax_eq]) h1 0
  unfold codeSpan Stream.parseUe
  by_cases hr1 : st.readRoom cap (z + 1)
  · by_cases ha1 : st.avail (z + 1)
    · obtain ⟨st1, e, c, i⟩ := r1 ha1 hr1
      rw [c.avail_add h, c.readRoom_add, e, Nat.zero_add]
      simp only [Res.bind_ok, suffixLength_eq]
      refine ⟨fun ha hr => ?_, fun ha hr => ?_, fun hr => ?_⟩
      · obtain ⟨st2, e2, c2, i2⟩ := Stream.getBits_ok i hc ha.2 hr.2
        refine ⟨st2, ?_, c.trans h c2, i2⟩
        rw [e2, Res.map_ok]
        congr 2
        rw [Stream.bitsFrom, suffixValue_eq, Stream.codeAt, Stream.msbNat]
        congr 2
        congr 1
        refine List.map_congr_left fun j _ => ?_
        rw [c.bitAt (by omega), c.pos, show st.pos + (z + 1) + j = st.pos + z + 1 + j by omega]
      · rw [Stream.getBits_end i hc (fun h2 => ha ⟨ha1, h2⟩) hr.2]; rfl
      · rw [Stream.getBits_full i hc (fun h2 => hr ⟨hr1, h2⟩)]; rfl
    · have hno : ¬ st.avail (z + 1 + suffixBits style z) := fun ha => ha1 (by
        rcases ha with h0 | h2 | h3
        · omega
        · exact .inr (.inl ⟨h2.1, by omega⟩)
        · exact .inr (.inr (by have := Nat.div_le_div_right (c := 8) (show st.pos + (z + 1) - 1 ≤ st.pos + (z + 1 + suffixBits style z) - 1 by omega); omega)))
      rw [r2 ha1 hr1]
      exact ⟨fun ha => absurd ha hno, fun _ _ => rfl, fun hr => absurd (Stream.avail_of_no_room hr hr1) ha1⟩
  · have hno : ¬ st.readRoom cap (z + 1 + suffixBits style z) := fun hr => hr1 fun hp h8 => hr hp (by omega)
    rw [r3 hr1]
    exact ⟨fun _ hr => absurd hr hno, fun _ hr => absurd hr hno, fun _ => rfl⟩

/-- `parse_ue` on a run of zeros that is too long (R205). -/
theorem Stream.parseUe_zeros {cap : Nat} {st : Stream} {style : GolombStyle} (h : st.Inv cap) (hc : cap < 2 ^ 61)
    (hz : ∀ j, j ≤ zeroLimit style → st.bitAt (st.pos + j) = false) :
    (st.avail (zeroLimit style + 1) → st.readRoom cap (zeroLimit style + 1) →
      st.parseUe cap style = .raise .argumentRange) ∧
    (¬ st.avail (zeroLimit style + 1) → st.readRoom cap (zeroLimit style + 1) →
      st.parseUe cap style = .raise .endOfStream) ∧
    (¬ st.readRoom cap (zeroLimit style + 1) → st.parseUe cap style = .stuck .storeFull) := by
  rw [← zmax_eq] at hz ⊢
  obtain ⟨r1, r2, r3⟩ := Stream.zeroRun_zeros h hc hz 0
  unfold Stream.parseUe
  exact ⟨fun ha hr => by rw [r1 ha hr]; rfl, fun ha hr => by rw [r2 ha hr]; rfl, fun hr => by rw [r3 hr]; rfl⟩

/-- Every stream has either a code at the cursor or too long a run of zeros. -/
theorem Stream.code_or_zeros (st : Stream) (l : Nat) :
    (∃ z, z ≤ l ∧ st.zerosThenOne z) ∨ ∀ j, j ≤ l → st.bitAt (st.pos + j) = false := by
  induction l with
  | zero =>
    cases hb : st.bitAt (st.pos + 0) with
    | true => exact .inl ⟨0, le_refl _, fun j hj => by omega, hb⟩
    | false => exact .inr fun j hj => by rw [show j = 0 by omega]; exact hb
  | succ l ih =>
    rcases ih with ⟨z, hz, h1⟩ | h0
    · exact .inl ⟨z, by omega, h1⟩
    · cases hb : st.bitAt (st.pos + (l + 1)) with
      | true => exact .inl ⟨l + 1, le_refl _, fun j hj => h0 j (by omega), hb⟩
      | false =>
        refine .inr fun j hj => ?_
        rcases Nat.lt_or_ge j (l + 1) with hl | hl
        · exact h0 j (by omega)
        · rw [show j = l + 1 by omega]; exact hb

/-- A ue-like read, as the outcome of a command: `decode` gives the results, or none where the value is out of its
domain. -/
theorem State.finish_parseUe {α : Type} {s : State} (h : s.Inv) (p : Bool) (decode : Nat → Nat → Option α)
    (d : α → State → State) :
    s.ReadsCode
      (s.finish p ((s.stream.parseUe s.cfg.storeCap s.gmode).bind fun cr st =>
        (decode cr.1 cr.2).elim (.raise .argumentRange) fun a => .ok a st) d)
      fun c r => (decode c r).map fun a st => (d a { s with stream := if p then s.stream else st }).clearStatus := by
  refine ⟨fun z hz h1 => ?_, fun hz => ?_⟩
  · obtain ⟨r1, r2, r3⟩ := Stream.parseUe_code h.stream h.cap_lt hz h1
    refine ⟨fun ha hr => ?_, fun ha hr => ?_, fun hr => ?_⟩
    · obtain ⟨st, e, c, -⟩ := r1 ha hr
      refine ⟨st, c, ?_⟩
      rw [e, Res.bind_ok]
      dsimp only
      cases decode (s.stream.codeAt s.gmode z) (2 * z + 1) <;> rfl
    · rw [r2 ha hr]; rfl
    · rw [r3 hr]; rfl
  · obtain ⟨r1, r2, r3⟩ := Stream.parseUe_zeros h.stream h.cap_lt hz
    refine ⟨fun ha hr => ?_, fun ha hr => ?_, fun hr => ?_⟩
    · obtain ⟨st, -, c, -⟩ := Stream.getBits_ok h.stream h.cap_lt ha hr
      exact ⟨st, c, by rw [r1 ha hr]; rfl⟩
    · rw [r2 ha hr]; rfl
    · rw [r3 hr]; rfl

end Sys2Proof.Machine
end

