-- ==== Sys2Proof/Laws/Encoding.lean ====
section
/-! SUPPORT. The fields of a command word bit by bit, what the decoder's three checks accept, and when a word selects a row
of the opcode table (spec/30_encoding.md R81 to R87). -/

namespace Sys2Proof.Machine

/-- Two words are equal if their 32 bits are. -/
theorem CmdWord.ext_bits {x y : BitVec 32} (h : ∀ i, i < 32 → x.getLsbD i = y.getLsbD i) : x = y := BitVec.eq_of_getLsbD_eq fun i hi => h i hi

/-- The field N in its place. -/
theorem putN_eq (w : CmdWord) : putN (countOf w) = w &&& maskN := CmdWord.ext_bits fun i hi => by
  simp only [putN, countOf, maskN]; interval_cases i <;> simp [BitVec.getLsbD_extractLsb']
/-- The field P in its place. -/
theorem putP_eq (w : CmdWord) : putP (peekOf w) = w &&& maskP := CmdWord.ext_bits fun i hi => by
  have hm : ∀ i, i < 32 → maskP.getLsbD i = decide (i = 15) := by decide
  have e : ∀ b : Bool, ∀ i, i < 32 → (putP b).getLsbD i = (b && decide (i = 15)) := by decide
  rw [BitVec.getLsbD_and, hm i hi]
  rw [e _ i hi, peekOf]
  by_cases h : i = 15
  · rw [h]
  · rw [decide_eq_false h, Bool.and_false, Bool.and_false]

/-- The field S in its place. -/
theorem putS_eq (w : CmdWord) : putS (signOf w) = w &&& maskS := CmdWord.ext_bits fun i hi => by
  have hm : ∀ i, i < 32 → maskS.getLsbD i = decide (i = 20) := by decide
  have e : ∀ b : Bool, ∀ i, i < 32 → (putS (signOfBit b)).getLsbD i = (b && decide (i = 20)) := by decide
  rw [BitVec.getLsbD_and, hm i hi]
  rw [signOf, e _ i hi]
  by_cases h : i = 20
  · rw [h]
  · rw [decide_eq_false h, Bool.and_false, Bool.and_false]

/-- The field S2 in its place. -/
theorem putS2_eq (w : CmdWord) : putS2 (sign2Of w) = w &&& maskS2 := CmdWord.ext_bits fun i hi => by
  have hm : ∀ i, i < 32 → maskS2.getLsbD i = decide (i = 21) := by decide
  have e : ∀ b : Bool, ∀ i, i < 32 → (putS2 (signOfBit b)).getLsbD i = (b && decide (i = 21)) := by decide
  rw [BitVec.getLsbD_and, hm i hi]
  rw [sign2Of, e _ i hi]
  by_cases h : i = 21
  · rw [h]
  · rw [decide_eq_false h, Bool.and_false, Bool.and_false]

/-- The field WIDX in its place. -/
theorem putWidx_eq (w : CmdWord) (t : Width) (h : widthOfIndex (widxOf w) = some t) : putWidx t = w &&& maskWidx := by
  have e : widthIndex t = widxOf w := by
    revert h; generalize widxOf w = x; revert x; cases t <;> decide
  rw [putWidx, e]
  exact CmdWord.ext_bits fun i hi => by
    simp only [widxOf, maskWidx]; interval_cases i <;> simp [BitVec.getLsbD_extractLsb']
/-- The opcode in its place. -/
theorem and_maskOpc {w : CmdWord} {k : Nat} (h : (opcOf w).toNat = k) (hk : k < 256) : w &&& maskOpc = BitVec.ofNat 32 k := by
  have : w &&& maskOpc = (opcOf w).setWidth 32 := CmdWord.ext_bits fun i hi => by
    simp only [opcOf, maskOpc]; interval_cases i <;> simp [BitVec.getLsbD_extractLsb']
  rw [this]; apply BitVec.eq_of_toNat_eq
  rw [BitVec.toNat_setWidth, h, BitVec.toNat_ofNat]

/-- A word with nothing outside a mask. -/
theorem CmdWord.eq_and_of_rest_zero (w m : CmdWord) (h : w &&& ~~~m = 0#32) : w = w &&& m := by
  have := congrArg (fun x => x ||| (w &&& m)) h
  simp only [BitVec.zero_or] at this
  rw [← this]
  exact CmdWord.ext_bits fun i hi => by
    simp only [BitVec.getLsbD_or, BitVec.getLsbD_and, BitVec.getLsbD_not, hi, decide_true, Bool.true_and]
    cases w.getLsbD i <;> cases m.getLsbD i <;> rfl

/-- Two masks at once. -/
theorem CmdWord.and_or (w a b : CmdWord) : w &&& (a ||| b) = (w &&& a) ||| (w &&& b) := CmdWord.ext_bits fun i hi => by
  simp only [BitVec.getLsbD_or, BitVec.getLsbD_and, Bool.and_or_distrib_left]

/-- What `ifUnusedZero` accepts. -/
theorem ifUnusedZero_ok {w free : CmdWord} {i j : Instr} (h : ifUnusedZero w free i = .ok j) : j = i ∧ w = (w &&& maskOpc) ||| (w &&& free) := by
  unfold ifUnusedZero at h
  split at h
  · rename_i hh; cases h; exact ⟨rfl, by rw [← CmdWord.and_or]; exact CmdWord.eq_and_of_rest_zero _ _ hh⟩
  · cases h

/-- What `ifWidth` accepts. -/
theorem ifWidth_ok {w free : CmdWord} {f : Width → Instr} {j : Instr} (h : ifWidth w free f = .ok j) :
    ∃ t, widthOfIndex (widxOf w) = some t ∧ j = f t ∧ w = (w &&& maskOpc) ||| (w &&& maskWidx) ||| (w &&& free) := by
  unfold ifWidth at h
  split at h
  · rename_i hh
    split at h
    · rename_i t ht; cases h; exact ⟨t, ht, rfl, by rw [← CmdWord.and_or, ← CmdWord.and_or]; exact CmdWord.eq_and_of_rest_zero _ _ hh⟩
    · cases h
  · cases h

/-- What `ifByteWidth` accepts. -/
theorem ifByteWidth_ok {w : CmdWord} {f : Width → Instr} {j : Instr} (h : ifByteWidth w f = .ok j) :
    ∃ t, widthOfIndex (widxOf w) = some t ∧ t.byteAddressable = true ∧ j = f t ∧ w = (w &&& maskOpc) ||| (w &&& maskWidx) ||| (w &&& maskS) := by
  unfold ifByteWidth at h
  split at h
  · rename_i hh
    split at h
    · rename_i ht; cases h; exact ⟨.w24, by rw [ht]; rfl, rfl, rfl, by rw [← CmdWord.and_or, ← CmdWord.and_or]; exact CmdWord.eq_and_of_rest_zero _ _ hh⟩
    · split at h
      · rename_i ht; cases h; exact ⟨.w48, by rw [ht]; rfl, rfl, rfl, by rw [← CmdWord.and_or, ← CmdWord.and_or]; exact CmdWord.eq_and_of_rest_zero _ _ hh⟩
      · cases h
  · cases h

/-- A word selects a row with the free fields `free` and the opcode `k` exactly if its opcode is `k` and nothing else is set (R86). -/
theorem selects_iff (w free : CmdWord) (k : Nat) (hk : k < 256) (hf : free &&& maskOpc = 0#32) :
    w &&& ~~~free = BitVec.ofNat 32 k ↔ (opcOf w).toNat = k ∧ w &&& ~~~(maskOpc ||| free) = 0#32 := by
  have low : ∀ i, i < 32 → (maskOpc.getLsbD i = decide (i < 8)) := by decide
  have kb : ∀ i, 8 ≤ i → i < 32 → (BitVec.ofNat 32 k).getLsbD i = false := fun i h8 hi => by
    rw [BitVec.getLsbD_ofNat]
    simp [hi]; exact Nat.testBit_lt_two_pow (lt_of_lt_of_le hk (by simpa using Nat.pow_le_pow_right (n := 2) (by decide) h8))
  have opcb : (opcOf w).toNat = k ↔ ∀ i, i < 8 → w.getLsbD i = (BitVec.ofNat 32 k).getLsbD i := by
    constructor
    · intro h i hi
      have := congrArg (fun x => BitVec.getLsbD x i) (and_maskOpc h hk)
      simp only [BitVec.getLsbD_and, low i (by omega), hi, decide_true, Bool.and_true] at this
      exact this
    · intro h
      have : opcOf w = BitVec.ofNat 8 k := BitVec.eq_of_getLsbD_eq fun i hi => by
        simp only [opcOf, BitVec.getLsbD_extractLsb', hi, decide_true, Bool.true_and, Nat.zero_add]
        rw [h i hi, BitVec.getLsbD_ofNat, BitVec.getLsbD_ofNat]; simp [hi]; omega
      rw [this, BitVec.toNat_ofNat, Nat.mod_eq_of_lt hk]
  have fb : ∀ i, i < 8 → free.getLsbD i = false := fun i hi => by
    have := congrArg (fun x => BitVec.getLsbD x i) hf
    simp only [BitVec.getLsbD_and, low i (by omega), hi, decide_true, Bool.and_true, BitVec.getLsbD_zero] at this
    exact this
  rw [opcb]
  constructor
  · intro h
    have hb : ∀ i, i < 32 → (w.getLsbD i && !free.getLsbD i) = (BitVec.ofNat 32 k).getLsbD i := fun i hi => by
      have := congrArg (fun x => BitVec.getLsbD x i) h
      simpa [BitVec.getLsbD_and, BitVec.getLsbD_not, hi] using this
    refine ⟨fun i hi => by rw [← hb i (by omega), fb i hi]; simp, CmdWord.ext_bits fun i hi => ?_⟩
    rw [BitVec.getLsbD_and, BitVec.getLsbD_not, BitVec.getLsbD_or, low i hi]
    by_cases h8 : i < 8
    · simp [h8]
    · have := hb i hi
      rw [kb i (by omega) hi] at this
      simp only [hi, h8, decide_true, decide_false, Bool.false_or, Bool.true_and, this, BitVec.getLsbD_zero]
  · rintro ⟨h1, h2⟩
    refine CmdWord.ext_bits fun i hi => ?_
    rw [BitVec.getLsbD_and, BitVec.getLsbD_not]
    by_cases h8 : i < 8
    · rw [fb i h8, h1 i h8]; simp [hi]
    · have := congrArg (fun x => BitVec.getLsbD x i) h2
      rw [BitVec.getLsbD_and, BitVec.getLsbD_not, BitVec.getLsbD_or, low i hi] at this
      rw [kb i (by omega) hi]
      simpa [hi, h8] using this

/-- The ten widths are WIDX 0 to 9 (R83). -/
theorem widthOfIndex_some (x : BitVec 4) : (∃ t, widthOfIndex x = some t) ↔ x.toNat < 10 := by
  have : ∀ x : BitVec 4, (widthOfIndex x).isSome = decide (x.toNat < 10) := by decide
  rw [← Option.isSome_iff_exists, this]; simp

/-- A smaller mask of the same word. -/
theorem CmdWord.and_mask {w m c m' : CmdWord} (h : w &&& m = c) : w &&& (m &&& m') = c &&& m' := by rw [← BitVec.and_assoc, h]

/-- The row of PBYTES (R86). -/
theorem pbytes_selects (w : CmdWord) : w &&& 0xFFEEFFFF#32 = 0x00080015#32 ↔
    (opcOf w).toNat = 0x15 ∧ w &&& ~~~(maskOpc ||| maskWidx ||| maskS) = 0#32 ∧ (widxOf w = 8#4 ∨ widxOf w = 9#4) := by
  have hS := selects_iff w (maskWidx ||| maskS) 0x15 (by decide) (by decide)
  have hx : (widxOf w = 8#4 ∨ widxOf w = 9#4) ↔ w &&& 0x000E0000#32 = 0x00080000#32 := by
    have h1 : (w &&& 0x000E0000#32) = ((widxOf w &&& 0xE#4).setWidth 32) <<< 16 := CmdWord.ext_bits fun i hi => by
      have hm : ∀ i, i < 32 → (0x000E0000#32).getLsbD i = (decide (16 ≤ i) && (0xE#4).getLsbD (i - 16)) := by decide
      simp only [widxOf, BitVec.getLsbD_and, hm i hi, BitVec.getLsbD_shiftLeft, BitVec.getLsbD_setWidth, BitVec.getLsbD_extractLsb', hi]
      by_cases h16 : i < 16
      · simp [h16]
      · have : ∀ j, 4 ≤ j → (0xE#4).getLsbD j = false := fun j hj => BitVec.getLsbD_of_ge _ _ hj
        by_cases h20 : i - 16 < 4
        · simp [h16, h20, show 16 + (i - 16) = i by omega, show 16 ≤ i by omega]; intros; omega
        · rw [this _ (by omega)]; simp
    rw [h1]; generalize widxOf w = x; revert x; decide
  rw [hx, ← BitVec.or_assoc] at *
  constructor
  · intro h
    have a1 := CmdWord.and_mask (m' := ~~~(maskWidx ||| maskS)) h
    have a2 := CmdWord.and_mask (m' := 0x000E0000#32) h
    rw [show 0xFFEEFFFF#32 &&& ~~~(maskWidx ||| maskS) = ~~~(maskWidx ||| maskS) by decide] at a1
    rw [show 0xFFEEFFFF#32 &&& 0x000E0000#32 = 0x000E0000#32 by decide] at a2
    have := hS.1 (by rw [a1]; decide)
    exact ⟨this.1, this.2, by rw [a2]; decide⟩
  · rintro ⟨h1, h2, h3⟩
    have := hS.2 ⟨h1, h2⟩
    rw [show 0xFFEEFFFF#32 = ~~~(maskWidx ||| maskS) ||| 0x000E0000#32 by decide, CmdWord.and_or, this, h3]; decide

/-- A word that selects a row has its opcode (R86). -/
theorem OpcodeRow.opc {w : CmdWord} {r : OpcodeRow} (hr : r ∈ opcodeRows) (h : r.selects w) : (opcOf w).toNat = r.pattern.toNat % 256 := by
  have hm : ∀ r ∈ opcodeRows, r.mask &&& 0xFF#32 = 0xFF#32 := by decide
  have := CmdWord.and_mask (m' := 0xFF#32) (show w &&& r.mask = r.pattern from h)
  rw [hm r hr] at this
  have e := congrArg BitVec.toNat this
  rw [BitVec.toNat_and, BitVec.toNat_and] at e
  rw [show (0xFF#32).toNat = 2 ^ 8 - 1 from rfl, Nat.and_two_pow_sub_one_eq_mod, Nat.and_two_pow_sub_one_eq_mod] at e
  rw [opcOf, BitVec.extractLsb'_toNat]; simpa using e

/-- The rows have different opcodes (R86). -/
theorem opcodeRows_inj : ∀ r ∈ opcodeRows, ∀ r' ∈ opcodeRows, r.pattern.toNat % 256 = r'.pattern.toNat % 256 → r = r' := by decide

/-- Legality, once the opcode is known (R87). -/
theorem legalWord_of_opc {w : CmdWord} {r : OpcodeRow} (hr : r ∈ opcodeRows) (ho : (opcOf w).toNat = r.pattern.toNat % 256) :
    legalWord w ↔ r.selects w ∧ (r.widxFree = true → (widxOf w).toNat < 10) := by
  constructor
  · rintro ⟨r', hr', hs, hw⟩
    have := opcodeRows_inj r' hr' r hr (by rw [← OpcodeRow.opc hr' hs, ho])
    subst this; exact ⟨hs, hw⟩
  · rintro ⟨hs, hw⟩; exact ⟨r, hr, hs, hw⟩

end Sys2Proof.Machine
end

