-- ==== Sys2Proof/Laws/Position.lean ====
section
/-! SUPPORT. Everything `align_pad`, SETPOS and RELEASE can do (spec/40_cursor.md R115, R126, R130). -/

namespace Sys2Proof.Machine

/-- The padded byte of `align_pad` (R115). -/
theorem zeroPadded_eq (st : Stream) : zeroPadded st.pend st.bitOff = st.paddedPend := by
  have ho : st.bitOff.toNat < 8 := st.bitOff.isLt
  have : 2 ^ st.bitOff.toNat ≤ 2 ^ 7 := Nat.pow_le_pow_right (by decide) (by omega)
  have hp := Nat.two_pow_pos st.bitOff.toNat
  apply BitVec.eq_of_toNat_eq
  have hm : st.pend.toNat % 2 ^ st.bitOff.toNat < 2 ^ 8 := lt_of_lt_of_le (Nat.mod_lt _ hp) (by omega)
  rw [zeroPadded, Stream.paddedPend, BitVec.toNat_and, BitVec.toNat_ofNat, BitVec.toNat_ofNat,
    Nat.mod_eq_of_lt (show 2 ^ st.bitOff.toNat - 1 < 2 ^ 8 by omega), Nat.and_two_pow_sub_one_eq_mod, Nat.mod_eq_of_lt hm]

/-- The store after a commit at BYTE_POS (R112; 20_memory.md R56). -/
theorem Stream.store_committed {cap : Nat} {st : Stream} (h : st.Inv cap) (b : Byte) :
    st.Committed b (st.store st.bytePos.toNat b) :=
  ⟨fun a => Stream.byte?_store h.memWf _ b a, rfl⟩

theorem Stream.Committed.of_same {st st1 st2 : Stream} {b : Byte} (h : st.Committed b st1) (hm : st2.mem = st1.mem)
    (hl : st2.len = st1.len) : st.Committed b st2 :=
  ⟨fun a => by rw [Stream.byte?_congr hm hl]; exact h.bytes a, by rw [hl]; exact h.len⟩

/-! ### `align_pad` (R115) -/

theorem Stream.alignPad_aligned (cap : Nat) {st : Stream} (h0 : st.bitOff = 0#3) : st.alignPad cap = .ok () st := if_pos h0

theorem Stream.alignPad_pending {cap : Nat} {st : Stream} (hc : cap < 2 ^ 61) (h0 : st.bitOff ≠ 0#3) (hp : st.hpw = true)
    (hb : st.bytePos.toNat < cap) :
    st.alignPad cap = .ok () (st.store st.bytePos.toNat st.paddedPend).atNext := by
  unfold Stream.alignPad Stream.commitIfPending
  rw [if_neg h0, if_pos hp, Stream.memWrite_of_lt hb, Res.bind_ok,
    Stream.nextByte_of_lt (by rw [Stream.store_bytePos]; omega), zeroPadded_eq]

theorem Stream.alignPad_full {cap : Nat} {st : Stream} (h0 : st.bitOff ≠ 0#3) (hp : st.hpw = true)
    (hb : cap ≤ st.bytePos.toNat) : st.alignPad cap = .stuck .storeFull := by
  unfold Stream.alignPad Stream.commitIfPending
  rw [if_neg h0, if_pos hp, Stream.memWrite_of_ge hb, Res.bind_stuck]

theorem Stream.alignPad_clean (cap : Nat) {st : Stream} (h0 : st.bitOff ≠ 0#3) (hp : st.hpw = false)
    (hb : st.bytePos.toNat + 1 < 2 ^ 61) : st.alignPad cap = .ok () st.atNext := by
  unfold Stream.alignPad Stream.commitIfPending
  rw [if_neg h0, hp, if_neg (by simp), Res.bind_ok, Stream.nextByte_of_lt hb]

theorem Stream.alignPad_overflow (cap : Nat) {st : Stream} (h0 : st.bitOff ≠ 0#3) (hp : st.hpw = false)
    (hb : ¬ st.bytePos.toNat + 1 < 2 ^ 61) : st.alignPad cap = .stuck .positionOverflow := by
  unfold Stream.alignPad Stream.commitIfPending
  rw [if_neg h0, hp, if_neg (by simp), Res.bind_ok]
  exact if_neg hb

/-! ### SETPOS (R126) -/

theorem toNat_bytePos_of_word (p : Word) : (p.extractLsb' 3 61).toNat = p.toNat / 8 := by
  rw [BitVec.extractLsb'_toNat, Nat.shiftRight_eq_div_pow]
  have := p.isLt; omega

theorem toNat_bitOff_of_word (p : Word) : (p.extractLsb' 0 3).toNat = p.toNat % 8 := by
  rw [BitVec.extractLsb'_toNat, Nat.shiftRight_zero]

@[simp] theorem Stream.moveTo_bytePos (p : Word) (st : Stream) : (st.moveTo p).bytePos = p.extractLsb' 3 61 := by
  unfold Stream.moveTo; dsimp only; split <;> rfl
@[simp] theorem Stream.moveTo_bitOff (p : Word) (st : Stream) : (st.moveTo p).bitOff = p.extractLsb' 0 3 := by
  unfold Stream.moveTo; dsimp only; split <;> rfl
@[simp] theorem Stream.moveTo_hpw (p : Word) (st : Stream) : (st.moveTo p).hpw = false := by
  unfold Stream.moveTo; dsimp only; split <;> rfl
@[simp] theorem Stream.moveTo_mem (p : Word) (st : Stream) : (st.moveTo p).mem = st.mem := by
  unfold Stream.moveTo; dsimp only; split <;> rfl
@[simp] theorem Stream.moveTo_len (p : Word) (st : Stream) : (st.moveTo p).len = st.len := by
  unfold Stream.moveTo; dsimp only; split <;> rfl

theorem Stream.moveTo_byte? (p : Word) (st : Stream) : (st.moveTo p).byte? = st.byte? := Stream.byte?_congr (by simp) (by simp)

/-- The cursor is at the position asked for. -/
theorem Stream.moveTo_pos (p : Word) (st : Stream) : (st.moveTo p).pos = p.toNat := by
  rw [Stream.pos, Stream.moveTo_bytePos, Stream.moveTo_bitOff, toNat_bytePos_of_word, toNat_bitOff_of_word]; omega

/-- The byte the cursor is then inside is latched, where it exists. -/
theorem Stream.moveTo_pend (p : Word) (st : Stream) :
    (st.moveTo p).pend = if (st.moveTo p).bitOff = 0#3 then 0#8
      else ((st.moveTo p).byte? (st.moveTo p).bytePos.toNat).getD 0#8 := by
  rw [Stream.moveTo_byte?, Stream.moveTo_bitOff, Stream.moveTo_bytePos]
  unfold Stream.moveTo
  dsimp only
  by_cases h0 : p.extractLsb' 0 3 = 0#3
  · rw [if_neg (by simp [h0]), if_pos h0]
  · by_cases hl : (p.extractLsb' 3 61).toNat < st.len
    · rw [if_pos ⟨h0, hl⟩, if_neg h0, Stream.byte?_of_lt hl]; rfl
    · rw [if_neg (by tauto), if_neg h0, Stream.byte?_of_ge (by omega)]; rfl

theorem Stream.moveTo_storePos {st : Stream} (hl : st.len < 2 ^ 61) (p : Word) :
    (st.moveTo p).storePos.toNat =
      if (st.moveTo p).bitOff ≠ 0#3 ∧ (st.moveTo p).bytePos.toNat < (st.moveTo p).len
      then (st.moveTo p).bytePos.toNat + 1 else (st.moveTo p).bytePos.toNat := by
  rw [Stream.moveTo_len, Stream.moveTo_bitOff, Stream.moveTo_bytePos]
  unfold Stream.moveTo
  dsimp only
  split
  · rename_i hh
    rw [Stream.latch_storePos, BitVec.toNat_ofNat, Nat.mod_eq_of_lt]
    have := hh.2
    dsimp only at this ⊢
    omega
  · rfl

theorem Stream.moveTo_Inv {cap : Nat} {st : Stream} (h : st.Inv cap) (p : Word) : (st.moveTo p).Inv cap where
  aligned h0 := ⟨by rw [Stream.moveTo_pend, if_pos h0], by simp⟩
  memWf := by rw [Stream.moveTo_mem]; exact h.memWf
  inStore := by rw [Stream.moveTo_mem, Stream.moveTo_len]; exact h.inStore
  lenLe := by rw [Stream.moveTo_len]; exact h.lenLe

theorem Stream.setPos_clean (cap : Nat) {st : Stream} (hp : st.hpw = false) (p : Word) :
    st.setPos cap p = .ok () (st.moveTo p) := by
  unfold Stream.setPos Stream.commitIfPending
  rw [hp, if_neg (by simp), Res.bind_ok]

theorem Stream.setPos_pending {cap : Nat} {st : Stream} (hp : st.hpw = true) (hb : st.bytePos.toNat < cap) (p : Word) :
    st.setPos cap p = .ok () ((st.store st.bytePos.toNat st.pend).moveTo p) := by
  unfold Stream.setPos Stream.commitIfPending
  rw [if_pos hp, Stream.memWrite_of_lt hb, Res.bind_ok]

theorem Stream.setPos_full {cap : Nat} {st : Stream} (hp : st.hpw = true) (hb : cap ≤ st.bytePos.toNat) (p : Word) :
    st.setPos cap p = .stuck .storeFull := by
  unfold Stream.setPos Stream.commitIfPending
  rw [if_pos hp, Stream.memWrite_of_ge hb, Res.bind_stuck]

end Sys2Proof.Machine
end

