-- ==== Sys2Proof/Laws/Invariant.lean ====
section
/-! SUPPORT. What every micro-operation keeps and what it can raise or be stuck with: the invariant of the stream (spec/10_state.md
R35), the range of BITS_LEFT (R25), and which errors of spec/60_exceptions.md R241 it can meet. -/

namespace Sys2Proof.Machine

/-- A result that keeps the invariant of the stream, raises only errors of the list and is stuck only with faults of the
list. -/
structure Res.Sound {α : Type} (cap : Nat) (errs : List ErrCode) (faults : List Fault) (r : Res α) : Prop where
  ok : ∀ a st, r = .ok a st → st.Inv cap
  raise : ∀ e, r = .raise e → e.code ∈ errs ∧ (∀ n, e = .streamUnaligned n → 1 ≤ n.toNat ∧ n.toNat ≤ 7)
  stuck : ∀ f, r = .stuck f → f ∈ faults

theorem Res.Sound.ok_intro {α : Type} {cap : Nat} {errs : List ErrCode} {faults : List Fault} {a : α} {st : Stream}
    (h : st.Inv cap) : (Res.ok a st).Sound cap errs faults :=
  ⟨fun _ _ e => by (cases e; exact h), fun _ e => (nomatch e), fun _ e => (nomatch e)⟩

theorem Res.Sound.raise_intro {α : Type} {cap : Nat} {errs : List ErrCode} {faults : List Fault} {e : Raise}
    (h : e.code ∈ errs) (hu : ∀ n, e ≠ .streamUnaligned n) : (Res.raise e : Res α).Sound cap errs faults :=
  ⟨fun _ _ e => (nomatch e), fun _ h' => by (cases h'; exact ⟨h, fun n hn => absurd hn (hu n)⟩), fun _ e => (nomatch e)⟩

theorem Res.Sound.stuck_intro {α : Type} {cap : Nat} {errs : List ErrCode} {faults : List Fault} {f : Fault}
    (h : f ∈ faults) : (Res.stuck f : Res α).Sound cap errs faults :=
  ⟨fun _ _ e => (nomatch e), fun _ e => (nomatch e), fun _ h' => by (cases h'; exact h)⟩

theorem Res.Sound.bind {α β : Type} {cap : Nat} {errs : List ErrCode} {faults : List Fault} {r : Res α}
    {f : α → Stream → Res β} (h : r.Sound cap errs faults) (hf : ∀ a st, st.Inv cap → (f a st).Sound cap errs faults) :
    (r.bind f).Sound cap errs faults := by
  cases r with
  | ok a st => exact hf a st (h.ok a st rfl)
  | raise e => exact ⟨fun _ _ e' => by simp at e', fun e' he => h.raise e' (by simpa using he), fun _ e' => by simp at e'⟩
  | stuck f' => exact ⟨fun _ _ e' => by simp at e', fun _ e' => by simp at e', fun f'' he => h.stuck f'' (by simpa using he)⟩

theorem Res.Sound.map {α β : Type} {cap : Nat} {errs : List ErrCode} {faults : List Fault} {r : Res α} (g : α → β)
    (h : r.Sound cap errs faults) : (r.map g).Sound cap errs faults := h.bind fun _ _ i => Res.Sound.ok_intro i

theorem Res.Sound.mono {α : Type} {cap : Nat} {errs errs' : List ErrCode} {faults faults' : List Fault} {r : Res α}
    (h : r.Sound cap errs faults) (he : ∀ e ∈ errs, e ∈ errs') (hf : ∀ f ∈ faults, f ∈ faults') :
    r.Sound cap errs' faults' :=
  ⟨h.ok, fun e hr => ⟨he _ (h.raise e hr).1, (h.raise e hr).2⟩, fun f hr => hf _ (h.stuck f hr)⟩

/-! ### The micro-operations -/

theorem Stream.putBits_sound {cap : Nat} {st : Stream} (h : st.Inv cap) (hc : cap < 2 ^ 61) (bits : List Bool) :
    (st.putBits cap bits).Sound cap [] [.storeFull] := by
  by_cases hr : st.room cap bits.length
  · obtain ⟨st', e, -, i⟩ := Stream.putBits_ok h hc hr
    rw [e]; exact Res.Sound.ok_intro i
  · rw [Stream.putBits_full h hc hr]; exact Res.Sound.stuck_intro (by simp)

theorem Stream.putBit_sound {cap : Nat} {st : Stream} (h : st.Inv cap) (hc : cap < 2 ^ 61) (b : Bool) :
    (st.putBit cap b).Sound cap [] [.storeFull] := by
  rw [← Stream.putBits_singleton]; exact Stream.putBits_sound h hc [b]

theorem Stream.getBit_sound {cap : Nat} {st : Stream} (h : st.Inv cap) (hc : cap < 2 ^ 61) :
    (st.getBit cap).Sound cap [.endOfStream] [.storeFull] := by
  by_cases hr : st.readRoom cap 1
  · by_cases ha : st.avail 1
    · obtain ⟨st', e, -, i⟩ := Stream.getBit_ok h hc ha hr
      rw [e]; exact Res.Sound.ok_intro i
    · rw [Stream.getBit_end ha]; exact Res.Sound.raise_intro (by simp [Raise.code]) (by simp)
  · rw [Stream.getBit_full h hr]; exact Res.Sound.stuck_intro (by simp)

theorem Stream.getBits_sound {cap : Nat} {st : Stream} (h : st.Inv cap) (hc : cap < 2 ^ 61) (n : Nat) :
    (st.getBits cap n).Sound cap [.endOfStream] [.storeFull] := by
  by_cases hr : st.readRoom cap n
  · by_cases ha : st.avail n
    · obtain ⟨st', e, -, i⟩ := Stream.getBits_ok h hc ha hr
      rw [e]; exact Res.Sound.ok_intro i
    · rw [Stream.getBits_end h hc ha hr]; exact Res.Sound.raise_intro (by simp [Raise.code]) (by simp)
  · rw [Stream.getBits_full h hc hr]; exact Res.Sound.stuck_intro (by simp)

theorem Stream.zeroRun_sound {cap : Nat} {st : Stream} (h : st.Inv cap) (hc : cap < 2 ^ 61) (left z : Nat) :
    (st.zeroRun cap left z).Sound cap [.endOfStream, .argumentRange] [.storeFull] := by
  induction left generalizing st z with
  | zero =>
    rw [Stream.zeroRun.eq_def]
    refine ((Stream.getBit_sound h hc).mono (by simp) (by simp)).bind fun b st' i => ?_
    cases b
    · exact Res.Sound.raise_intro (by simp [Raise.code]) (by simp)
    · exact Res.Sound.ok_intro i
  | succ left ih =>
    rw [Stream.zeroRun.eq_def]
    refine ((Stream.getBit_sound h hc).mono (by simp) (by simp)).bind fun b st' i => ?_
    cases b
    · exact ih i (z + 1)
    · exact Res.Sound.ok_intro i

theorem Stream.parseUe_sound {cap : Nat} {st : Stream} (h : st.Inv cap) (hc : cap < 2 ^ 61) (style : GolombStyle) :
    (st.parseUe cap style).Sound cap [.endOfStream, .argumentRange] [.storeFull] :=
  (Stream.zeroRun_sound h hc _ _).bind fun _ _ i => ((Stream.getBits_sound i hc _).mono (by simp) (by simp)).map _

theorem byteCheck_sound {cap : Nat} {st : Stream} (h : st.Inv cap) (au : Bool) :
    (byteCheck au st).Sound cap [.streamUnaligned] [] := by
  unfold byteCheck
  split
  · rename_i hh
    refine ⟨fun _ _ e => (nomatch e), fun e he => ?_, fun _ e => (nomatch e)⟩
    cases he
    refine ⟨by simp [Raise.code], fun n hn => ?_⟩
    have e : 8#4 - st.bitOff.setWidth 4 = n := by injection hn
    have : ∀ o : BitOff, o ≠ 0#3 → 1 ≤ (8#4 - o.setWidth 4).toNat ∧ (8#4 - o.setWidth 4).toNat ≤ 7 := by decide
    rw [← e]; exact this _ hh.1
  · exact Res.Sound.ok_intro h

theorem Stream.alignPad_sound {cap : Nat} {st : Stream} (h : st.Inv cap) (hc : cap < 2 ^ 61) :
    (st.alignPad cap).Sound cap [] [.storeFull, .positionOverflow] := by
  by_cases h0 : st.bitOff = 0#3
  · rw [Stream.alignPad_aligned cap h0]; exact Res.Sound.ok_intro h
  · cases hp : st.hpw with
    | true =>
      by_cases hb : st.bytePos.toNat < cap
      · rw [Stream.alignPad_pending hc h0 hp hb]
        have i := Stream.store_Inv (b := st.paddedPend) h hb
        exact Res.Sound.ok_intro (Stream.atNext_Inv i.memWf i.inStore i.lenLe)
      · rw [Stream.alignPad_full h0 hp (by omega)]; exact Res.Sound.stuck_intro (by simp)
    | false =>
      by_cases hb : st.bytePos.toNat + 1 < 2 ^ 61
      · rw [Stream.alignPad_clean cap h0 hp hb]
        exact Res.Sound.ok_intro (Stream.atNext_Inv h.memWf h.inStore h.lenLe)
      · rw [Stream.alignPad_overflow cap h0 hp hb]; exact Res.Sound.stuck_intro (by simp)

theorem Stream.setPos_sound {cap : Nat} {st : Stream} (h : st.Inv cap) (p : Word) :
    (st.setPos cap p).Sound cap [] [.storeFull] := by
  cases hp : st.hpw with
  | true =>
    by_cases hb : st.bytePos.toNat < cap
    · rw [Stream.setPos_pending hp hb]
      exact Res.Sound.ok_intro (Stream.moveTo_Inv (Stream.store_Inv h hb) p)
    · rw [Stream.setPos_full hp (by omega)]; exact Res.Sound.stuck_intro (by simp)
  | false => rw [Stream.setPos_clean cap hp]; exact Res.Sound.ok_intro (Stream.moveTo_Inv h p)

theorem Stream.rewind_Inv {cap : Nat} {st : Stream} (h : st.Inv cap) : st.rewind.Inv cap :=
  ⟨fun _ => ⟨rfl, rfl⟩, h.memWf, h.inStore, h.lenLe⟩

/-! ### The host's accesses to the store -/

theorem Stream.hostWrite_Inv {cap a : Nat} {st : Stream} (h : st.Inv cap) (ha : a < st.len) (b : Byte) :
    (st.hostWrite a b).Inv cap where
  aligned := h.aligned
  memWf := Memory.write_wf h.memWf a b
  inStore c hc := by
    rcases Memory.mem_write hc with hc | rfl
    · exact h.inStore c hc
    · exact ha
  lenLe := h.lenLe

theorem Stream.hostAppend_Inv {cap : Nat} {st : Stream} (h : st.Inv cap) (hl : st.len < cap) (b : Byte) :
    (st.hostAppend b).Inv cap where
  aligned := h.aligned
  memWf := Memory.write_wf h.memWf _ b
  inStore c hc := by
    rcases Memory.mem_write hc with hc | rfl
    · exact Nat.lt_succ_of_lt (h.inStore c hc)
    · exact Nat.lt_succ_self _
  lenLe := hl

theorem Stream.hostTruncate_Inv {cap : Nat} {st : Stream} (h : st.Inv cap) (l : Nat) : (st.hostTruncate l).Inv cap where
  aligned := h.aligned
  memWf := Memory.truncate_wf h.memWf l
  inStore c hc := by
    obtain ⟨h1, h2⟩ := List.mem_filter.1 hc
    exact lt_min (h.inStore c h1) (by simpa using h2)
  lenLe := le_trans (min_le_left _ _) h.lenLe

/-- A host write replaces one byte. -/
theorem Stream.byte?_hostWrite {st : Stream} (hm : st.mem.wf) {a : Nat} (ha : a < st.len) (b : Byte) (x : Nat) :
    (st.hostWrite a b).byte? x = if x = a then some b else st.byte? x := by
  simp only [Stream.byte?, Stream.hostWrite, Memory.read_write hm]
  split_ifs <;> first | rfl | omega

/-- A host append adds one byte at LEN. -/
theorem Stream.byte?_hostAppend {st : Stream} (hm : st.mem.wf) (b : Byte) (x : Nat) :
    (st.hostAppend b).byte? x = if x = st.len then some b else st.byte? x := by
  simp only [Stream.byte?, Stream.hostAppend, Memory.read_write hm]
  split_ifs <;> first | rfl | omega

/-- A host truncation drops the bytes at and above a length. -/
theorem Stream.byte?_hostTruncate (st : Stream) (l x : Nat) :
    (st.hostTruncate l).byte? x = if x < l then st.byte? x else none := by
  simp only [Stream.byte?, Stream.hostTruncate, Memory.read_truncate]
  split_ifs <;> first | rfl | omega

end Sys2Proof.Machine
end

