-- ==== Sys2Proof/Laws/Exec.lean ====
section
/-! SUPPORT. Everything one command can do, said once (spec/60_exceptions.md R241 to R243; spec/10_state.md R33). -/

namespace Sys2Proof.Machine

/-- The errors a command can raise (60_exceptions.md R241). -/
def errsOf : Instr → List ErrCode
  | .wrbit | .align | .setpos | .release | .pwr _ _ _ | .pfmt _ _ _ | .pval _ _ | .peq _ _ _ | .wrue | .wrse | .wrte | .pbytes _ _ => []
  | .wrbits _ | .pbit _ _ => [.argumentRange]
  | .rdbit _ | .skipbits | .prd _ _ _ => [.endOfStream]
  | .rdbits _ _ | .rdue _ | .rdse _ | .rdte _ => [.endOfStream, .argumentRange]
  | .wrbytes _ => [.argumentRange, .streamUnaligned]
  | .rdbytes _ _ => [.argumentRange, .streamUnaligned, .endOfStream]
  | .skipbytes => [.streamUnaligned, .endOfStream]

/-- Everything a well-formed command can do: it is a result given to `State.finish` that keeps the invariant of the stream and
raises only the errors of `errsOf`; and its results go to RES0 and RES1 alone. -/
theorem exec_sound {i : Instr} {s : State} (h : s.Inv) (hi : i.wf = true) :
    ∃ (α : Type) (p : Bool) (r : Res α) (d : α → State → State), exec i s = s.finish p r d ∧
      r.Sound s.cfg.storeCap (errsOf i) [.storeFull, .positionOverflow] ∧ (∀ a st, (d a { s with stream := st }).clearStatus = s.done st (d a s).res0 (d a s).res1) := by
  have hc := h.cap_lt
  have hs := h.stream
  have rs : (readUe s).Sound s.cfg.storeCap [.endOfStream, .argumentRange] [.storeFull, .positionOverflow] := by
    refine ((Stream.parseUe_sound hs hc _).mono (by simp) (by simp)).bind fun a st i => ?_
    split
    · exact Res.Sound.raise_intro (by simp [Raise.code]) (by simp)
    · exact Res.Sound.ok_intro i
  have em : ∀ c, (emitUe s c).Sound s.cfg.storeCap [] [.storeFull, .positionOverflow] := fun c =>
    ((Stream.putBits_sound hs hc _).mono (by simp) (by simp)).map _
  cases i with
  | wrbit => exact ⟨_, _, _, _, rfl, (Stream.putBit_sound hs hc _).mono (by simp) (by simp), fun _ _ => rfl⟩
  | wrbits n =>
    refine ⟨_, _, _, _, rfl, ?_, fun _ _ => rfl⟩
    split
    · exact Res.Sound.raise_intro (by simp [Raise.code, errsOf]) (by simp)
    · exact (Stream.putBits_sound hs hc _).mono (by simp) (by simp)
  | rdbit p => exact ⟨_, _, _, _, rfl, (Stream.getBit_sound hs hc).mono (by simp [errsOf]) (by simp), fun _ _ => rfl⟩
  | rdbits n p =>
    refine ⟨_, _, _, _, rfl, ?_, fun _ _ => rfl⟩
    split
    · exact Res.Sound.raise_intro (by simp [Raise.code, errsOf]) (by simp)
    · exact (Stream.getBits_sound hs hc _).mono (by simp [errsOf]) (by simp)
  | wrbytes n =>
    refine ⟨_, _, _, _, rfl, ?_, fun _ _ => rfl⟩
    split
    · exact Res.Sound.raise_intro (by simp [Raise.code, errsOf]) (by simp)
    · exact ((byteCheck_sound hs _).mono (by simp [errsOf]) (by simp)).bind fun _ _ i => (Stream.putBits_sound i hc _).mono (by simp) (by simp)
  | rdbytes n p =>
    refine ⟨_, _, _, _, rfl, ?_, fun _ _ => rfl⟩
    split
    · exact Res.Sound.raise_intro (by simp [Raise.code, errsOf]) (by simp)
    · exact ((byteCheck_sound hs _).mono (by simp [errsOf]) (by simp)).bind fun _ _ i => (Stream.getBits_sound i hc _).mono (by simp [errsOf]) (by simp)
  | align => exact ⟨_, _, _, _, rfl, Stream.alignPad_sound hs hc, fun _ _ => rfl⟩
  | setpos => exact ⟨_, _, _, _, rfl, (Stream.setPos_sound hs _).mono (by simp) (by simp), fun _ _ => rfl⟩
  | skipbits => exact ⟨_, _, _, _, rfl, (Stream.getBits_sound hs hc _).mono (by simp [errsOf]) (by simp), fun _ _ => rfl⟩
  | skipbytes => exact ⟨_, _, _, _, rfl, ((byteCheck_sound hs _).mono (by simp [errsOf]) (by simp)).bind fun _ _ i => (Stream.getBits_sound i hc _).mono (by simp [errsOf]) (by simp), fun _ _ => rfl⟩
  | release => exact ⟨_, _, _, _, rfl, (Stream.alignPad_sound hs hc).bind fun _ _ i => Res.Sound.ok_intro (Stream.rewind_Inv i), fun _ _ => rfl⟩
  | pwr t sg sg2 => exact ⟨_, _, _, _, rfl, (Stream.putBits_sound hs hc _).mono (by simp) (by simp), fun _ _ => rfl⟩
  | prd t sg p => exact ⟨_, _, _, _, rfl, (Stream.getBits_sound hs hc _).mono (by simp [errsOf]) (by simp), fun _ _ => rfl⟩
  | pfmt t sg sg2 => exact ⟨_, _, _, _, rfl, Res.Sound.ok_intro hs, fun _ _ => rfl⟩
  | pval t sg => exact ⟨_, _, _, _, rfl, Res.Sound.ok_intro hs, fun _ _ => rfl⟩
  | pbit t sg =>
    refine ⟨_, _, _, _, rfl, ?_, fun _ _ => rfl⟩
    split
    · exact Res.Sound.raise_intro (by simp [Raise.code, errsOf]) (by simp)
    · exact Res.Sound.ok_intro hs
  | pbytes t sg =>
    refine ⟨_, _, _, _, rfl, ?_, fun _ _ => rfl⟩
    rw [if_pos (by simpa [Instr.wf] using hi)]
    exact Res.Sound.ok_intro hs
  | peq t sa sb => exact ⟨_, _, _, _, rfl, Res.Sound.ok_intro hs, fun _ _ => rfl⟩
  | wrue => exact ⟨_, _, _, _, rfl, em _, fun _ _ => rfl⟩
  | rdue p => exact ⟨_, _, _, _, rfl, rs, fun _ _ => rfl⟩
  | wrse => exact ⟨_, _, _, _, rfl, em _, fun _ _ => rfl⟩
  | rdse p =>
    refine ⟨_, _, _, _, rfl, ?_, fun _ _ => rfl⟩
    refine ((Stream.parseUe_sound hs hc _).mono (by simp [errsOf]) (by simp)).bind fun a st i => ?_
    dsimp only
    split
    · exact Res.Sound.raise_intro (by simp [Raise.code, errsOf]) (by simp)
    · exact Res.Sound.ok_intro i
  | wrte =>
    refine ⟨_, _, _, _, rfl, ?_, fun _ _ => rfl⟩
    split
    · exact em _
    · exact ((Stream.putBit_sound hs hc _).mono (by simp) (by simp)).map _
  | rdte p =>
    refine ⟨_, _, _, _, rfl, ?_, fun _ _ => rfl⟩
    split
    · exact rs
    · exact ((Stream.getBit_sound hs hc).mono (by simp [errsOf]) (by simp)).map _

end Sys2Proof.Machine
end

