-- ==== Sys2Proof/Laws/PerInstr.lean ====
section
/-! SUPPORT. Per instruction: the word of a well-formed command is a legal command word, so a row of the opcode table selects
it and its WIDX is below 10 (spec/30_encoding.md R86, R87). -/

namespace Sys2Proof.Laws.EncodesLegally

open Sys2Proof.Machine

/-- The word of the command, if it is well formed, is legal. -/
def Statement (i : Instr) : Prop := i.wf = true → legalWord (encode i)

theorem wrbit : Statement .wrbit := fun _ => by
  unfold legalWord OpcodeRow.selects; decide
theorem wrbits (n : BitVec 7) : Statement (.wrbits n) := fun _ => by
  unfold legalWord OpcodeRow.selects; revert n; decide +kernel
theorem rdbit (p : Bool) : Statement (.rdbit p) := by
  unfold Statement legalWord OpcodeRow.selects; cases p <;> decide
theorem rdbits (n : BitVec 7) (p : Bool) : Statement (.rdbits n p) := fun _ => by
  unfold legalWord OpcodeRow.selects; revert n p; decide +kernel
theorem wrbytes (n : BitVec 7) : Statement (.wrbytes n) := fun _ => by
  unfold legalWord OpcodeRow.selects; revert n; decide +kernel
theorem rdbytes (n : BitVec 7) (p : Bool) : Statement (.rdbytes n p) := fun _ => by
  unfold legalWord OpcodeRow.selects; revert n p; decide +kernel
theorem align : Statement .align := fun _ => by
  unfold legalWord OpcodeRow.selects; decide
theorem setpos : Statement .setpos := fun _ => by
  unfold legalWord OpcodeRow.selects; decide
theorem skipbits : Statement .skipbits := fun _ => by
  unfold legalWord OpcodeRow.selects; decide
theorem skipbytes : Statement .skipbytes := fun _ => by
  unfold legalWord OpcodeRow.selects; decide
theorem release : Statement .release := fun _ => by
  unfold legalWord OpcodeRow.selects; decide
theorem pwr (t : Width) (s : Sign) (s2 : Sign) : Statement (.pwr t s s2) := by
  unfold Statement legalWord OpcodeRow.selects; cases t <;> cases s <;> cases s2 <;> decide
theorem prd (t : Width) (s : Sign) (p : Bool) : Statement (.prd t s p) := by
  unfold Statement legalWord OpcodeRow.selects; cases t <;> cases s <;> cases p <;> decide
theorem pfmt (t : Width) (s : Sign) (s2 : Sign) : Statement (.pfmt t s s2) := by
  unfold Statement legalWord OpcodeRow.selects; cases t <;> cases s <;> cases s2 <;> decide
theorem pval (t : Width) (s : Sign) : Statement (.pval t s) := by
  unfold Statement legalWord OpcodeRow.selects; cases t <;> cases s <;> decide
theorem pbit (t : Width) (s : Sign) : Statement (.pbit t s) := by
  unfold Statement legalWord OpcodeRow.selects; cases t <;> cases s <;> decide
theorem pbytes (t : Width) (s : Sign) : Statement (.pbytes t s) := by
  unfold Statement legalWord OpcodeRow.selects; cases t <;> cases s <;> decide
theorem peq (t : Width) (s : Sign) (s2 : Sign) : Statement (.peq t s s2) := by
  unfold Statement legalWord OpcodeRow.selects; cases t <;> cases s <;> cases s2 <;> decide
theorem wrue : Statement .wrue := fun _ => by
  unfold legalWord OpcodeRow.selects; decide
theorem rdue (p : Bool) : Statement (.rdue p) := by
  unfold Statement legalWord OpcodeRow.selects; cases p <;> decide
theorem wrse : Statement .wrse := fun _ => by
  unfold legalWord OpcodeRow.selects; decide
theorem rdse (p : Bool) : Statement (.rdse p) := by
  unfold Statement legalWord OpcodeRow.selects; cases p <;> decide
theorem wrte : Statement .wrte := fun _ => by
  unfold legalWord OpcodeRow.selects; decide
theorem rdte (p : Bool) : Statement (.rdte p) := by
  unfold Statement legalWord OpcodeRow.selects; cases p <;> decide

end Sys2Proof.Laws.EncodesLegally
end

