-- ==== Sys2Proof/Laws/RoundTrip.lean ====
section
/-! SUPPORT. Writing a run of bits and going back to its start with SETPOS: the bits stand in the store, and they can be
read (spec/20_memory.md R58; spec/40_cursor.md R114, R126, R129). -/

namespace Sys2Proof.Machine

/-- After SETPOS every bit is the store's. -/
theorem Stream.moveTo_bitAt (p : Word) (st : Stream) (k : Nat) :
    (st.moveTo p).bitAt k = ((st.byte? (k / 8)).getD 0#8).getLsbD (k % 8) := by
  by_cases h : (st.moveTo p).bitOff ≠ 0#3 ∧ k / 8 = (st.moveTo p).bytePos.toNat
  · rw [Stream.bitAt_inside h.1 h.2, Stream.moveTo_pend, if_neg h.1, Stream.moveTo_byte?, ← h.2]
  · rw [Stream.bitAt_outside (by tauto), Stream.moveTo_byte?]

/-- A commit of PEND as it stands keeps every bit (R126). -/
theorem Stream.store_pend_bitAt {cap : Nat} {st : Stream} (h : st.Inv cap) (h0 : st.bitOff ≠ 0#3) (k : Nat) :
    (((st.store st.bytePos.toNat st.pend).byte? (k / 8)).getD 0#8).getLsbD (k % 8) = st.bitAt k := by
  rw [Stream.byte?_store h.memWf]
  by_cases hk : k / 8 = st.bytePos.toNat
  · rw [if_pos hk, Stream.bitAt_inside h0 hk]; rfl
  · rw [if_neg hk, Stream.bitAt_outside (.inr hk)]
    by_cases hl : k / 8 < st.len
    · rw [if_pos hl]
    · rw [if_neg hl, Stream.byte?_of_ge (by omega)]
      split <;> rfl

/-- Writing `bits` and going back to the position `p` where the first of them stands. -/
theorem Stream.write_then_seek {cap : Nat} {st : Stream} {bits : List Bool} (h : st.Inv cap) (hc : cap < 2 ^ 61)
    (hr : st.roomToFlush cap bits.length) {p : Word} (hp : p.toNat = st.pos) :
    ∃ st1 st2, st.putBits cap bits = .ok () st1 ∧ st1.setPos cap p = .ok () st2 ∧ st1.Inv cap ∧ st2.Inv cap ∧
      st2.pos = st.pos ∧ st2.hpw = false ∧ (∀ i, i < bits.length → st2.bitAt (st.pos + i) = bits.getD i false) ∧
      ∀ n, n ≤ bits.length → st2.avail n ∧ st2.readRoom cap n := by
  unfold Stream.roomToFlush at hr
  have hroom : st.room cap bits.length := by unfold Stream.room; omega
  obtain ⟨st1, e, w, i1⟩ := Stream.putBits_ok h hc hroom
  have wp := w.pos
  have wh := w.hpw
  have wl := w.len
  have d0 := st.pos_div; have m0 := st.pos_mod
  have d1 := st1.pos_div; have m1 := st1.pos_mod
  simp only [BytePos.eq_iff] at wl
  -- what `setPos` leaves
  obtain ⟨st2, e2, i2, p2, hp2, b2, l2⟩ : ∃ st2, st1.setPos cap p = .ok () st2 ∧ st2.Inv cap ∧ st2.pos = st.pos ∧
      st2.hpw = false ∧ (bits ≠ [] → ∀ k, st2.bitAt k = st1.bitAt k) ∧
      st2.len = if st1.hpw = true then max st1.len (st1.bytePos.toNat + 1) else st1.len := by
    cases hh : st1.hpw with
    | true =>
      have h0 : st1.bitOff ≠ 0#3 := fun h0 => by have := (i1.aligned h0).2; rw [hh] at this; exact absurd this (by decide)
      have hb : st1.bytePos.toNat < cap := by
        have : st1.bitOff.toNat ≠ 0 := fun h => h0 ((BitOff.eq_zero_iff _).2 h)
        omega
      refine ⟨_, Stream.setPos_pending hh hb p, Stream.moveTo_Inv (Stream.store_Inv i1 hb) p,
        by rw [Stream.moveTo_pos, hp], by simp, fun _ k => ?_, by simp⟩
      rw [Stream.moveTo_bitAt, Stream.store_pend_bitAt i1 h0]
    | false =>
      refine ⟨_, Stream.setPos_clean cap hh p, Stream.moveTo_Inv i1 p, by rw [Stream.moveTo_pos, hp], by simp,
        fun hne k => ?_, by simp⟩
      rw [Stream.moveTo_bitAt, Stream.bitAt_outside]
      rw [hh] at wh
      left
      by_contra h0
      simp [h0, hne] at wh
  refine ⟨st1, st2, e, e2, i1, i2, p2, hp2, fun i hi => ?_, fun n hn => ⟨?_, fun hp => ?_⟩⟩
  · rw [b2 (by rintro rfl; simp at hi)]; exact w.written i hi
  · unfold Stream.avail
    rcases Nat.eq_zero_or_pos n with h0 | h0
    · exact .inl h0
    · right; right
      have hne : bits ≠ [] := by rintro rfl; simp at hn; omega
      rw [p2, l2]
      by_cases hb : st1.bitOff.toNat = 0
      · have hle : st1.bytePos.toNat ≤ st1.len := by rw [wl]; split_ifs <;> omega
        split_ifs <;> omega
      · have : st1.bitOff ≠ 0#3 := fun h => hb ((BitOff.eq_zero_iff _).1 h)
        rw [if_pos (by rw [wh]; simp [this, hne])]
        omega
  · rw [hp2] at hp; exact absurd hp (by decide)

/-- The bits of a field, written and read back, are the field. -/
theorem Stream.fieldNat_of_bits {st : Stream} (f : Nat → Bool) {n : Nat} {q : Nat} (hq : st.pos = q)
    (h : ∀ i, i < n → st.bitAt (q + i) = f i) {x : Nat} (hx : ∀ i, i < n → x.testBit i = f i) : st.fieldNat n = x % 2 ^ n := by
  apply Nat.eq_of_testBit_eq
  intro j
  rw [Stream.fieldNat_testBit, Nat.testBit_mod_two_pow]
  by_cases hj : j < n
  · rw [hq, h j hj, hx j hj]
  · simp [hj]

/-- A code written at the cursor is the code that stands there (R202, R205, R206). -/
theorem Stream.code_of_bits {st : Stream} {style : GolombStyle} {c q : Nat} (hc : c ≤ 2 ^ 32) (hs : style = .compat → c ≠ 0) (hq : st.pos = q)
    (hb : ∀ i, i < codeLength style c → st.bitAt (q + i) = (codeBits style c).getD i false) :
    ∃ z, z ≤ zeroLimit style ∧ st.zerosThenOne z ∧ codeSpan style z = codeLength style c ∧ st.codeAt style z = c ∧
      2 * z + 1 = if style = .standard then codeLength style c else codeLength style c - 1 := by
  have hx1 : 2 ^ (c + 1).log2 ≤ c + 1 := Nat.log2_self_le (by omega)
  have hx2 : c + 1 < 2 ^ ((c + 1).log2 + 1) := Nat.lt_log2_self
  have hm : (c + 1).log2 ≤ 32 := by
    by_contra hcon
    have : 2 ^ 33 ≤ 2 ^ (c + 1).log2 := Nat.pow_le_pow_right (by decide) (by omega)
    omega
  have hm0 : style = .compat → 1 ≤ (c + 1).log2 := fun h => by
    have := hs h
    by_contra hcon
    rw [show (c + 1).log2 = 0 by omega] at hx2
    omega
  set m := (c + 1).log2 with hmdef
  have top : (c + 1).testBit m = true := by
    rw [Nat.testBit_eq_decide_div_mod_eq]
    have : (c + 1) / 2 ^ m = 1 := by
      rw [Nat.div_eq_iff (Nat.two_pow_pos m)]; rw [Nat.pow_succ] at hx2; omega
    rw [this]; rfl
  have high : ∀ j, m < j → (c + 1).testBit j = false := fun j hj =>
    Nat.testBit_lt_two_pow (lt_of_lt_of_le hx2 (Nat.pow_le_pow_right (by decide) (by omega)))
  have hbits : ∀ i, i < codeLength style c → st.bitAt (q + i) = (c + 1).testBit (codeLength style c - 1 - i) := fun i hi => by
    rw [hb i hi, codeBits, getD_range_map _ hi]
  -- number of zeros
  obtain ⟨z, hzm, hL, hS⟩ : ∃ z, (style = .standard → z = m) ∧ codeLength style c = z + 1 + m ∧ suffixBits style z = m := by
    cases style with
    | standard => exact ⟨m, fun _ => rfl, by simp only [codeLength, ← hmdef]; omega, rfl⟩
    | compat =>
      have := hm0 rfl
      exact ⟨m - 1, fun h => by simp at h, by simp only [codeLength, ← hmdef]; omega, by simp only [suffixBits]; omega⟩
  refine ⟨z, ?_, ⟨fun j hj => ?_, ?_⟩, by rw [codeSpan, hS, hL], ?_, ?_⟩
  · cases style with
    | standard => rw [hzm rfl]; exact hm
    | compat => simp only [suffixBits] at hS; simp only [zeroLimit]; omega
  · rw [hq, hbits j (by omega)]; exact high _ (by omega)
  · rw [hq, hbits z (by omega), show codeLength style c - 1 - z = m by omega]; exact top
  · rw [Stream.codeAt, Stream.msbNat, hS, hq]
    have : ((List.range m).map fun j => if st.bitAt (q + z + 1 + j) = true then 2 ^ (m - 1 - j) else 0) =
        (List.range m).map fun j => if (c + 1).testBit (m - 1 - j) = true then 2 ^ (m - 1 - j) else 0 := by
      refine List.map_congr_left fun j hj => ?_
      rw [List.mem_range] at hj
      rw [show q + z + 1 + j = q + (z + 1 + j) by omega, hbits _ (by omega), show codeLength style c - 1 - (z + 1 + j) = m - 1 - j by omega]
    rw [this]
    have hsum : ∀ k x : Nat, ((List.range k).map fun j => if x.testBit (k - 1 - j) = true then 2 ^ (k - 1 - j) else 0).sum = x % 2 ^ k := by
      intro k x
      induction k with
      | zero => simp [Nat.mod_one]
      | succ k ih =>
        rw [List.range_succ_eq_map, List.map_cons, List.sum_cons, List.map_map, mod_two_pow_succ_testBit]
        rw [show ((fun j => if x.testBit (k + 1 - 1 - j) = true then 2 ^ (k + 1 - 1 - j) else 0) ∘ Nat.succ) =
          fun j => if x.testBit (k - 1 - j) = true then 2 ^ (k - 1 - j) else 0 by
            funext j; simp only [Function.comp, Nat.succ_eq_add_one]; rw [show k + 1 - 1 - (j + 1) = k - 1 - j by omega], ih]
        simp only [Nat.add_sub_cancel, Nat.sub_zero]
        cases x.testBit k <;> simp; omega
    rw [hsum]
    have : (c + 1) % 2 ^ m = c + 1 - 2 ^ m := by
      rw [Nat.mod_eq_sub_mod hx1, Nat.mod_eq_of_lt]
      rw [Nat.pow_succ] at hx2; omega
    omega
  · cases style with
    | standard => rw [if_pos rfl, hL, hzm rfl]; omega
    | compat =>
      rw [if_neg (by simp), hL]; simp only [suffixBits] at hS; omega

/-- The byte at an address is the one its stream bits spell, where the cursor is not inside it. -/
theorem Stream.byte?_of_bits {st : Stream} {a : Nat} {b : Byte} (ho : st.bitOff = 0#3 ∨ a ≠ st.bytePos.toNat)
    (hx : (st.byte? a).isSome) (hb : ∀ i, i < 8 → st.bitAt (a * 8 + i) = b.getLsbD i) : st.byte? a = some b := by
  obtain ⟨c, hc⟩ := Option.isSome_iff_exists.1 hx
  rw [hc]
  congr 1
  apply BitVec.eq_of_getLsbD_eq
  intro i hi
  rw [← hb i hi, Stream.bitAt_outside, show (a * 8 + i) / 8 = a by omega, show (a * 8 + i) % 8 = i by omega, hc]
  · rfl
  · rw [show (a * 8 + i) / 8 = a by omega]; exact ho

/-- POS as a word is the position of the cursor (10_state.md R27). -/
theorem State.posWord_toNat (s : State) : s.posWord.toNat = s.stream.pos := by
  have := s.stream.bitOff_lt
  rw [State.posWord, BitVec.toNat_append, Stream.pos, Nat.shiftLeft_eq, Nat.mul_comm,
    ← Nat.two_pow_add_eq_or_of_lt (show s.stream.bitOff.toNat < 2 ^ 3 by omega)]

end Sys2Proof.Machine
end

