-- ==== Sys2Proof/Tests/Slice0.lean ====
section
/-! SUPPORT. The package's own tests: ill-formed commands, words written out from spec/30_encoding.md, one step per command
with the result the spec's own example gives, and a witness for every hypothesis of an obligation. -/

open Sys2Proof Sys2Proof.Machine

namespace Sys2Proof.Tests

/-! ### WellFormed (R86, R174): the one check -/

theorem test_pbytes_w2_ill_formed : (Instr.pbytes .w2 .unsigned).wf = false := by decide
theorem test_pbytes_w12_ill_formed : (Instr.pbytes .w12 .signed).wf = false := by decide
theorem test_pbytes_w24_well_formed : (Instr.pbytes .w24 .signed).wf = true := by decide

/-! ### Words written out from the fields of R81: OPC 7:0, N 14:8, P 15, WIDX 19:16, S 20, S2 21 -/

/-- Does a word decode to a command? -/
def decodesTo (w : CmdWord) (i : Instr) : Bool := decodeTableWord 32 w.toNat = some i

theorem test_word_wrbit : decodesTo 0b00000000_00000000_00000000_00000001#32 .wrbit := by decide
theorem test_word_wrbits_4 : decodesTo 0b00000000_00000000_00000100_00000010#32 (.wrbits 4#7) := by decide
theorem test_word_rdbit_peek : decodesTo 0b00000000_00000000_10000000_00000011#32 (.rdbit true) := by decide
theorem test_word_rdbits_127_peek : decodesTo 0b00000000_00000000_11111111_00000100#32 (.rdbits 127#7 true) := by decide
theorem test_word_wrbytes_8 : decodesTo 0b00000000_00000000_00001000_00000101#32 (.wrbytes 8#7) := by decide
theorem test_word_rdbytes_1 : decodesTo 0b00000000_00000000_00000001_00000110#32 (.rdbytes 1#7 false) := by decide
theorem test_word_align : decodesTo 0b00000000_00000000_00000000_00000111#32 .align := by decide
theorem test_word_setpos : decodesTo 0b00000000_00000000_00000000_00001000#32 .setpos := by decide
theorem test_word_skipbits : decodesTo 0b00000000_00000000_00000000_00001001#32 .skipbits := by decide
theorem test_word_skipbytes : decodesTo 0b00000000_00000000_00000000_00001010#32 .skipbytes := by decide
theorem test_word_release : decodesTo 0b00000000_00000000_00000000_00001011#32 .release := by decide
theorem test_word_pwr_int4_signed : decodesTo 0b00000000_00110010_00000000_00010000#32 (.pwr .w4 .signed .signed) := by decide
theorem test_word_prd_int12_peek : decodesTo 0b00000000_00010111_10000000_00010001#32 (.prd .w12 .signed true) := by decide
theorem test_word_pfmt_uint4_unsigned : decodesTo 0b00000000_00000010_00000000_00010010#32 (.pfmt .w4 .unsigned .unsigned) := by
  decide
theorem test_word_pval_int2 : decodesTo 0b00000000_00010000_00000000_00010011#32 (.pval .w2 .signed) := by decide
theorem test_word_pbit_uint10 : decodesTo 0b00000000_00000110_00000000_00010100#32 (.pbit .w10 .unsigned) := by decide
theorem test_word_pbytes_int48 : decodesTo 0b00000000_00011001_00000000_00010101#32 (.pbytes .w48 .signed) := by decide
theorem test_word_peq_int3_uint3 : decodesTo 0b00000000_00010001_00000000_00010110#32 (.peq .w3 .signed .unsigned) := by decide
theorem test_word_wrue : decodesTo 0b00000000_00000000_00000000_00100000#32 .wrue := by decide
theorem test_word_rdue_peek : decodesTo 0b00000000_00000000_10000000_00100001#32 (.rdue true) := by decide
theorem test_word_wrse : decodesTo 0b00000000_00000000_00000000_00100010#32 .wrse := by decide
theorem test_word_rdse : decodesTo 0b00000000_00000000_00000000_00100011#32 (.rdse false) := by decide
theorem test_word_wrte : decodesTo 0b00000000_00000000_00000000_00100100#32 .wrte := by decide
theorem test_word_rdte_peek : decodesTo 0b00000000_00000000_10000000_00100101#32 (.rdte true) := by decide

/-- R87, V19, V20: an unassigned opcode, a field the opcode does not use, a reserved bit, WIDX 10. -/
theorem test_word_opcode_0c_illegal : decodeTableWord 32 0x0000000C = none := by decide
theorem test_word_wrbit_with_n_illegal : decodeTableWord 32 0x00000101 = none := by decide
theorem test_word_bit_22_illegal : decodeTableWord 32 0x00400001 = none := by decide
theorem test_word_pval_widx_10_illegal : decodeTableWord 32 0x000A0013 = none := by decide
theorem test_word_pbytes_widx_7_illegal : decodeTableWord 32 0x00070015 = none := by decide

/-! ### Small states -/

/-- A store of the given bytes. -/
def memOf (a : Nat) : List Nat → Memory
  | [] => []
  | b :: rest => if b % 256 = 0 then memOf (a + 1) rest else (a, BitVec.ofNat 8 b) :: memOf (a + 1) rest

/-- A state over the given bytes with the cursor at a bit position, the byte under it latched as SETPOS does (R126). -/
def holding (bytes : List Nat) (pos : Nat) (arg0 : Int := 0) (arg1 : Nat := 0) : State :=
  { State.resetWith { storeCap := 16, initAu := false } with
    stream := (Stream.resetOver (memOf 0 bytes) bytes.length).moveTo (BitVec.ofNat 64 pos)
    arg0 := BitVec.ofInt 64 arg0, arg1 := BitVec.ofNat 64 arg1 }

/-- The same with bits pending in the byte under the cursor. -/
def pending (bytes : List Nat) (pos pend : Nat) (arg0 : Int := 0) (arg1 : Nat := 0) : State :=
  { holding bytes pos arg0 arg1 with
    stream := { (holding bytes pos).stream with pend := BitVec.ofNat 8 pend, hpw := true } }

/-- The COMPAT code style. -/
def compat (s : State) : State := { s with gmode := .compat }

/-- Unaligned byte commands allowed. -/
def allow (s : State) : State := { s with au := true }

/-- A capacity of one byte, the cursor at the last bit of the byte above it, bits pending: every commit is stuck. -/
def full (arg0 : Int := 0) (arg1 : Nat := 0) : State :=
  { holding [] 0 arg0 arg1 with
    cfg := { storeCap := 1, initAu := false }
    stream := { Stream.resetOver [] 0 with bytePos := 1#61, bitOff := 7#3, hpw := true } }

/-- `full` with a 1 pending at the cursor: a whole code of one bit, whose read is stuck. -/
def fullOne (arg0 : Int := 0) (arg1 : Nat := 0) : State :=
  { full arg0 arg1 with stream := { (full arg0 arg1).stream with pend := 0x80#8 } }

/-- The cursor inside the last byte address, nothing pending. -/
def last : State :=
  { holding [] 0 with stream := { Stream.resetOver [] 0 with bytePos := BitVec.ofNat 61 (2 ^ 61 - 1), bitOff := 3#3 } }

/-- The next state, if there is one. -/
def next? : Host.Outcome State Fault Refusal → Option State
  | .next s => some s
  | .fault _ | .refused _ => none

/-- The fault, if there is one. -/
def fault? : Host.Outcome State Fault Refusal → Option Fault
  | .fault f => some f
  | .next _ | .refused _ => none

/-- A property of the next state. -/
def gives (i : Instr) (s : State) (p : State → Bool) : Bool := ((next? (exec i s)).map p).getD false

/-- The cursor as one view: POS, PEND, HPW, STORE_POS. -/
def cursor (s : State) (pos pend : Nat) (hpw : Bool) (storePos : Nat) : Bool :=
  s.stream.bytePos.toNat * 8 + s.stream.bitOff.toNat = pos && s.stream.pend = BitVec.ofNat 8 pend && s.stream.hpw = hpw &&
    s.stream.storePos.toNat = storePos

/-- The bytes of the store. -/
def stores (s : State) (bytes : List Nat) : Bool := s.stream.mem = memOf 0 bytes && s.stream.len = bytes.length

/-! ### One step per command, from the spec's examples -/

/-- R117's example. -/
theorem test_wrbit : gives .wrbit (holding [] 0 1) fun s => cursor s 1 0x01 true 0 && stores s [] := by decide
/-- R118's example, its second command. -/
theorem test_wrbits : gives (.wrbits 4#7) (pending [] 2 2 7) fun s => cursor s 6 0x1E true 0 := by decide
/-- R118: N > 64. -/
theorem test_wrbits_65 : gives (.wrbits 65#7) (pending [] 2 2 7) fun s => s.err = .argumentRange && cursor s 2 2 true 0 := by
  decide
/-- R119's example. -/
theorem test_rdbit : gives (.rdbit false) (holding [0x1E] 0) fun s => s.res0 = 0#64 && cursor s 1 0x1E false 1 := by decide
/-- R120's example, its third command. -/
theorem test_rdbits : gives (.rdbits 12#7 false) (holding [0x5E, 0x39, 0x97] 6) fun s =>
    s.res0 = 0xCE5#64 && cursor s 18 0x97 false 3 := by decide
/-- R131: the peek keeps the cursor and STORE_POS. -/
theorem test_rdbits_peek : gives (.rdbits 2#7 true) (holding [0x5E] 0) fun s => s.res0 = 2#64 && cursor s 0 0 false 0 := by decide
/-- R121's example. -/
theorem test_wrbytes_unaligned : gives (.wrbytes 1#7) (pending [] 6 0x1E 0xFF) fun s =>
    s.err = .streamUnaligned && s.bitsLeft = 2#4 && cursor s 6 0x1E true 0 := by decide
/-- R124: 0xFF shifted by two bits is 0xFC and 0x03. -/
theorem test_wrbytes_shift : gives (.wrbytes 1#7) (allow (pending [] 2 0 0xFF)) fun s =>
    stores s [0xFC] && cursor s 10 0x03 true 1 := by decide
/-- R122's example. -/
theorem test_rdbytes : gives (.rdbytes 2#7 false) (holding [0x5E, 0x39, 0x97] 8) fun s =>
    s.res0 = 0x9739#64 && cursor s 24 0 false 3 := by decide
/-- R245's example: the count before the alignment. -/
theorem test_rdbytes_9 : gives (.rdbytes 9#7 false) (holding [0x5E] 3) fun s => s.err = .argumentRange := by decide
/-- R125's example. -/
theorem test_align : gives .align (pending [] 6 0x1E) fun s => stores s [0x1E] && cursor s 8 0 false 1 := by decide
/-- R126's example. -/
theorem test_setpos : gives .setpos (holding [0x5E, 0x39] 0 10) fun s => cursor s 10 0x39 false 2 := by decide
/-- R127's example, its first command. -/
theorem test_skipbits : gives .skipbits (holding [0x5E, 0x39] 0 6) fun s => cursor s 6 0x5E false 1 := by decide
/-- R128's example, its first command. -/
theorem test_skipbytes : gives .skipbytes (holding [1, 2, 3] 0 2) fun s => cursor s 16 0 false 2 := by decide
/-- R130's example. -/
theorem test_release : gives .release (pending [] 3 5) fun s => stores s [5] && cursor s 0 0 false 1 := by decide
/-- R170's example. -/
theorem test_pwr : gives (.pwr .w4 .signed .signed) (holding [] 0 (-3)) fun s => cursor s 4 0x0B true 0 := by decide
/-- R171's examples. -/
theorem test_prd_peek : gives (.prd .w4 .signed true) (holding [0x5E] 0) fun s =>
    s.res0 = 0xFFFFFFFFFFFFFFFA#64 && s.res1 = 14#64 && cursor s 0 0 false 0 := by decide
theorem test_prd_end : gives (.prd .w10 .unsigned false) (holding [0x5E] 0) fun s => s.err = .endOfStream := by decide
/-- R172's examples. -/
theorem test_pfmt : gives (.pfmt .w4 .unsigned .unsigned) (holding [] 0 20) fun s => s.res0 = 4#64 && s.res1 = 4#64 := by decide
theorem test_pfmt_minus_zero : gives (.pfmt .w4 .signed .signed) (holding [] 0 (-2 ^ 63)) fun s =>
    s.res0 = 0#64 && s.res1 = 8#64 := by decide
/-- R173's examples. -/
theorem test_pval : gives (.pval .w2 .signed) (holding [] 0 3) fun s => s.res0 = 0xFFFFFFFFFFFFFFFF#64 := by decide
theorem test_pval_minus_zero : gives (.pval .w12 .signed) (holding [] 0 0x800) fun s => s.res0 = 0#64 := by decide
/-- R174's example. -/
theorem test_pbytes : gives (.pbytes .w48 .signed) (holding [] 0 0x800000000001) fun s =>
    s.res0 = 0x800000000001#64 && s.res1 = 6#64 := by decide
/-- R175's examples. -/
theorem test_pbit : gives (.pbit .w2 .signed) (holding [] 0 3 1) fun s => s.res0 = 1#64 := by decide
theorem test_pbit_2 : gives (.pbit .w2 .signed) (holding [] 0 1 2) fun s => s.err = .argumentRange := by decide
/-- R176's examples. -/
theorem test_peq : gives (.peq .w2 .signed .unsigned) (holding [] 0 1 1) fun s => s.res0 = 1#64 := by decide
theorem test_peq_sign : gives (.peq .w4 .signed .unsigned) (holding [] 0 0b1101 5) fun s => s.res0 = 0#64 := by decide
/-- R210's examples. -/
theorem test_wrue_standard : gives .wrue (holding [] 0 6300) fun s =>
    stores s [0x00, 0x30, 0x72] && s.res1 = 25#64 && cursor s 25 0x01 true 3 := by decide
theorem test_wrue_compat : gives .wrue (compat (holding [] 0 6300)) fun s =>
    stores s [0, 24, 185] && s.res1 = 24#64 && cursor s 24 0 false 3 := by decide
/-- R211's examples. -/
theorem test_rdue_compat : gives (.rdue false) (compat (holding [0, 24, 185] 0)) fun s =>
    s.res0 = 6300#64 && s.res1 = 23#64 && cursor s 24 0 false 3 := by decide +kernel
theorem test_rdue_standard : gives (.rdue false) (holding [0, 24, 185] 0) fun s =>
    s.res0 = 3149#64 && s.res1 = 23#64 && cursor s 23 185 false 3 := by decide +kernel
/-- R212's examples. -/
theorem test_wrse : gives .wrse (holding [] 0 1) fun s => cursor s 3 0x02 true 0 && s.res1 = 3#64 := by decide
theorem test_wrse_minus_2 : gives .wrse (holding [] 0 (-2)) fun s => cursor s 5 0x14 true 0 := by decide
/-- R213's examples. -/
theorem test_rdse : gives (.rdse false) (holding [0x14] 0) fun s => s.res0 = 0xFFFFFFFFFFFFFFFE#64 && s.res1 = 5#64 := by decide
theorem test_rdse_min : gives (.rdse false) (holding [0, 0, 0, 0, 1, 0, 0, 0, 1] 0) fun s =>
    s.res0 = 0xFFFFFFFF80000000#64 && s.res1 = 65#64 := by decide +kernel
/-- R214's examples. -/
theorem test_wrte : gives .wrte (holding [] 0 3 7) fun s => cursor s 5 0x04 true 0 && s.res1 = 5#64 := by decide
theorem test_wrte_bit : gives .wrte (holding [] 0 0 1) fun s => cursor s 1 0x01 true 0 && s.res1 = 1#64 := by decide
/-- R215's examples. -/
theorem test_rdte_0 : gives (.rdte false) (holding [0x01] 0) fun s => s.res0 = 0#64 && s.res1 = 1#64 := by decide
theorem test_rdte_1 : gives (.rdte false) (holding [0x00] 0) fun s => s.res0 = 1#64 && s.res1 = 1#64 := by decide

/-! ### The step -/

/-- R34, R280: a command word at CMD runs as the next step after reset. -/
theorem test_step_runs_word : ((next? (step (State.reset.withFetchWord 32 0x00120012))).map fun s => s.res1) = some 0#64 := by
  decide
/-- R240: an illegal word raises IllegalCommand. -/
theorem test_step_illegal_word : ((next? (step (State.reset.withFetchWord 32 0))).map fun s => s.err) =
    some .illegalCommand := by decide
/-- R56: a commit at STORE_CAP is stuck. -/
theorem test_commit_past_capacity : fault? (exec .wrbit full) = some .storeFull := by decide
/-- R57: ALIGN inside the last byte address is stuck. -/
theorem test_align_at_last_byte : fault? (exec .align last) = some .positionOverflow := by decide

/-! ### Witnesses: a concrete state and operands for the hypotheses of every obligation, each clause at a boundary value -/

/-- The machine's invariant as a computation. -/
def invOk (s : State) : Bool :=
  decide (s.cfg.wf ∧ (s.stream.bitOff = 0#3 → s.stream.pend = 0#8 ∧ s.stream.hpw = false) ∧ s.stream.mem.wf ∧
    (∀ c ∈ s.stream.mem, c.1 < s.stream.len) ∧ s.stream.len ≤ s.cfg.storeCap ∧ s.statusWf)

theorem inv_of_invOk {s : State} (h : invOk s = true) : s.Inv := by
  obtain ⟨hc, ha, hm, hi, hl, hs⟩ := of_decide_eq_true h
  exact ⟨hc, ⟨ha, hm, hi, hl⟩, hs⟩

/-- The cursor at the last bit the capacity of 16 bytes admits: one bit has room, nine have not. -/
def edge : State := pending [1, 2] 127 0x41 (-1)

/-- The host's accesses to come. -/
def hosted (s : State) (host : List HostAccess) : State := { s with host := host }

theorem inv_edge : edge.Inv := inv_of_invOk (by decide)
theorem inv_full : (full (-1)).Inv := inv_of_invOk (by decide)
theorem inv_last : last.Inv := inv_of_invOk (by decide)
theorem inv_holding : (holding [0x5E, 0x39, 0x97] 6 6300).Inv := inv_of_invOk (by decide)
theorem inv_pending : (pending [0x5E, 0x39] 10 0x3A 5).Inv := inv_of_invOk (by decide)
theorem inv_empty : (holding [] 0).Inv := inv_of_invOk (by decide)

theorem witness_WrbitWritesBit :
    edge.Inv ∧ edge.stream.room 16 1 ∧ (full (-1)).Inv ∧ ¬ (full (-1)).stream.room 1 1 :=
  ⟨inv_edge, by decide, inv_full, by decide⟩

theorem witness_WrbitsWritesField :
    (holding [] 0).Inv ∧ (64#7).toNat ≤ 64 ∧ (holding [] 0).stream.room 16 64 ∧ 64 < (65#7).toNat ∧ edge.Inv ∧
      edge.stream.room 16 8 ∧ ¬ edge.stream.room 16 9 :=
  ⟨inv_empty, by decide, by decide, by decide, inv_edge, by decide, by decide⟩

/-- The last bit of the store, the first one after it, and a pending byte above the capacity. -/
theorem witness_RdbitReadsBit :
    (holding [0x5E] 7).Inv ∧ (holding [0x5E] 7).stream.avail 1 ∧ (holding [0x5E] 7).stream.readRoom 16 1 ∧ (holding [0x5E] 8).Inv ∧
      ¬ (holding [0x5E] 8).stream.avail 1 ∧ (holding [0x5E] 8).stream.readRoom 16 1 ∧ (full (-1)).Inv ∧
      ¬ (full (-1)).stream.readRoom 1 1 :=
  ⟨inv_of_invOk (by decide), by decide, by decide, inv_of_invOk (by decide), by decide, by decide, inv_full, by decide⟩

theorem witness_RdbitsReadsField :
    (holding [0x5E, 0x39, 0x97] 6 6300).Inv ∧ (18#7).toNat ≤ 64 ∧ (holding [0x5E, 0x39, 0x97] 6 6300).stream.avail 18 ∧
      ¬ (holding [0x5E, 0x39, 0x97] 6 6300).stream.avail 19 ∧ (holding [0x5E, 0x39, 0x97] 6 6300).stream.readRoom 16 19 ∧
      64 < (65#7).toNat ∧ (full (-1)).Inv ∧ ¬ (full (-1)).stream.readRoom 1 64 :=
  ⟨inv_holding, by decide, by decide, by decide, by decide, by decide, inv_full, by decide⟩

theorem witness_WrbytesWritesBytes :
    edge.Inv ∧ 8 < (9#7).toNat ∧ (8#7).toNat ≤ 8 ∧ edge.unalignedRefused ∧ (allow edge).Inv ∧
      ¬ (allow edge).unalignedRefused ∧ (allow edge).stream.room 16 8 ∧ ¬ (allow edge).stream.room 16 64 ∧
      (holding [] 0).Inv ∧ ¬ (holding [] 0).unalignedRefused :=
  ⟨inv_edge, by decide, by decide, by decide, inv_of_invOk (by decide), by decide, by decide, by decide, inv_empty, by decide⟩

theorem witness_RdbytesReadsBytes :
    (holding [0x5E, 0x39, 0x97] 6 6300).Inv ∧ (holding [0x5E, 0x39, 0x97] 6 6300).unalignedRefused ∧ (9#7).toNat > 8 ∧
      (holding [0x5E, 0x39] 0).Inv ∧ ¬ (holding [0x5E, 0x39] 0).unalignedRefused ∧ (holding [0x5E, 0x39] 0).stream.avail (8 * 2) ∧
      ¬ (holding [0x5E, 0x39] 0).stream.avail (8 * 3) ∧ (holding [0x5E, 0x39] 0).stream.readRoom 16 24 ∧ (allow (full (-1))).Inv ∧
      ¬ (allow (full (-1))).unalignedRefused ∧ ¬ (allow (full (-1))).stream.readRoom 1 8 :=
  ⟨inv_holding, by decide, by decide, inv_of_invOk (by decide), by decide, by decide, by decide, by decide,
    inv_of_invOk (by decide), by decide, by decide⟩

/-- The last eight bytes of the capacity, above a gap; and no byte at all. -/
theorem witness_AlignedWrbytesStoresBytes :
    (holding [1] 64 (-1)).Inv ∧ (holding [1] 64 (-1)).stream.bitOff = 0#3 ∧ (8#7).toNat ≤ 8 ∧
      (holding [1] 64 (-1)).stream.bytePos.toNat + (8#7).toNat ≤ (holding [1] 64 (-1)).cfg.storeCap ∧
      (holding [1] 64 (-1)).stream.bytePos.toNat + (0#7).toNat ≤ (holding [1] 64 (-1)).cfg.storeCap :=
  ⟨inv_of_invOk (by decide), by decide, by decide, by decide, by decide⟩

/-- All bytes to the end of the store; and none, past its end. -/
theorem witness_AlignedRdbytesLoadsBytes :
    (holding [0x5E, 0x39, 0x97] 8).Inv ∧ (holding [0x5E, 0x39, 0x97] 8).stream.bitOff = 0#3 ∧ (2#7).toNat ≤ 8 ∧
      (0 < (2#7).toNat → (holding [0x5E, 0x39, 0x97] 8).stream.bytePos.toNat + (2#7).toNat ≤
        (holding [0x5E, 0x39, 0x97] 8).stream.len) ∧
      (holding [] 64).Inv ∧ (holding [] 64).stream.bitOff = 0#3 ∧ ¬ 0 < (0#7).toNat :=
  ⟨inv_of_invOk (by decide), by decide, by decide, by decide, inv_of_invOk (by decide), by decide, by decide⟩

theorem witness_UnalignedWrbytesShifts :
    (allow edge).Inv ∧ (allow edge).stream.bitOff ≠ 0#3 ∧ (allow edge).au = true ∧
      (allow edge).stream.bytePos.toNat < (allow edge).cfg.storeCap :=
  ⟨inv_of_invOk (by decide), by decide, by decide, by decide⟩

/-- The five clauses in turn. -/
theorem witness_AlignMovesToBoundary :
    (holding [1] 8).Inv ∧ (holding [1] 8).stream.bitOff = 0#3 ∧
    edge.Inv ∧ edge.stream.bitOff ≠ 0#3 ∧ edge.stream.hpw = true ∧ edge.stream.bytePos.toNat < edge.cfg.storeCap ∧
    (holding [1] 7).Inv ∧ (holding [1] 7).stream.bitOff ≠ 0#3 ∧ (holding [1] 7).stream.hpw = false ∧
      (holding [1] 7).stream.bytePos.toNat + 1 < 2 ^ 61 ∧
    (full (-1)).Inv ∧ (full (-1)).stream.hpw = true ∧ (full (-1)).cfg.storeCap ≤ (full (-1)).stream.bytePos.toNat ∧
    last.Inv ∧ last.stream.bitOff ≠ 0#3 ∧ last.stream.hpw = false ∧ last.stream.bytePos.toNat + 1 = 2 ^ 61 :=
  ⟨inv_of_invOk (by decide), by decide, inv_edge, by decide, by decide, by decide, inv_of_invOk (by decide), by decide,
    by decide, by decide, inv_full, by decide, by decide, inv_last, by decide, by decide, by decide⟩

theorem witness_SetposMovesCursor :
    edge.Inv ∧ edge.stream.hpw = true ∧ edge.stream.bytePos.toNat < edge.cfg.storeCap ∧ (holding [1] 8).Inv ∧
      (holding [1] 8).stream.hpw = false ∧ (full (-1)).Inv ∧ (full (-1)).stream.hpw = true ∧
      (full (-1)).cfg.storeCap ≤ (full (-1)).stream.bytePos.toNat :=
  ⟨inv_edge, by decide, by decide, inv_of_invOk (by decide), by decide, inv_full, by decide, by decide⟩

/-- All the bits there are, one more, and a count of 2^64 - 1. -/
theorem witness_SkipbitsPassesBits :
    (holding [0x5E, 0x39] 0 16).Inv ∧ (holding [0x5E, 0x39] 0 16).stream.avail (holding [0x5E, 0x39] 0 16).arg0.toNat ∧
      (holding [0x5E, 0x39] 0 16).stream.readRoom 16 16 ∧ (holding [0x5E, 0x39] 0 17).Inv ∧
      ¬ (holding [0x5E, 0x39] 0 17).stream.avail (holding [0x5E, 0x39] 0 17).arg0.toNat ∧ (full (-1)).Inv ∧
      ¬ (full (-1)).stream.readRoom 1 (full (-1)).arg0.toNat :=
  ⟨inv_of_invOk (by decide), by decide, by decide, inv_of_invOk (by decide), by decide, inv_full, by decide⟩

theorem witness_SkipbytesPassesBytes :
    edge.Inv ∧ edge.unalignedRefused ∧ (holding [1, 2, 3] 0 3).Inv ∧ ¬ (holding [1, 2, 3] 0 3).unalignedRefused ∧
      (holding [1, 2, 3] 0 3).stream.avail (8 * (holding [1, 2, 3] 0 3).arg0.toNat) ∧ (holding [1, 2, 3] 0 4).Inv ∧
      ¬ (holding [1, 2, 3] 0 4).stream.avail (8 * (holding [1, 2, 3] 0 4).arg0.toNat) ∧ (allow (full 1)).Inv ∧
      ¬ (allow (full 1)).unalignedRefused ∧ ¬ (allow (full 1)).stream.readRoom 1 (8 * (allow (full 1)).arg0.toNat) :=
  ⟨inv_edge, by decide, inv_of_invOk (by decide), by decide, by decide, inv_of_invOk (by decide), by decide,
    inv_of_invOk (by decide), by decide, by decide⟩

theorem witness_ReleaseFlushesAndRewinds :
    edge.Inv ∧ edge.stream.hpw = true ∧ edge.stream.bytePos.toNat < edge.cfg.storeCap ∧ (holding [1] 7).Inv ∧
      (holding [1] 7).stream.hpw = false ∧ (holding [1] 7).stream.bytePos.toNat + 1 < 2 ^ 61 ∧ (holding [1] 8).Inv ∧
      (holding [1] 8).stream.hpw = false ∧ (holding [1] 8).stream.bitOff = 0#3 ∧ (full (-1)).Inv ∧
      (full (-1)).stream.hpw = true ∧ (full (-1)).cfg.storeCap ≤ (full (-1)).stream.bytePos.toNat ∧ last.Inv ∧
      last.stream.hpw = false ∧ last.stream.bitOff ≠ 0#3 ∧ last.stream.bytePos.toNat + 1 = 2 ^ 61 :=
  ⟨inv_edge, by decide, by decide, inv_of_invOk (by decide), by decide, by decide, inv_of_invOk (by decide), by decide,
    by decide, inv_full, by decide, by decide, inv_last, by decide, by decide, by decide⟩

/-- Up to the end of the byte, and short of it. -/
theorem witness_ReadAfterWriteReadsPend :
    (pending [0x5E, 0x39] 10 0x3A 5).Inv ∧ (pending [0x5E, 0x39] 10 0x3A 5).stream.hpw = true ∧
      (pending [0x5E, 0x39] 10 0x3A 5).stream.bitOff.toNat + (6#7).toNat = 8 ∧
      (pending [0x5E, 0x39] 10 0x3A 5).stream.bitOff.toNat + (5#7).toNat < 8 ∧
      (pending [0x5E, 0x39] 10 0x3A 5).stream.bytePos.toNat < (pending [0x5E, 0x39] 10 0x3A 5).cfg.storeCap :=
  ⟨inv_pending, by decide, by decide, by decide, by decide⟩

theorem witness_WriteAfterFetchKeepsBits :
    (holding [0x5E, 0x39, 0x97] 6 6300).Inv ∧ (holding [0x5E, 0x39, 0x97] 6 6300).stream.bitOff ≠ 0#3 ∧
      (holding [0x5E, 0x39, 0x97] 6 6300).stream.hpw = false ∧ 0 < (1#7).toNat ∧
      (holding [0x5E, 0x39, 0x97] 6 6300).stream.bitOff.toNat + (2#7).toNat = 8 ∧
      (holding [0x5E, 0x39, 0x97] 6 6300).stream.bitOff.toNat + (1#7).toNat < 8 ∧
      (holding [0x5E, 0x39, 0x97] 6 6300).stream.bytePos.toNat < (holding [0x5E, 0x39, 0x97] 6 6300).cfg.storeCap :=
  ⟨inv_holding, by decide, by decide, by decide, by decide, by decide, by decide⟩

/-- The last 64 bits of the capacity. -/
theorem witness_WrbitsReadBack :
    (holding [1] 64 (-1)).Inv ∧ (64#7).toNat ≤ 64 ∧ (holding [1] 64 (-1)).stream.roomToFlush 16 64 :=
  ⟨inv_of_invOk (by decide), by decide, by decide⟩

theorem witness_PwrWritesPattern :
    (holding [] 80 (-1)).Inv ∧ (holding [] 80 (-1)).stream.room 16 (widthBits .w48) ∧ (holding [] 88 (-1)).Inv ∧
      ¬ (holding [] 88 (-1)).stream.room 16 (widthBits .w48) :=
  ⟨inv_of_invOk (by decide), by decide, inv_of_invOk (by decide), by decide⟩

theorem witness_PrdReadsPacked :
    (holding [0x5E, 0x39, 0x97] 0).Inv ∧ (holding [0x5E, 0x39, 0x97] 0).stream.avail (widthBits .w24) ∧
      ¬ (holding [0x5E, 0x39, 0x97] 0).stream.avail (widthBits .w48) ∧ (full (-1)).Inv ∧
      ¬ (full (-1)).stream.readRoom 1 (widthBits .w2) :=
  ⟨inv_of_invOk (by decide), by decide, by decide, inv_full, by decide⟩

theorem witness_PbytesPacks : (Width.w24 = .w24 ∨ Width.w24 = .w48) ∧ ¬ (Width.w12 = .w24 ∨ Width.w12 = .w48) := by decide

theorem witness_PbitGivesBit :
    (holding [] 0 3 1).arg1.toNat < widthBits .w2 ∧ widthBits .w2 ≤ (holding [] 0 3 2).arg1.toNat := by decide

/-- Equal and unequal patterns of each pair of signs. -/
theorem witness_PeqCompares :
    packedEqual 2 .unsigned 7 .unsigned 3 ∧ ¬ packedEqual 2 .unsigned 7 .unsigned 2 ∧ packedEqual 2 .signed 2 .signed 6 ∧
      ¬ packedEqual 2 .signed 2 .signed 0 ∧ packedEqual 2 .signed 1 .unsigned 1 ∧ ¬ packedEqual 2 .signed 3 .unsigned 1 ∧
      packedEqual 2 .unsigned 1 .signed 1 ∧ ¬ packedEqual 2 .unsigned 3 .signed 3 := by decide

/-- The two ends of a signed range, and the pattern of minus zero. -/
theorem witness_FormatRoundTrip :
    inRange (widthBits .w4) .signed (rawInt .signed (holding [] 0 (-7)).arg0) ∧
      inRange (widthBits .w4) .unsigned (rawInt .unsigned (holding [] 0 15).arg0) ∧
      ¬ inRange (widthBits .w4) .signed (rawInt .signed (holding [] 0 (-8)).arg0) ∧
      (holding [] 0 8).arg0.toNat % 2 ^ widthBits .w4 = 2 ^ (widthBits .w4 - 1) := by decide

theorem witness_PwrReadBack :
    (holding [] 80 (-7)).Inv ∧ (holding [] 80 (-7)).stream.roomToFlush 16 (widthBits .w48) ∧
      inRange (widthBits .w48) .signed (rawInt .signed (holding [] 80 (-7)).arg0) :=
  ⟨inv_of_invOk (by decide), by decide, by decide⟩

theorem witness_WrueWritesCode :
    (holding [] 0 0xFFFFFFFF).Inv ∧ (holding [] 0 0xFFFFFFFF).stream.room 16 65 ∧ (full 0).Inv ∧ ¬ (full 0).stream.room 1 1 ∧
      codeLength .standard 0xFFFFFFFF = 65 ∧ codeLength .standard 0 = 1 ∧ codeLength .compat 0 = 0 :=
  ⟨inv_of_invOk (by decide), by decide, inv_of_invOk (by decide), by decide, by decide +kernel, by decide +kernel,
    by decide +kernel⟩

/-- The longest run of zeros of each style, a code the store does not hold whole, a run that is too long; and a code and a
run whose read is stuck. -/
theorem witness_RdueReadsCode :
    (holding [0, 0, 0, 0, 1, 0, 0, 0, 0] 0).Inv ∧ (holding [0, 0, 0, 0, 1, 0, 0, 0, 0] 0).stream.zerosThenOne 32 ∧
      (holding [0, 0, 0, 0, 1, 0, 0, 0, 0] 0).stream.avail 65 ∧ 32 ≤ zeroLimit .standard ∧
      (compat (holding [0, 0, 0, 0x80] 0)).Inv ∧ (compat (holding [0, 0, 0, 0x80] 0)).stream.zerosThenOne 31 ∧
      31 ≤ zeroLimit .compat ∧ ¬ (compat (holding [0, 0, 0, 0x80] 0)).stream.avail 64 ∧ (holding [0, 0, 0, 0, 0] 0).Inv ∧
      (∀ j, j ≤ 32 →
        (holding [0, 0, 0, 0, 0] 0).stream.bitAt ((holding [0, 0, 0, 0, 0] 0).stream.pos + j) = false) ∧
      (holding [0, 0, 0, 0, 0] 0).stream.avail 33 ∧ fullOne.Inv ∧ fullOne.stream.zerosThenOne 0 ∧
      ¬ fullOne.stream.readRoom 1 (codeSpan .standard 0) ∧ (full 0).Inv ∧
      (∀ j, j ≤ 32 → (full 0).stream.bitAt ((full 0).stream.pos + j) = false) ∧ ¬ (full 0).stream.readRoom 1 33 :=
  ⟨inv_of_invOk (by decide), by decide +kernel, by decide, by decide, inv_of_invOk (by decide), by decide +kernel,
    by decide, by decide, inv_of_invOk (by decide), by decide +kernel, by decide, inv_of_invOk (by decide), by decide,
    by decide, inv_of_invOk (by decide), by decide +kernel, by decide⟩

theorem witness_WrseWritesCode :
    (holding [] 0 (-2 ^ 31)).Inv ∧ (holding [] 0 (-2 ^ 31)).stream.room 16 65 ∧ (full 0).Inv ∧ ¬ (full 0).stream.room 1 1 :=
  ⟨inv_of_invOk (by decide), by decide, inv_of_invOk (by decide), by decide⟩

/-- -2^31 is in the domain and 2^31 is not; a code the store does not hold whole, and one whose read is stuck. -/
theorem witness_RdseReadsCode :
    (holding [0, 0, 0, 0, 1, 0, 0, 0, 1] 0).Inv ∧ (holding [0, 0, 0, 0, 1, 0, 0, 0, 1] 0).stream.zerosThenOne 32 ∧
      signedOfCode (2 ^ 32) = -2 ^ 31 ∧ signedOfCode (2 ^ 32 - 1) = 2 ^ 31 ∧ (holding [0, 0, 0, 0, 0] 0).Inv ∧
      (∀ j, j ≤ 32 →
        (holding [0, 0, 0, 0, 0] 0).stream.bitAt ((holding [0, 0, 0, 0, 0] 0).stream.pos + j) = false) ∧
      (holding [0x80] 0).Inv ∧ (holding [0x80] 0).stream.zerosThenOne 7 ∧
      ¬ (holding [0x80] 0).stream.avail (codeSpan .standard 7) ∧ fullOne.Inv ∧ fullOne.stream.zerosThenOne 0 ∧
      ¬ fullOne.stream.readRoom 1 (codeSpan .standard 0) :=
  ⟨inv_of_invOk (by decide), by decide +kernel, by decide, by decide, inv_of_invOk (by decide), by decide +kernel,
    inv_of_invOk (by decide), by decide, by decide, inv_of_invOk (by decide), by decide, by decide⟩

theorem witness_WrteWritesCode :
    (holding [] 0 3 2).Inv ∧ 1 < (holding [] 0 3 2).arg1.toNat % 2 ^ 32 ∧ (holding [] 0 3 2).stream.room 16 5 ∧ (holding [] 0 0 1).Inv ∧
      (holding [] 0 0 1).arg1.toNat % 2 ^ 32 ≤ 1 ∧ (holding [] 0 0 1).stream.room 16 1 ∧ (full 0 1).Inv ∧
      ¬ (full 0 1).stream.room 1 1 :=
  ⟨inv_of_invOk (by decide), by decide, by decide, inv_of_invOk (by decide), by decide, by decide,
    inv_of_invOk (by decide), by decide⟩

/-- A maximum above 1 and one of 1, each with bits, without them, and with a read that is stuck. -/
theorem witness_RdteReadsCode :
    (holding [0x14] 0 0 2).Inv ∧ 1 < (holding [0x14] 0 0 2).arg1.toNat % 2 ^ 32 ∧
      (holding [0x14] 0 0 2).stream.zerosThenOne 2 ∧ (holding [0x14] 0 0 2).stream.avail (codeSpan .standard 2) ∧
      (holding [0x80] 0 0 2).Inv ∧ 1 < (holding [0x80] 0 0 2).arg1.toNat % 2 ^ 32 ∧
      (holding [0x80] 0 0 2).stream.zerosThenOne 7 ∧ ¬ (holding [0x80] 0 0 2).stream.avail (codeSpan .standard 7) ∧
      (fullOne 0 2).Inv ∧ 1 < (fullOne 0 2).arg1.toNat % 2 ^ 32 ∧ (fullOne 0 2).stream.zerosThenOne 0 ∧
      ¬ (fullOne 0 2).stream.readRoom 1 (codeSpan .standard 0) ∧
      (holding [0x01] 0 0 1).Inv ∧ (holding [0x01] 0 0 1).arg1.toNat % 2 ^ 32 ≤ 1 ∧
      (holding [0x01] 0 0 1).stream.avail 1 ∧ (holding [] 0 0 1).Inv ∧ ¬ (holding [] 0 0 1).stream.avail 1 ∧
      (full 0 1).Inv ∧ (full 0 1).arg1.toNat % 2 ^ 32 ≤ 1 ∧ ¬ (full 0 1).stream.readRoom 1 1 :=
  ⟨inv_of_invOk (by decide), by decide, by decide, by decide, inv_of_invOk (by decide), by decide, by decide, by decide,
    inv_of_invOk (by decide), by decide, by decide, by decide, inv_of_invOk (by decide), by decide, by decide,
    inv_of_invOk (by decide), by decide, inv_of_invOk (by decide), by decide, by decide⟩

/-- Every clause, in each style where it has two. -/
theorem witness_GolombRoundTrip :
    (holding [] 7 0 2).Inv ∧ (holding [] 7 0 2).gmode = .standard ∧ (holding [] 7 0 2).stream.roomToFlush 16 1 ∧
      1 < (holding [] 7 0 2).arg1.toNat % 2 ^ 32 ∧ (compat (holding [] 7 1 2)).Inv ∧ (compat (holding [] 7 1 2)).gmode = .compat ∧
      (compat (holding [] 7 1 2)).arg0.toNat % 2 ^ 32 ≠ 0 ∧ (compat (holding [] 7 1 2)).stream.roomToFlush 16 2 ∧
      (holding [] 127 1 1).Inv ∧ (holding [] 127 1 1).arg1.toNat % 2 ^ 32 ≤ 1 ∧ (holding [] 127 1 1).arg0.toNat % 2 ^ 32 ≤ 1 ∧
      (holding [] 127 1 1).stream.roomToFlush 16 1 ∧ (compat (holding [] 0 0)).Inv ∧
      (compat (holding [] 0 0)).arg0.toNat % 2 ^ 32 = 0 :=
  ⟨inv_of_invOk (by decide), by decide, by decide, by decide, inv_of_invOk (by decide), by decide, by decide, by decide,
    inv_of_invOk (by decide), by decide, by decide, by decide, inv_of_invOk (by decide), by decide⟩

theorem witness_ErrorUndoesEverything : ∃ t, exec (.wrbits 65#7) edge = .next t ∧ t.err ≠ .ok := ⟨_, rfl, by decide⟩

theorem witness_ErrorUndoesEverything_unaligned : ∃ t, exec .skipbytes edge = .next t ∧ t.err = .streamUnaligned :=
  ⟨_, rfl, by decide⟩

theorem witness_SuccessFrame : ∃ t, exec (.rdbits 2#7 true) (holding [0x5E] 0) = .next t ∧ t.err = .ok ∧
    namesRes1 (.rdbits 2#7 true) = false ∧ movesStream (.rdbits 2#7 true) = false :=
  ⟨_, rfl, by decide, rfl, rfl⟩

/-- Each error code. -/
theorem witness_ErrorTable :
    edge.Inv ∧ (∃ t, exec .skipbytes edge = .next t ∧ t.err = .streamUnaligned) ∧ (holding [] 0).Inv ∧
      (∃ t, exec (.rdbit true) (holding [] 0) = .next t ∧ t.err = .endOfStream) ∧
      (∃ t, exec (.rdbytes 9#7 false) (holding [] 0) = .next t ∧ t.err = .argumentRange) ∧ (Instr.rdbytes 9#7 false).wf :=
  ⟨inv_edge, ⟨_, rfl, by decide⟩, inv_empty, ⟨_, rfl, by decide⟩, ⟨_, rfl, by decide⟩, rfl⟩

theorem witness_StuckCommands :
    (full (-1)).Inv ∧ exec .wrbit (full (-1)) = .fault .storeFull ∧ last.Inv ∧ exec .align last = .fault .positionOverflow :=
  ⟨inv_full, rfl, inv_last, rfl⟩

/-- Nine bytes below the capacity, exactly. -/
theorem witness_CommandsCompleteWithRoom : (holding [1] 63).Inv ∧ (holding [1] 63).stream.bytePos.toNat + 9 = 16 :=
  ⟨inv_of_invOk (by decide), by decide⟩

theorem witness_StorePosIsNotAnInput :
    withoutStorePos (holding [1] 8) = withoutStorePos { holding [1] 8 with
      stream := { (holding [1] 8).stream with storePos := 77#61 } } ∧
    holding [1] 8 ≠ { holding [1] 8 with stream := { (holding [1] 8).stream with storePos := 77#61 } } := by decide

theorem witness_DecodeEncode : (Instr.pbytes .w24 .signed).wf = true ∧ (Instr.wrbits 127#7).wf = true := by decide

theorem witness_EncodeDecode : decode 0x00007F02#32 = .ok (.wrbits 127#7) := by rfl

/-- WIDX 9 and 10. -/
theorem witness_LegalWords :
    (∃ r ∈ opcodeRows, r.selects 0x00090013#32) ∧ (0x00090013#32).extractLsb' 16 4 = 9#4 ∧
      (∃ r ∈ opcodeRows, r.selects 0x000A0013#32) ∧ ¬ ∃ r ∈ opcodeRows, r.selects 0x00000017#32 := by decide +kernel

theorem witness_StepRunsDecodedCommand :
    (hosted (holding [] 0) [.regWrite 0x40 0xFFFFFFFF00000402#64]).host = .regWrite 0x40 0xFFFFFFFF00000402#64 :: [] ∧
      decode ((0xFFFFFFFF00000402#64).setWidth 32) = .ok (.wrbits 4#7) := ⟨rfl, rfl⟩

theorem witness_IllegalWordFails :
    (hosted (holding [] 0) [.regWrite 0x40 0x17#64]).host = .regWrite 0x40 0x17#64 :: [] ∧
      ¬ ∃ r ∈ opcodeRows, r.selects ((0x17#64).setWidth 32) := ⟨rfl, by decide +kernel⟩

theorem witness_IdleStep : State.reset.host = [] := rfl

theorem witness_CmdUpperBitsIgnored :
    (0x0000000000000001#64).toNat % 2 ^ 32 = (0xFFFFFFFF00000001#64).toNat % 2 ^ 32 := by decide

/-- A register, CMD, an offset between two registers, and one above them all. -/
theorem witness_HostReadsRegister :
    (hosted edge [.regRead 0x08]).host = .regRead 0x08 :: [] ∧
      0x40 ∉ [0x00, 0x08, 0x10, 0x18, 0x20, 0x28, 0x30, 0x38] ∧ 0x04 ∉ [0x00, 0x08, 0x10, 0x18, 0x20, 0x28, 0x30, 0x38] := by
  decide

theorem witness_HostWritesRegister :
    (hosted edge [.regWrite 0x00 3#64]).host = .regWrite 0x00 3#64 :: [] ∧ 0x08 ∉ [0x00, 0x20, 0x28, 0x40] ∧
      0x48 ∉ [0x00, 0x20, 0x28, 0x40] := by decide

/-- A step that is no write of any of the registers: a seek of the store. -/
theorem witness_RegistersChangeOnlyByTheirWriters :
    ∃ t, step (hosted edge [.storeSeek 5#61]) = .next t ∧ (hosted edge [.storeSeek 5#61]).host = .storeSeek 5#61 :: [] ∧
      HostAccess.storeSeek 5#61 ≠ .reset ∧ ∀ v, HostAccess.storeSeek 5#61 ≠ .regWrite 0x40 v :=
  ⟨_, rfl, rfl, by decide, fun _ h => nomatch h⟩

/-- The store full: its last byte, the first address after it, LEN = STORE_CAP. -/
def brimming (host : List HostAccess) : State :=
  hosted (holding [1, 2, 3, 4, 5, 6, 7, 8, 9, 10, 11, 12, 13, 14, 15, 16] 0) host

/-- The last byte, the first address after it, the last byte the capacity admits, and a full store. -/
theorem witness_HostStoreAccess :
    (hosted (holding [1, 2] 0) [.storeWrite 1 9#8]).Inv ∧ 1 < (holding [1, 2] 0).stream.len ∧
      (holding [1, 2] 0).stream.byte? 1 = some 2#8 ∧ (holding [1, 2] 0).stream.len ≤ 2 ∧
      (hosted (holding [1, 2, 3, 4, 5, 6, 7, 8, 9, 10, 11, 12, 13, 14, 15] 0) [.storeAppend 9#8]).Inv ∧
      (holding [1, 2, 3, 4, 5, 6, 7, 8, 9, 10, 11, 12, 13, 14, 15] 0).stream.len < 16 ∧
      (brimming [.storeAppend 9#8]).Inv ∧
      (brimming [.storeAppend 9#8]).stream.len = (brimming [.storeAppend 9#8]).cfg.storeCap :=
  ⟨inv_of_invOk (by decide), by decide, by decide, by decide, inv_of_invOk (by decide), by decide,
    inv_of_invOk (by decide), by decide⟩

/-- The accesses whose hypothesis is the host list alone, on the full store. -/
theorem witness_HostStoreAccess_lists :
    (brimming [.storeReadLen]).Inv ∧ (brimming [.storeReadLen]).host = .storeReadLen :: [] ∧ (brimming [.storeTell]).Inv ∧
      (brimming [.storeTell]).host = .storeTell :: [] ∧ (brimming [.storeTruncate 16]).Inv ∧
      (brimming [.storeTruncate 16]).host = .storeTruncate 16 :: [] ∧ (brimming [.storeSeek 16#61]).Inv ∧
      (brimming [.storeSeek 16#61]).host = .storeSeek 16#61 :: [] :=
  ⟨inv_of_invOk (by decide), rfl, inv_of_invOk (by decide), rfl, inv_of_invOk (by decide), rfl, inv_of_invOk (by decide), rfl⟩

theorem witness_HostWriteUnderTheLatch :
    (hosted (pending [0x5E, 0x39] 10 0x3A 5) [.storeWrite 1 9#8]).Inv ∧ (pending [0x5E, 0x39] 10 0x3A 5).stream.bitOff ≠ 0#3 ∧
      (pending [0x5E, 0x39] 10 0x3A 5).stream.bytePos.toNat = 1 ∧ 1 < (pending [0x5E, 0x39] 10 0x3A 5).stream.len ∧
      (pending [0x5E, 0x39] 10 0x3A 5).stream.hpw = true ∧ (pending [0x5E, 0x39] 10 0x3A 5).stream.bitOff.toNat + (6#7).toNat ≤ 8 ∧
      (hosted (holding [0x5E, 0x39] 10) [.storeWrite 1 9#8]).Inv ∧ (holding [0x5E, 0x39] 10).stream.hpw = false :=
  ⟨inv_of_invOk (by decide), by decide, by decide, by decide, by decide, by decide, inv_of_invOk (by decide), by decide⟩

/-- Inside a byte with bits pending and without, LEN becoming BYTE_POS; and on a boundary, LEN becoming BYTE_POS - 1, with
as many bytes to write as the capacity admits. -/
theorem witness_TruncationUnderTheCursor :
    (hosted (pending [0x5E, 0x39] 10 0x3A 5) [.storeTruncate 1]).Inv ∧
      1 ≤ (pending [0x5E, 0x39] 10 0x3A 5).stream.bytePos.toNat ∧ (pending [0x5E, 0x39] 10 0x3A 5).stream.hpw = true ∧
      (pending [0x5E, 0x39] 10 0x3A 5).stream.bytePos.toNat < 16 ∧ (hosted (holding [0x5E, 0x39] 10) [.storeTruncate 1]).Inv ∧
      (holding [0x5E, 0x39] 10).stream.bitOff ≠ 0#3 ∧ (holding [0x5E, 0x39] 10).stream.hpw = false ∧
      (hosted (holding [1, 2, 3, 4, 5, 6, 7, 8, 9] 64 (-1)) [.storeTruncate 7]).Inv ∧
      (holding [1, 2, 3, 4, 5, 6, 7, 8, 9] 64 (-1)).stream.bitOff = 0#3 ∧
      7 < (holding [1, 2, 3, 4, 5, 6, 7, 8, 9] 64 (-1)).stream.bytePos.toNat ∧ 0 < (8#7).toNat ∧ (8#7).toNat ≤ 8 ∧
      (holding [1, 2, 3, 4, 5, 6, 7, 8, 9] 64 (-1)).stream.bytePos.toNat + (8#7).toNat ≤ 16 :=
  ⟨inv_of_invOk (by decide), by decide, by decide, by decide, inv_of_invOk (by decide), by decide, by decide,
    inv_of_invOk (by decide), by decide, by decide, by decide, by decide, by decide⟩

theorem witness_ResetInput : (hosted edge [.reset]).host = .reset :: [] := rfl

/-- The two ends of the capacity's range. -/
theorem witness_ResetInvariant :
    Config.wf { storeCap := 1, initAu := true } ∧ Config.wf { storeCap := 2 ^ 61 - 1, initAu := false } := by decide

theorem witness_StepKeepsInvariant :
    (hosted edge [cmdWrite 0x01]).Inv ∧ ∃ t, step (hosted edge [cmdWrite 0x01]) = .next t :=
  ⟨inv_of_invOk (by decide), _, rfl⟩

end Sys2Proof.Tests
end

section
/-! SUPPORT. What the state is after each kind of step, said once: the registers as words (spec/10_state.md R24 to R27),
a host write of a register (R36), the frame of a command (R24, R32, R33), the effects an access of the host can have, and
which of them keep the machine's invariant (R35). -/

namespace Sys2Proof.Machine

/-! ### The registers as words (10_state.md R24 to R27, R36) -/

theorem toNat_append_eq_add {m n : Nat} (x : BitVec m) (y : BitVec n) :
    (x ++ y).toNat = x.toNat * 2 ^ n + y.toNat := by
  rw [BitVec.toNat_append, ← Nat.shiftLeft_add_eq_or_of_lt y.isLt, Nat.shiftLeft_eq]

theorem State.ctrlWord_toNat (s : State) :
    s.ctrlWord.toNat = s.au.toNat + 2 * (if s.gmode = .compat then 1 else 0) := by
  have hg : s.gmode.bit.toNat = if s.gmode = .compat then 1 else 0 := by cases s.gmode <;> rfl
  rw [State.ctrlWord, toNat_append_eq_add, toNat_append_eq_add, hg, BitVec.toNat_ofBool, BitVec.toNat_ofNat]
  omega

theorem State.statusWord_toNat (s : State) : s.statusWord.toNat = s.err.code.toNat + 16 * s.bitsLeft.toNat := by
  rw [State.statusWord, toNat_append_eq_add, toNat_append_eq_add, BitVec.toNat_ofNat]
  omega

theorem State.cursorWord_toNat (s : State) :
    s.cursorWord.toNat = s.stream.bitOff.toNat + 8 * s.stream.hpw.toNat +
      16 * (if s.stream.bitOff = 0#3 then 0 else 1) + 256 * s.stream.pend.toNat := by
  have hu : s.stream.unaligned.toNat = if s.stream.bitOff = 0#3 then 0 else 1 := by
    by_cases h0 : s.stream.bitOff = 0#3 <;> simp [Stream.unaligned, h0]
  simp only [State.cursorWord, toNat_append_eq_add, BitVec.toNat_ofBool, BitVec.toNat_ofNat, hu]
  omega

theorem State.readReg_unmapped (s : State) {off : Nat} (h : off ∉ [0x00, 0x08, 0x10, 0x18, 0x20, 0x28, 0x30, 0x38]) :
    s.readReg off = 0#64 := by
  unfold State.readReg
  split
  case h_9 => rfl
  all_goals exact absurd (by decide) h

/-! ### A host write of a register other than CMD (10_state.md R24, R32, R36) -/

section
variable (s : State) (off : Nat) (v : Word)

theorem State.writeReg_frame : s.writeReg off v = { s with
    au := (s.writeReg off v).au, gmode := (s.writeReg off v).gmode,
    arg0 := (s.writeReg off v).arg0, arg1 := (s.writeReg off v).arg1 } := by
  unfold State.writeReg
  split <;> rfl

@[simp] theorem State.writeReg_cfg : (s.writeReg off v).cfg = s.cfg := by rw [State.writeReg_frame]
@[simp] theorem State.writeReg_err : (s.writeReg off v).err = s.err := by rw [State.writeReg_frame]
@[simp] theorem State.writeReg_bitsLeft : (s.writeReg off v).bitsLeft = s.bitsLeft := by rw [State.writeReg_frame]
@[simp] theorem State.writeReg_stream : (s.writeReg off v).stream = s.stream := by rw [State.writeReg_frame]
@[simp] theorem State.writeReg_res0 : (s.writeReg off v).res0 = s.res0 := by rw [State.writeReg_frame]
@[simp] theorem State.writeReg_res1 : (s.writeReg off v).res1 = s.res1 := by rw [State.writeReg_frame]

variable {off}

theorem State.writeReg_ctrl_of_ne (h : off ≠ 0x00) :
    (s.writeReg off v).au = s.au ∧ (s.writeReg off v).gmode = s.gmode := by
  unfold State.writeReg
  split
  case h_1 => exact absurd rfl h
  all_goals exact ⟨rfl, rfl⟩

theorem State.writeReg_arg0_of_ne (h : off ≠ 0x20) : (s.writeReg off v).arg0 = s.arg0 := by
  unfold State.writeReg
  split
  case h_2 => exact absurd rfl h
  all_goals rfl

theorem State.writeReg_arg1_of_ne (h : off ≠ 0x28) : (s.writeReg off v).arg1 = s.arg1 := by
  unfold State.writeReg
  split
  case h_3 => exact absurd rfl h
  all_goals rfl

theorem State.writeReg_of_readOnly (h : off ∉ [0x00, 0x20, 0x28]) : s.writeReg off v = s := by
  unfold State.writeReg
  split
  case h_4 => rfl
  all_goals exact absurd (by decide) h

end

/-! ### The decoder gives well-formed commands only (30_encoding.md R86, R87) -/

theorem ifUnusedZero_wf {w free : CmdWord} {i j : Instr} (hi : i.wf = true) (h : ifUnusedZero w free i = .ok j) :
    j.wf = true := by
  obtain ⟨rfl, -⟩ := ifUnusedZero_ok h
  exact hi

theorem ifWidth_wf {w free : CmdWord} {f : Width → Instr} {j : Instr} (hf : ∀ t, (f t).wf = true)
    (h : ifWidth w free f = .ok j) : j.wf = true := by
  obtain ⟨t, -, rfl, -⟩ := ifWidth_ok h
  exact hf t

theorem ifByteWidth_wf {w : CmdWord} {f : Width → Instr} {j : Instr}
    (hf : ∀ t, t.byteAddressable = true → (f t).wf = true) (h : ifByteWidth w f = .ok j) : j.wf = true := by
  obtain ⟨t, -, ht, rfl, -⟩ := ifByteWidth_ok h
  exact hf t ht

/-- The cases in the order of the opcodes: packed integers but PBYTES, PBYTES, no opcode, and every other command. -/
theorem decode_wf {w : CmdWord} {i : Instr} (h : decode w = .ok i) : i.wf = true := by
  unfold decode at h
  split at h
  case h_12 | h_13 | h_14 | h_15 | h_16 | h_18 => exact ifWidth_wf (fun _ => rfl) h
  case h_17 => exact ifByteWidth_wf (f := fun t => .pbytes t (signOf w)) (fun _ ht => ht) h
  case h_25 => cases h
  all_goals exact ifUnusedZero_wf rfl h

/-! ### The frame of a command (10_state.md R24, R32, R33) -/

/-- Every command is a result given to `State.finish`, and what it delivers goes to RES0 and RES1 alone. `exec_sound` says
more of well-formed commands in states with the invariant; this holds in every state. -/
theorem exec_eq_finish (i : Instr) (s : State) :
    ∃ (α : Type) (p : Bool) (r : Res α) (d : α → State → State), exec i s = s.finish p r d ∧
      ∀ a st, (d a { s with stream := st }).clearStatus = s.done st (d a s).res0 (d a s).res1 := by
  cases i
  -- the commands that only compute: their result is named, so that `State.finish` stays folded
  case pfmt | pval | peq => exact ⟨_, false, .ok _ s.stream, _, rfl, fun _ _ => rfl⟩
  all_goals exact ⟨_, _, _, _, rfl, fun _ _ => rfl⟩

/-- A command leaves all but STATUS, RES0, RES1, the cursor and the store as it was. -/
structure State.CommandFrame (s t : State) : Prop where
  cfg : t.cfg = s.cfg
  au : t.au = s.au
  gmode : t.gmode = s.gmode
  arg0 : t.arg0 = s.arg0
  arg1 : t.arg1 = s.arg1
  host : t.host = s.host
  hostData : t.hostData = s.hostData

theorem State.takeError_frame (s : State) (e : Raise) : s.CommandFrame (s.takeError e) :=
  ⟨rfl, rfl, rfl, rfl, rfl, rfl, rfl⟩

theorem State.done_frame (s : State) (st : Stream) (r0 r1 : Word) : s.CommandFrame (s.done st r0 r1) :=
  ⟨rfl, rfl, rfl, rfl, rfl, rfl, rfl⟩

theorem exec_frame {i : Instr} {s t : State} (h : exec i s = .next t) : s.CommandFrame t := by
  obtain ⟨α, p, r, d, he, hd⟩ := exec_eq_finish i s
  obtain ⟨a, st, -, rfl⟩ | ⟨e, -, rfl⟩ := State.finish_next (he ▸ h)
  · rw [hd]; exact s.done_frame _ _ _
  · exact s.takeError_frame e

theorem runCommand_frame {w : CmdWord} {s t : State} (h : runCommand w s = .next t) : s.CommandFrame t := by
  unfold runCommand at h
  split at h
  · exact exec_frame h
  · cases h; exact s.takeError_frame _

/-! ### The invariant under each named update (10_state.md R25, R35) -/

theorem Stream.resetOver_Inv {cap len : Nat} {mem : Memory} (hm : mem.wf) (hs : ∀ c ∈ mem, c.1 < len) (hl : len ≤ cap) :
    (Stream.resetOver mem len).Inv cap :=
  ⟨fun _ => ⟨rfl, rfl⟩, hm, hs, hl⟩

theorem State.resetWith_Inv {cfg : Config} (h : cfg.wf) : (State.resetWith cfg).Inv :=
  ⟨h, Stream.resetOver_Inv Memory.wf_nil (by simp) (Nat.zero_le _), rfl⟩

section
variable {s : State} (h : s.Inv)
include h

theorem State.Inv.withHost (rest : List HostAccess) : State.Inv { s with host := rest } :=
  ⟨h.cfgWf, h.stream, h.status⟩

theorem State.Inv.withStream {st : Stream} (hst : st.Inv s.cfg.storeCap) : State.Inv { s with stream := st } :=
  ⟨h.cfgWf, hst, h.status⟩

theorem State.Inv.answerHost (v : Word) : (s.answerHost v).Inv := ⟨h.cfgWf, h.stream, h.status⟩

theorem State.Inv.writeReg (off : Nat) (v : Word) : (s.writeReg off v).Inv := by
  rw [State.writeReg_frame]
  exact ⟨h.cfgWf, h.stream, h.status⟩

theorem State.Inv.resetEngine : s.resetEngine.Inv :=
  ⟨h.cfgWf, Stream.resetOver_Inv h.stream.memWf h.stream.inStore h.stream.lenLe, rfl⟩

theorem State.Inv.done {st : Stream} (hst : st.Inv s.cfg.storeCap) (r0 r1 : Word) : (s.done st r0 r1).Inv :=
  ⟨h.cfgWf, hst, rfl⟩

/-- An error that records a BITS_LEFT records one of 1 to 7 (R25). -/
theorem State.Inv.takeError {e : Raise} (he : ∀ n, e = .streamUnaligned n → 1 ≤ n.toNat ∧ n.toNat ≤ 7) :
    (s.takeError e).Inv := by
  refine ⟨h.cfgWf, h.stream, ?_⟩
  cases e with
  | streamUnaligned n => exact he n rfl
  | endOfStream | argumentRange | illegalCommand => rfl

/-- The stream a command leaves is the one it started with, after a peek, or the one its pseudocode reached; both meet the
invariant. -/
theorem exec_keeps_Inv {i : Instr} {t : State} (hi : i.wf = true) (hx : exec i s = .next t) : t.Inv := by
  obtain ⟨α, p, r, d, he, sound, hd⟩ := exec_sound h hi
  obtain ⟨a, st, hr, rfl⟩ | ⟨e, hr, rfl⟩ := State.finish_next (he ▸ hx)
  · rw [hd]
    refine h.done ?_ _ _
    cases p with
    | true => exact h.stream
    | false => exact sound.ok a st hr
  · exact h.takeError (sound.raise e hr).2

theorem runCommand_keeps_Inv {w : CmdWord} {t : State} (hx : runCommand w s = .next t) : t.Inv := by
  unfold runCommand at hx
  split at hx
  next i hw => exact exec_keeps_Inv h (decode_wf hw) hx
  next => cases hx; exact h.takeError (by simp)

end

/-! ### The effects of an access of the host (10_state.md R20; 20_memory.md R70; 70_reset_and_hazards.md R271) -/

theorem hostAccess_command (v : Word) (s : State) :
    hostAccess (.regWrite 0x40 v) s = runCommand (cmdWordOf v) s := rfl

theorem hostAccess_register {off : Nat} (h : off ≠ 0x40) (v : Word) (s : State) :
    hostAccess (.regWrite off v) s = .next (s.writeReg off v) := if_neg h

/-- `st'` has the cursor registers of `st`. -/
structure Stream.SameCursor (st st' : Stream) : Prop where
  bytePos : st'.bytePos = st.bytePos
  bitOff : st'.bitOff = st.bitOff
  pend : st'.pend = st.pend
  hpw : st'.hpw = st.hpw

/-- The effects an access that does not stop can have, from `s` to a next state. -/
inductive HostEffect (s : State) : HostAccess → State → Prop where
  /-- a write of CMD runs a command (10_state.md R34) -/
  | command (v : Word) (t : State) (h : runCommand (cmdWordOf v) s = .next t) : HostEffect s (.regWrite 0x40 v) t
  /-- a write of another offset (R36) -/
  | register (off : Nat) (v : Word) (h : off ≠ 0x40) : HostEffect s (.regWrite off v) (s.writeReg off v)
  /-- a read gives the host a word -/
  | answer (a : HostAccess) (v : Word) : HostEffect s a (s.answerHost v)
  /-- a change of the store or of STORE_POS, under the cursor and within the capacity (20_memory.md R69, R70) -/
  | store (a : HostAccess) (st : Stream) (hcur : s.stream.SameCursor st)
      (hinv : s.stream.Inv s.cfg.storeCap → st.Inv s.cfg.storeCap) : HostEffect s a { s with stream := st }
  | reset : HostEffect s .reset s.resetEngine

theorem hostAccess_effect {a : HostAccess} {s t : State} (h : hostAccess a s = .next t) : HostEffect s a t := by
  cases a with
  | regWrite off v =>
    by_cases ho : off = 0x40
    · subst ho
      exact .command v t h
    · rw [hostAccess_register ho] at h
      cases h
      exact .register off v ho
  | regRead off => cases h; exact .answer _ _
  | storeRead addr =>
    dsimp only [hostAccess] at h
    split at h <;> cases h
    exact .answer _ _
  | storeWrite addr b =>
    dsimp only [hostAccess] at h
    split at h <;> cases h
    next ha => exact .store _ _ ⟨rfl, rfl, rfl, rfl⟩ fun i => Stream.hostWrite_Inv i ha b
  | storeAppend b =>
    dsimp only [hostAccess] at h
    split at h <;> cases h
    next hl => exact .store _ _ ⟨rfl, rfl, rfl, rfl⟩ fun i => Stream.hostAppend_Inv i hl b
  | storeTruncate l => cases h; exact .store _ _ ⟨rfl, rfl, rfl, rfl⟩ fun i => Stream.hostTruncate_Inv i l
  | storeReadLen => cases h; exact .answer _ _
  | storeSeek p => cases h; exact .store _ _ ⟨rfl, rfl, rfl, rfl⟩ fun i => ⟨i.aligned, i.memWf, i.inStore, i.lenLe⟩
  | storeTell => cases h; exact .answer _ _
  | reset => cases h; exact .reset

theorem step_cons {s : State} {a : HostAccess} {rest : List HostAccess} (h : s.host = a :: rest) :
    step s = hostAccess a { s with host := rest } := by
  unfold step
  rw [h]

/-- Everything a step can do: nothing where the host has no access to come, or the effect of the next access. -/
theorem step_effect {s t : State} (h : step s = .next t) :
    (s.host = [] ∧ t = s) ∨ ∃ a rest, s.host = a :: rest ∧ HostEffect { s with host := rest } a t := by
  cases hs : s.host with
  | nil =>
    unfold step at h
    rw [hs] at h
    cases h
    exact .inl ⟨rfl, rfl⟩
  | cons a rest => exact .inr ⟨a, rest, rfl, hostAccess_effect (step_cons hs ▸ h)⟩

theorem HostEffect.keeps_Inv {s t : State} {a : HostAccess} (h : s.Inv) (e : HostEffect s a t) : t.Inv := by
  cases e with
  | command v t hr => exact runCommand_keeps_Inv h hr
  | register off v ho => exact h.writeReg off v
  | answer a v => exact h.answerHost v
  | store a st hcur hinv => exact h.withStream (hinv h.stream)
  | reset => exact h.resetEngine

theorem HostEffect.cfg_eq {s t : State} {a : HostAccess} (e : HostEffect s a t) : t.cfg = s.cfg := by
  cases e with
  | command v t hr => exact (runCommand_frame hr).cfg
  | register off v ho => exact s.writeReg_cfg off v
  | answer a v | store a st hcur hinv | reset => rfl

/-- From `s` to `t` every register keeps its value of which the access `a` is no writer (10_state.md R24, R25, R32, R33). -/
structure State.KeepsUnwritten (a : HostAccess) (s t : State) : Prop where
  ctrl : (∀ v, a ≠ .regWrite 0x00 v) → t.au = s.au ∧ t.gmode = s.gmode
  arg0 : (∀ v, a ≠ .regWrite 0x20 v) → t.arg0 = s.arg0
  arg1 : (∀ v, a ≠ .regWrite 0x28 v) → t.arg1 = s.arg1
  engine : (∀ v, a ≠ .regWrite 0x40 v) → t.err = s.err ∧ t.bitsLeft = s.bitsLeft ∧ t.res0 = s.res0 ∧ t.res1 = s.res1 ∧
    t.stream.bytePos = s.stream.bytePos ∧ t.stream.bitOff = s.stream.bitOff ∧ t.stream.pend = s.stream.pend ∧
    t.stream.hpw = s.stream.hpw

theorem HostEffect.keepsUnwritten {s t : State} {a : HostAccess} (e : HostEffect s a t) (ha : a ≠ .reset) :
    State.KeepsUnwritten a s t := by
  cases e with
  | command v t hr =>
    have fr := runCommand_frame hr
    exact ⟨fun _ => ⟨fr.au, fr.gmode⟩, fun _ => fr.arg0, fun _ => fr.arg1, fun hw => absurd rfl (hw v)⟩
  | register off v ho =>
    have off_ne {k : Nat} (hw : ∀ x, HostAccess.regWrite off v ≠ .regWrite k x) : off ≠ k := fun hk => hw v (hk ▸ rfl)
    exact ⟨fun hw => s.writeReg_ctrl_of_ne v (off_ne hw), fun hw => s.writeReg_arg0_of_ne v (off_ne hw),
      fun hw => s.writeReg_arg1_of_ne v (off_ne hw), fun _ => by simp⟩
  | answer a v => exact ⟨fun _ => ⟨rfl, rfl⟩, fun _ => rfl, fun _ => rfl, fun _ => ⟨rfl, rfl, rfl, rfl, rfl, rfl, rfl, rfl⟩⟩
  | store a st hcur hinv =>
    exact ⟨fun _ => ⟨rfl, rfl⟩, fun _ => rfl, fun _ => rfl,
      fun _ => ⟨rfl, rfl, rfl, rfl, hcur.bytePos, hcur.bitOff, hcur.pend, hcur.hpw⟩⟩
  | reset => exact absurd rfl ha

/-! ### The command word of a CMD write (10_state.md R34) -/

theorem cmdWordOf_eq_of_low32 {v w : Word} (h : v.toNat % 2 ^ 32 = w.toNat % 2 ^ 32) : cmdWordOf v = cmdWordOf w := by
  apply BitVec.eq_of_toNat_eq
  rw [cmdWordOf, cmdWordOf, BitVec.toNat_setWidth, BitVec.toNat_setWidth, h]

/-! ### The obligations on the state (spec/10_state.md) -/

/-- Settles O58: each effect of an access keeps the invariant, a command by `exec_sound`. -/
theorem stepKeepsInvariant : Obligations.StepKeepsInvariant := by
  intro s t h hstep
  obtain ⟨-, rfl⟩ | ⟨a, rest, -, e⟩ := step_effect hstep
  · exact h
  · exact e.keeps_Inv (h.withHost rest)

/-- Settles O51, by the effects an access can have. -/
theorem registersChangeOnlyByTheirWriters : Obligations.RegistersChangeOnlyByTheirWriters := by
  intro s t hstep
  obtain ⟨hidle, rfl⟩ | ⟨a, rest, hs, e⟩ := step_effect hstep
  · exact ⟨rfl, fun a rest hs => by rw [hidle] at hs; cases hs⟩
  · refine ⟨e.cfg_eq, fun a' rest' hs' ha => ?_⟩
    rw [hs] at hs'
    cases hs'
    obtain ⟨hctrl, harg0, harg1, hengine⟩ := e.keepsUnwritten ha
    exact ⟨hctrl, harg0, harg1, hengine⟩

/-- Settles O48: the command word is the low half of the value. -/
theorem cmdUpperBitsIgnored : Obligations.CmdUpperBitsIgnored := by
  intro s v w rest h
  rw [step_cons rfl, step_cons rfl, hostAccess_command, hostAccess_command, cmdWordOf_eq_of_low32 h]

/-- Settles O49: the host gets the register's word, whose value as a number each register's lemma gives. -/
theorem hostReadsRegister : Obligations.HostReadsRegister := by
  intro s off rest hs
  refine ⟨s.readReg off, step_cons hs, ?ctrl, ?status, ?cursor, ?pos, ?arg0, ?arg1, ?res0, ?res1, s.readReg_unmapped⟩
  case ctrl => rintro rfl; exact s.ctrlWord_toNat
  case status =>
    rintro rfl
    refine s.statusWord_toNat.trans ?_
    cases s.err <;> rfl
  case cursor => rintro rfl; exact s.cursorWord_toNat
  case pos => rintro rfl; exact s.posWord_toNat
  all_goals rintro rfl; rfl

/-- Settles O50, by `State.writeReg` at each offset. -/
theorem hostWritesRegister : Obligations.HostWritesRegister := by
  intro s off v rest hs
  rw [step_cons hs]
  refine ⟨?ctrl, ?arg0, ?arg1, fun hoff => ?other⟩
  case other =>
    simp only [List.mem_cons, List.not_mem_nil, or_false, not_or] at hoff
    obtain ⟨h00, h20, h28, h40⟩ := hoff
    rw [hostAccess_register h40, State.writeReg_of_readOnly _ _ (by simp [h00, h20, h28])]
  all_goals rintro rfl; rfl

/-- Settles O57: the cursor is aligned, the store empty and STATUS 0; the default parameters lie in their range. -/
theorem resetInvariant : Obligations.ResetInvariant :=
  ⟨State.resetWith_Inv (by decide), fun _ => State.resetWith_Inv⟩

end Sys2Proof.Machine
end

section
/-! SUPPORT. The byte store (spec/20_memory.md): a field written is read back from where it was written (R58), no command
depends on STORE_POS (R69), and what an access of the host does to the store (R50, R69, R70). -/

namespace Sys2Proof.Machine

/-! ### The three commands of a round trip, where their pseudocode completes (40_cursor.md R118, R120, R126) -/

theorem fieldBits_length (v : Word) (n : Nat) : (fieldBits v n).length = n := by
  rw [fieldBits, List.length_map, List.length_range]

theorem exec_wrbits_of_ok {n : BitVec 7} {s : State} {st : Stream} (hn : n.toNat ≤ 64)
    (h : s.stream.putBits s.cfg.storeCap (fieldBits s.arg0 n.toNat) = .ok () st) :
    exec (.wrbits n) s = .next (s.done st s.res0 s.res1) := by
  rw [exec, execWrbits, if_neg (Nat.not_lt.2 hn), h]
  rfl

theorem exec_setpos_of_ok {s : State} {st : Stream} (h : s.stream.setPos s.cfg.storeCap s.arg0 = .ok () st) :
    exec .setpos s = .next (s.done st s.res0 s.res1) := by
  rw [exec, execSetpos, h]
  rfl

theorem exec_rdbits_of_ok {n : BitVec 7} {s : State} {st : Stream} {bits : List Bool} (hn : n.toNat ≤ 64)
    (h : s.stream.getBits s.cfg.storeCap n.toNat = .ok bits st) :
    exec (.rdbits n false) s = .next (s.done st (wordOfBits bits) s.res1) := by
  rw [exec, execRdbits, if_neg (Nat.not_lt.2 hn), h]
  rfl

/-! ### STORE_POS is an output (20_memory.md R69; 70_reset_and_hazards.md R290) -/

/-- The stream with STORE_POS put to 0: by definition `withoutStorePos s` is `{ s with stream := s.stream.forgetStorePos }`. -/
def Stream.forgetStorePos (st : Stream) : Stream := { st with storePos := 0#61 }

/-- A result with STORE_POS put to 0 in the stream it leaves. -/
def Res.forgetStorePos {α : Type} (r : Res α) : Res α :=
  match r with
  | .ok a st => .ok a st.forgetStorePos
  | .raise e => .raise e
  | .stuck f => .stuck f

/-- An operation on the stream gives the same result, up to STORE_POS, from any STORE_POS. -/
def IgnoresStorePos {α : Type} (op : Stream → Res α) : Prop :=
  ∀ st, (op st.forgetStorePos).forgetStorePos = (op st).forgetStorePos

namespace IgnoresStorePos

variable {α β : Type}

/-! #### How operations are put together -/

theorem ok {a : Stream → α} {g : Stream → Stream} (ha : ∀ st, a st.forgetStorePos = a st)
    (hg : ∀ st, (g st.forgetStorePos).forgetStorePos = (g st).forgetStorePos) :
    IgnoresStorePos fun st => .ok (a st) (g st) := fun st => by
  rw [Res.forgetStorePos, Res.forgetStorePos, ha, hg]

theorem pure (a : α) : IgnoresStorePos fun st => .ok a st := ok (fun _ => rfl) fun _ => rfl

theorem raise {e : Stream → Raise} (he : ∀ st, e st.forgetStorePos = e st) :
    IgnoresStorePos fun st => (.raise (e st) : Res α) := fun st => by
  rw [Res.forgetStorePos, Res.forgetStorePos, he]

theorem stuck (f : Fault) : IgnoresStorePos fun _ => (.stuck f : Res α) := fun _ => rfl

theorem ite {c : Stream → Prop} [DecidablePred c] {op op' : Stream → Res α} (hc : ∀ st, c st.forgetStorePos ↔ c st)
    (h : IgnoresStorePos op) (h' : IgnoresStorePos op') : IgnoresStorePos fun st => if c st then op st else op' st :=
  fun st => by
  simp only [hc]
  split
  · exact h st
  · exact h' st

theorem forgetStorePos_bind {f : α → Stream → Res β} (hf : ∀ a, IgnoresStorePos (f a)) (r : Res α) :
    (r.forgetStorePos.bind f).forgetStorePos = (r.bind f).forgetStorePos := by
  cases r with
  | ok a st => exact hf a st
  | raise e | stuck e => rfl

theorem bind {op : Stream → Res α} {f : α → Stream → Res β} (h : IgnoresStorePos op) (hf : ∀ a, IgnoresStorePos (f a)) :
    IgnoresStorePos fun st => (op st).bind f := fun st => by
  rw [← forgetStorePos_bind hf, h st, forgetStorePos_bind hf]

theorem map {op : Stream → Res α} {g : Stream → α → β} (h : IgnoresStorePos op)
    (hg : ∀ st, g st.forgetStorePos = g st) : IgnoresStorePos fun st => (op st).map (g st) := fun st => by
  simp only [hg]
  exact h.bind (fun a => pure (g st a)) st

/-! #### The micro-operations (40_cursor.md R111 to R116) -/

section
variable (cap : Nat)

/-- A store leaves its own STORE_POS, whatever was there. -/
theorem commitIfPending {b : Stream → Byte} (hb : ∀ st, b st.forgetStorePos = b st) :
    IgnoresStorePos fun st => st.commitIfPending cap (b st) :=
  ite (fun _ => Iff.rfl)
    (ite (fun _ => Iff.rfl) (stuck _) (ok (fun _ => rfl) fun st => by rw [hb]; rfl)) (pure ())

theorem nextByte : IgnoresStorePos Stream.nextByte :=
  ite (fun _ => Iff.rfl) (ok (fun _ => rfl) fun _ => rfl) (stuck _)

theorem advance : IgnoresStorePos (Stream.advance cap) :=
  ite (fun _ => Iff.rfl) ((commitIfPending cap fun _ => rfl).bind fun _ => nextByte) (ok (fun _ => rfl) fun _ => rfl)

theorem putBit (b : Bool) : IgnoresStorePos (Stream.putBit cap b) := fun st =>
  advance cap { st with pend := assignBit st.pend st.bitOff b, hpw := true }

theorem putBits (bits : List Bool) : IgnoresStorePos (Stream.putBits cap bits) := by
  induction bits with
  | nil => exact pure ()
  | cons b rest ih => exact (putBit cap b).bind fun _ => ih

theorem fetch : IgnoresStorePos Stream.fetch :=
  ite (fun _ => Iff.rfl)
    (ite (fun _ => Iff.rfl) (raise fun _ => rfl) (ok (fun _ => rfl) fun _ => rfl))
    (ite (fun _ => Iff.rfl) (raise fun _ => rfl) (pure ()))

theorem getBit : IgnoresStorePos (Stream.getBit cap) :=
  fetch.bind fun _ => (advance cap).map fun _ => rfl

theorem getBits (n : Nat) : IgnoresStorePos (Stream.getBits cap n) := by
  induction n with
  | zero => exact pure []
  | succ n ih => exact (getBit cap).bind fun _ => ih.map fun _ => rfl

theorem alignPad : IgnoresStorePos (Stream.alignPad cap) :=
  ite (fun _ => Iff.rfl) (pure ()) ((commitIfPending cap fun _ => rfl).bind fun _ => nextByte)

/-- SETPOS leaves its own STORE_POS, as a store does. -/
theorem setPos (p : Word) : IgnoresStorePos (Stream.setPos cap p) :=
  (commitIfPending cap fun _ => rfl).bind fun _ => ok (fun _ => rfl) fun _ => rfl

theorem byteCheck (au : Bool) : IgnoresStorePos (byteCheck au) :=
  ite (fun _ => Iff.rfl) (raise fun _ => rfl) (pure ())

theorem zeroRun (left z : Nat) : IgnoresStorePos (Stream.zeroRun cap left z) := by
  induction left generalizing z with
  | zero => exact (getBit cap).bind fun _ => ite (fun _ => Iff.rfl) (pure z) (raise fun _ => rfl)
  | succ left ih => exact (getBit cap).bind fun _ => ite (fun _ => Iff.rfl) (pure z) (ih (z + 1))

theorem parseUe (style : GolombStyle) : IgnoresStorePos (Stream.parseUe cap style) :=
  (zeroRun cap _ _).bind fun _ => (getBits cap _).map fun _ => rfl

end

/-! #### The pseudocode of the Exp-Golomb commands (42_exp_golomb.md R204, R205) -/

section
variable (s : State)

theorem emitUe (c : Nat) : IgnoresStorePos fun st => emitUe { s with stream := st } c :=
  (putBits s.cfg.storeCap (ueCode s.gmode c)).map (g := fun _ _ => ueWritten s.gmode c) fun _ => rfl

theorem readUe : IgnoresStorePos fun st => readUe { s with stream := st } :=
  (parseUe s.cfg.storeCap s.gmode).bind fun cr => ite (fun _ => Iff.rfl) (raise fun _ => rfl) (pure cr)

theorem readSe : IgnoresStorePos fun st => readSe { s with stream := st } :=
  (parseUe s.cfg.storeCap s.gmode).bind fun _ => ite (fun _ => Iff.rfl) (raise fun _ => rfl) (pure _)

theorem readTeBit : IgnoresStorePos fun st => readTeBit { s with stream := st } :=
  (getBit s.cfg.storeCap).map fun _ => rfl

end

/-- Every command gives `State.finish` the result, on the stream it starts with, of an operation that ignores STORE_POS;
and what it delivers goes to other fields. -/
theorem exec_eq_finish (i : Instr) (s : State) :
    ∃ (α : Type) (p : Bool) (op : Stream → Res α) (d : α → State → State),
      (∀ st, exec i { s with stream := st } = State.finish { s with stream := st } p (op st) d) ∧
      (∀ a t, withoutStorePos (d a t) = d a (withoutStorePos t)) ∧ IgnoresStorePos op := by
  cases i
  -- the commands that only compute: their operation is named, so that `State.finish` stays folded
  case pfmt t sg sg2 =>
    exact ⟨_, false, .ok (fmt t sg sg2 s.arg0), fun p => State.setRes (packOut t sg p) p, fun _ => rfl, fun _ _ => rfl,
      pure _⟩
  case pval t sg =>
    exact ⟨_, false, .ok (packOut t sg s.arg0), State.setRes0, fun _ => rfl, fun _ _ => rfl, pure _⟩
  case peq t sa sb =>
    exact ⟨_, false, .ok (packEq t sa s.arg0 sb s.arg1), fun b => State.setRes0 ((BitVec.ofBool b).setWidth 64),
      fun _ => rfl, fun _ _ => rfl, pure _⟩
  case rdue => exact ⟨_, _, _, _, fun _ => rfl, fun _ _ => rfl, readUe s⟩
  case rdse => exact ⟨_, _, _, _, fun _ => rfl, fun _ _ => rfl, readSe s⟩
  all_goals
    refine ⟨_, _, _, _, fun _ => rfl, fun _ _ => rfl, ?_⟩
    dsimp only
  case wrbit => exact putBit s.cfg.storeCap _
  case wrbits n => exact ite (fun _ => Iff.rfl) (raise fun _ => rfl) (putBits s.cfg.storeCap _)
  case rdbit p => exact getBit s.cfg.storeCap
  case rdbits n p => exact ite (fun _ => Iff.rfl) (raise fun _ => rfl) (getBits s.cfg.storeCap n.toNat)
  case wrbytes n =>
    exact ite (fun _ => Iff.rfl) (raise fun _ => rfl) ((byteCheck s.au).bind fun _ => putBits s.cfg.storeCap _)
  case rdbytes n p =>
    exact ite (fun _ => Iff.rfl) (raise fun _ => rfl) ((byteCheck s.au).bind fun _ => getBits s.cfg.storeCap _)
  case align => exact alignPad s.cfg.storeCap
  case setpos => exact setPos s.cfg.storeCap s.arg0
  case skipbits => exact getBits s.cfg.storeCap _
  case skipbytes => exact (byteCheck s.au).bind fun _ => getBits s.cfg.storeCap _
  case release => exact (alignPad s.cfg.storeCap).bind fun _ => ok (fun _ => rfl) fun _ => rfl
  case pwr => exact putBits s.cfg.storeCap _
  case prd => exact getBits s.cfg.storeCap _
  case pbit => exact ite (fun _ => Iff.rfl) (raise fun _ => rfl) (pure _)
  case pbytes => exact ite (fun _ => Iff.rfl) (pure _) (raise fun _ => rfl)
  case wrue | wrse => exact emitUe s _
  case wrte => exact ite (fun _ => Iff.rfl) (emitUe s _) ((putBit s.cfg.storeCap _).map fun _ => rfl)
  case rdte => exact ite (fun _ => Iff.rfl) (readUe s) (readTeBit s)

end IgnoresStorePos

/-- `State.finish` itself reads the stream in a peek alone, and there puts it back. -/
theorem State.finish_withoutStorePos {α : Type} {d : α → State → State}
    (hd : ∀ a t, withoutStorePos (d a t) = d a (withoutStorePos t)) (s : State) (p : Bool) (r : Res α) :
    mapNext withoutStorePos (s.finish p r d) = (withoutStorePos s).finish p r.forgetStorePos d := by
  cases r with
  | ok a st =>
    have end_eq : ∀ t : State, withoutStorePos t.clearStatus = (withoutStorePos t).clearStatus := fun _ => rfl
    rw [State.finish_ok, mapNext, end_eq, hd]
    cases p <;> rfl
  | raise e | stuck f => rfl

/-- What a command leaves, up to STORE_POS, is the same from the state without it. -/
theorem exec_withoutStorePos (i : Instr) (s : State) :
    mapNext withoutStorePos (exec i (withoutStorePos s)) = mapNext withoutStorePos (exec i s) := by
  obtain ⟨α, p, op, d, he, hd, hop⟩ := IgnoresStorePos.exec_eq_finish i s
  calc mapNext withoutStorePos (exec i (withoutStorePos s))
    _ = (withoutStorePos s).finish p (op s.stream.forgetStorePos).forgetStorePos d :=
      (congrArg _ (he s.stream.forgetStorePos)).trans (State.finish_withoutStorePos hd _ p _)
    _ = (withoutStorePos s).finish p (op s.stream).forgetStorePos d := by rw [hop]
    _ = mapNext withoutStorePos (exec i s) :=
      (State.finish_withoutStorePos hd s p _).symm.trans (congrArg _ (he s.stream).symm)

/-! ### The obligations on the store (spec/20_memory.md) -/

/-- Settles O40: every command is an operation that ignores STORE_POS, given to `State.finish`. -/
theorem storePosIsNotAnInput : Obligations.StorePosIsNotAnInput := by
  intro i s t hst
  rw [← exec_withoutStorePos i s, hst, exec_withoutStorePos]

/-- Settles O18: the bits written stand at the old position after SETPOS (`Stream.write_then_seek`), and a read there
assembles them to the field. -/
theorem wrbitsReadBack : Obligations.WrbitsReadBack := by
  intro n s h hn hroom
  obtain ⟨st1, st2, e1, e2, -, i2, p2, -, hbits, hread⟩ :=
    Stream.write_then_seek (bits := fieldBits s.arg0 n.toNat) h.stream h.cap_lt (by rwa [fieldBits_length]) s.posWord_toNat
  rw [fieldBits_length] at hbits hread
  obtain ⟨st3, e3, c3, -⟩ := Stream.getBits_ok i2 h.cap_lt (hread _ le_rfl).1 (hread _ le_rfl).2
  have hfield : st2.fieldNat n.toNat = s.arg0.toNat % 2 ^ n.toNat :=
    Stream.fieldNat_of_bits s.arg0.getLsbD p2
      (fun i hi => (hbits i hi).trans (getD_range_map _ hi)) fun _ _ => rfl
  refine ⟨_, _, _, exec_wrbits_of_ok hn e1, exec_setpos_of_ok e2, exec_rdbits_of_ok hn e3, rfl, ?_, ?_⟩
  · show wordOfBits (st2.bitsFrom n.toNat) = _
    rw [Stream.wordOfBits_bitsFrom, Stream.field, hfield]
  · exact c3.pos.trans (by rw [p2])

/-- Settles O52: the effect of each access, and the byte at each address after it. -/
theorem hostStoreAccess : Obligations.HostStoreAccess := by
  intro s rest h
  have hwf := h.stream.memWf
  have hlen : s.stream.len < 2 ^ 64 := by have := h.stream.lenLe; have := h.cap_lt; omega
  refine ⟨?write, ?append, ?full, ?truncate, ?read, ?outside, ?readLen, ?tell, ?seek⟩
  case write =>
    intro a b ha hs
    exact ⟨s.stream.hostWrite a b, (step_cons hs).trans (if_pos ha), rfl, Stream.byte?_hostWrite hwf ha b, rfl⟩
  case append =>
    intro b hl hs
    exact ⟨s.stream.hostAppend b, (step_cons hs).trans (if_pos hl), rfl, Stream.byte?_hostAppend hwf b, rfl⟩
  case full =>
    intro b hl hs
    exact (step_cons hs).trans (if_neg hl.not_lt)
  case truncate =>
    intro l hs
    exact ⟨_, step_cons hs, rfl, Stream.byte?_hostTruncate _ l, rfl⟩
  case read =>
    intro a b ha hb hs
    rw [Stream.byte?_of_lt ha, Option.some.injEq] at hb
    rw [← hb]
    exact (step_cons hs).trans (if_pos ha)
  case outside =>
    rintro a b ha (hs | hs)
    · exact (step_cons hs).trans (if_neg (Nat.not_lt.2 ha))
    · exact (step_cons hs).trans (if_neg (Nat.not_lt.2 ha))
  case readLen =>
    intro hs
    exact ⟨_, step_cons hs, by rw [BitVec.toNat_ofNat, Nat.mod_eq_of_lt hlen]⟩
  case tell =>
    intro hs
    exact ⟨_, step_cons hs, BitVec.toNat_setWidth_of_le (by decide)⟩
  case seek => exact fun p hs => step_cons hs

end Sys2Proof.Machine
end

section
/-! SUPPORT. Command words (spec/30_encoding.md): the decoder accepts exactly the legal words (R86, R87), a word that decodes
is the word of its command, and the word of a well-formed command decodes to it (R81, R82, R85). -/

namespace Sys2Proof.Machine

/-! ### What the decoder accepts is what the opcode table allows (R86, R87) -/

theorem ifUnusedZero_isOk {w free : CmdWord} {i : Instr} :
    (∃ j, ifUnusedZero w free i = .ok j) ↔ w &&& ~~~(maskOpc ||| free) = 0#32 := by
  unfold ifUnusedZero
  split
  next h => exact ⟨fun _ => h, fun _ => ⟨i, rfl⟩⟩
  next h => exact ⟨nofun, fun h' => absurd h' h⟩

theorem ifWidth_isOk {w free : CmdWord} {f : Width → Instr} :
    (∃ j, ifWidth w free f = .ok j) ↔
      w &&& ~~~(maskOpc ||| (maskWidx ||| free)) = 0#32 ∧ (widxOf w).toNat < 10 := by
  rw [← widthOfIndex_some, ← BitVec.or_assoc]
  unfold ifWidth
  split
  next h =>
    cases widthOfIndex (widxOf w) with
    | some t => exact ⟨fun _ => ⟨h, t, rfl⟩, fun _ => ⟨f t, rfl⟩⟩
    | none => exact ⟨nofun, fun ⟨_, _, ht⟩ => nomatch ht⟩
  next h => exact ⟨nofun, fun ⟨h', _⟩ => absurd h' h⟩

theorem ifByteWidth_isOk {w : CmdWord} {f : Width → Instr} :
    (∃ j, ifByteWidth w f = .ok j) ↔
      w &&& ~~~(maskOpc ||| maskWidx ||| maskS) = 0#32 ∧ (widxOf w = 8#4 ∨ widxOf w = 9#4) := by
  unfold ifByteWidth
  split
  next h =>
    split
    next h8 => exact ⟨fun _ => ⟨h, .inl h8⟩, fun _ => ⟨_, rfl⟩⟩
    next h8 =>
      split
      next h9 => exact ⟨fun _ => ⟨h, .inr h9⟩, fun _ => ⟨_, rfl⟩⟩
      next h9 => exact ⟨nofun, fun ⟨_, hx⟩ => absurd hx (not_or.2 ⟨h8, h9⟩)⟩
  next h => exact ⟨nofun, fun ⟨h', _⟩ => absurd h' h⟩

/-- The row of an opcode but PBYTES, by its free fields: the row's match and mask ask that every other bit is 0. -/
theorem legalWord_iff_rest_zero {w free : CmdWord} {k : Nat} {widxFree : Bool} (ho : (opcOf w).toNat = k)
    (hr : ⟨BitVec.ofNat 32 k, ~~~free, widxFree⟩ ∈ opcodeRows) (hf : free &&& maskOpc = 0#32) :
    legalWord w ↔ w &&& ~~~(maskOpc ||| free) = 0#32 ∧ (widxFree = true → (widxOf w).toNat < 10) := by
  have hk : k < 256 := ho ▸ (opcOf w).isLt
  have hopc : (opcOf w).toNat = (BitVec.ofNat 32 k).toNat % 256 := by
    rw [ho, BitVec.toNat_ofNat]
    omega
  rw [legalWord_of_opc hr hopc, OpcodeRow.selects, selects_iff w free k hk hf, and_iff_right ho]

theorem ifUnusedZero_isOk_iff_legalWord {w free : CmdWord} {i : Instr} {k : Nat} (ho : (opcOf w).toNat = k)
    (hr : ⟨BitVec.ofNat 32 k, ~~~free, false⟩ ∈ opcodeRows) (hf : free &&& maskOpc = 0#32) :
    (∃ j, ifUnusedZero w free i = .ok j) ↔ legalWord w := by
  rw [ifUnusedZero_isOk, legalWord_iff_rest_zero ho hr hf]
  exact (and_iff_left nofun).symm

theorem ifWidth_isOk_iff_legalWord {w free : CmdWord} {f : Width → Instr} {k : Nat} (ho : (opcOf w).toNat = k)
    (hr : ⟨BitVec.ofNat 32 k, ~~~(maskWidx ||| free), true⟩ ∈ opcodeRows)
    (hf : (maskWidx ||| free) &&& maskOpc = 0#32) : (∃ j, ifWidth w free f = .ok j) ↔ legalWord w := by
  rw [ifWidth_isOk, legalWord_iff_rest_zero ho hr hf, forall_prop_of_true rfl]

theorem ifByteWidth_isOk_iff_legalWord {w : CmdWord} {f : Width → Instr} (ho : (opcOf w).toNat = 0x15) :
    (∃ j, ifByteWidth w f = .ok j) ↔ legalWord w := by
  have hr : ⟨0x00080015#32, 0xFFEEFFFF#32, false⟩ ∈ opcodeRows := by decide
  rw [ifByteWidth_isOk, legalWord_of_opc hr ho, OpcodeRow.selects, pbytes_selects, and_iff_right ho]
  exact (and_iff_left nofun).symm

/-- The opcodes of R85. -/
theorem opcodeRows_opcodes : opcodeRows.map (fun r => r.pattern.toNat % 256) =
    [1, 2, 3, 4, 5, 6, 7, 8, 9, 10, 11, 16, 17, 18, 19, 20, 21, 22, 32, 33, 34, 35, 36, 37] := by decide

theorem opcOf_mem_of_legalWord {w : CmdWord} (h : legalWord w) :
    (opcOf w).toNat ∈ opcodeRows.map fun r => r.pattern.toNat % 256 := by
  obtain ⟨r, hr, hs, -⟩ := h
  exact OpcodeRow.opc hr hs ▸ List.mem_map_of_mem hr

/-- R86 and R87: each arm of the decoder against the row of its opcode; an opcode of no arm is an opcode of no row. -/
theorem decode_isOk_iff_legalWord (w : CmdWord) : (∃ i, decode w = .ok i) ↔ legalWord w := by
  unfold decode
  split
  case h_12 ho | h_13 ho | h_14 ho | h_15 ho | h_16 ho | h_18 ho =>
    exact ifWidth_isOk_iff_legalWord ho (by decide) (by decide)
  case h_17 ho => exact ifByteWidth_isOk_iff_legalWord ho
  case h_25 =>
    refine ⟨nofun, fun h => ?_⟩
    have hmem := opcOf_mem_of_legalWord h
    rw [opcodeRows_opcodes] at hmem
    simp_all
  all_goals next ho => exact ifUnusedZero_isOk_iff_legalWord ho (by decide) (by decide)

/-- Settles O43: each arm of the decoder against its row (`decode_isOk_iff_legalWord`), and the opcode of a selected row. -/
theorem legalWords : Obligations.LegalWords :=
  ⟨decode_isOk_iff_legalWord, fun _ r r' hr hr' hs hs' =>
    opcodeRows_inj r hr r' hr' (by rw [← OpcodeRow.opc hr hs, ← OpcodeRow.opc hr' hs'])⟩

theorem decode_error_of_not_legalWord {w : CmdWord} (h : ¬ legalWord w) : ∃ e, decode w = .error e := by
  cases hd : decode w with
  | ok i => exact absurd ((decode_isOk_iff_legalWord w).1 ⟨i, hd⟩) h
  | error e => exact ⟨e, rfl⟩

theorem runCommand_of_not_legalWord {w : CmdWord} (h : ¬ legalWord w) (s : State) :
    runCommand w s = .next (s.failed .illegalCommand 0#4) := by
  obtain ⟨e, he⟩ := decode_error_of_not_legalWord h
  rw [runCommand, he]
  rfl

/-- Settles O46: the decoder refuses a word that is not legal. -/
theorem illegalWordFails : Obligations.IllegalWordFails := by
  intro s v rest hs hw
  rw [step_cons hs, hostAccess_command]
  exact runCommand_of_not_legalWord hw _

/-! ### A word that decodes is the word of its command (R81, R85) -/

/-- A word made of its opcode and the other bits `rest` is the word of a command with that opcode and those fields. -/
theorem encode_of_opc_of_fields {w rest : CmdWord} {i : Instr} {k : Nat} (ho : (opcOf w).toNat = k)
    (hw : w = w &&& maskOpc ||| rest) (hopc : opcodeOf i = BitVec.ofNat 32 k) (hfields : fieldsOf i = rest) :
    encode i = w := by
  rw [encode, hopc, hfields, ← and_maskOpc ho (ho ▸ (opcOf w).isLt)]
  exact hw.symm

/-- What each check accepts is the opcode and the free fields; the fields in their places are those bits of the word. -/
theorem encode_of_decode {w : CmdWord} {i : Instr} (h : decode w = .ok i) : encode i = w := by
  unfold decode at h
  split at h
  case h_12 ho | h_13 ho | h_14 ho | h_15 ho | h_16 ho | h_18 ho =>
    obtain ⟨t, ht, rfl, hw⟩ := ifWidth_ok h
    refine encode_of_opc_of_fields ho (hw.trans (BitVec.or_assoc _ _ _)) rfl ?_
    simp only [fieldsOf, putWidx_eq w t ht, putS_eq, putS2_eq, putP_eq, CmdWord.and_or, BitVec.or_assoc]
  case h_17 ho =>
    obtain ⟨t, ht, -, rfl, hw⟩ := ifByteWidth_ok h
    refine encode_of_opc_of_fields ho (hw.trans (BitVec.or_assoc _ _ _)) rfl ?_
    rw [fieldsOf, putWidx_eq w t ht, putS_eq]
  case h_25 => cases h
  all_goals next ho =>
    obtain ⟨rfl, hw⟩ := ifUnusedZero_ok h
    exact encode_of_opc_of_fields ho hw rfl (by simp [fieldsOf, putN_eq, putP_eq, CmdWord.and_or])

/-- Settles O42, by `decode_wf` and `encode_of_decode`. -/
theorem encodeDecode : Obligations.EncodeDecode := fun _ _ h => ⟨decode_wf h, encode_of_decode h⟩

/-! ### The word of a well-formed command decodes to it (R81, R82, R85) -/

theorem legalWord_encode {i : Instr} (h : i.wf = true) : legalWord (encode i) := by
  open Laws.EncodesLegally in
  cases i with
  | wrbit => exact wrbit h
  | wrbits n => exact wrbits n h
  | rdbit p => exact rdbit p h
  | rdbits n p => exact rdbits n p h
  | wrbytes n => exact wrbytes n h
  | rdbytes n p => exact rdbytes n p h
  | align => exact align h
  | setpos => exact setpos h
  | skipbits => exact skipbits h
  | skipbytes => exact skipbytes h
  | release => exact release h
  | pwr t s s2 => exact pwr t s s2 h
  | prd t s p => exact prd t s p h
  | pfmt t s s2 => exact pfmt t s s2 h
  | pval t s => exact pval t s h
  | pbit t s => exact pbit t s h
  | pbytes t s => exact pbytes t s h
  | peq t s s2 => exact peq t s s2 h
  | wrue => exact wrue h
  | rdue p => exact rdue p h
  | wrse => exact wrse h
  | rdse p => exact rdse p h
  | wrte => exact wrte h
  | rdte p => exact rdte p h

/-! #### What the decoder reads of a command word's parts: each field sees itself alone (R81) -/

section
variable (x y : CmdWord) (n : BitVec 7) (p : Bool) (t : Width) (s : Sign)

@[simp] theorem opcOf_or : opcOf (x ||| y) = opcOf x ||| opcOf y := BitVec.extractLsb'_or
@[simp] theorem countOf_or : countOf (x ||| y) = countOf x ||| countOf y := BitVec.extractLsb'_or
@[simp] theorem peekOf_or : peekOf (x ||| y) = (peekOf x || peekOf y) := BitVec.getLsbD_or
@[simp] theorem widxOf_or : widxOf (x ||| y) = widxOf x ||| widxOf y := BitVec.extractLsb'_or

/-- The signs are read as bits 20 and 21, here and for the other parts; `signOfBit` makes signs of them. -/
@[simp] theorem putN_read : opcOf (putN n) = 0#8 ∧ countOf (putN n) = n ∧ peekOf (putN n) = false ∧
    widxOf (putN n) = 0#4 ∧ (putN n)[20] = false ∧ (putN n)[21] = false := by
  revert n
  decide

@[simp] theorem putP_read : opcOf (putP p) = 0#8 ∧ countOf (putP p) = 0#7 ∧ peekOf (putP p) = p ∧
    widxOf (putP p) = 0#4 ∧ (putP p)[20] = false ∧ (putP p)[21] = false := by
  cases p <;> decide

@[simp] theorem putWidx_read : opcOf (putWidx t) = 0#8 ∧ countOf (putWidx t) = 0#7 ∧ peekOf (putWidx t) = false ∧
    widxOf (putWidx t) = widthIndex t ∧ (putWidx t)[20] = false ∧ (putWidx t)[21] = false := by
  cases t <;> decide

@[simp] theorem putS_read : opcOf (putS s) = 0#8 ∧ countOf (putS s) = 0#7 ∧ peekOf (putS s) = false ∧
    widxOf (putS s) = 0#4 ∧ (putS s)[20] = s.bit ∧ (putS s)[21] = false := by
  cases s <;> decide

@[simp] theorem putS2_read : opcOf (putS2 s) = 0#8 ∧ countOf (putS2 s) = 0#7 ∧ peekOf (putS2 s) = false ∧
    widxOf (putS2 s) = 0#4 ∧ (putS2 s)[20] = false ∧ (putS2 s)[21] = s.bit := by
  cases s <;> decide

@[simp] theorem opcodeOf_read (i : Instr) : opcOf (opcodeOf i) = (opcodeOf i).setWidth 8 ∧ countOf (opcodeOf i) = 0#7 ∧
    peekOf (opcodeOf i) = false ∧ widxOf (opcodeOf i) = 0#4 ∧ (opcodeOf i)[20] = false ∧
    (opcodeOf i)[21] = false := by
  cases i <;> (rw [opcodeOf]; decide)

@[simp] theorem signOfBit_bit : signOfBit s.bit = s := by
  cases s <;> rfl

@[simp] theorem widthOfIndex_widthIndex : widthOfIndex (widthIndex t) = some t := by
  cases t <;> rfl
end

theorem opcOf_encode (i : Instr) : opcOf (encode i) = (opcodeOf i).setWidth 8 := by
  cases i <;> simp [encode, fieldsOf]

/-- The word is legal, so one of the decoder's checks accepts it; the opcode says which, and the fields give the operands. -/
theorem decode_encode {i : Instr} (h : i.wf = true) : decode (encode i) = .ok i := by
  obtain ⟨j, hj⟩ := (decode_isOk_iff_legalWord _).2 (legalWord_encode h)
  suffices j = i by rwa [this] at hj
  unfold decode at hj
  rw [opcOf_encode] at hj
  cases i
  case pwr | prd | pfmt | pval | pbit | peq =>
    obtain ⟨t, ht, rfl, -⟩ := ifWidth_ok hj
    clear hj
    simp_all [encode, fieldsOf, signOf, sign2Of]
  case pbytes =>
    obtain ⟨t, ht, -, rfl, -⟩ := ifByteWidth_ok hj
    clear hj
    simp_all [encode, fieldsOf, signOf]
  all_goals
    obtain ⟨rfl, -⟩ := ifUnusedZero_ok hj
    simp [encode, fieldsOf]

/-- Settles O41: `decode_encode` for every command. -/
theorem decodeEncode : Obligations.DecodeEncode := fun _ => decode_encode

/-- Settles O44: the first six words are the words of their commands. -/
theorem decodeWords : Obligations.DecodeWords :=
  ⟨decode_encode (i := .wrbits 4#7) rfl, decode_encode (i := .rdbits 64#7 true) rfl, decode_encode (i := .align) rfl,
    decode_encode (i := .pwr .w4 .signed .signed) rfl, decode_encode (i := .pbytes .w48 .signed) rfl,
    decode_encode (i := .rdue true) rfl, rfl, rfl, rfl, rfl⟩

end Sys2Proof.Machine
end

section
/-! SUPPORT. The cursor commands (spec/40_cursor.md R117 to R133): which run of bits each of them gives `State.finish`,
the byte a write or a commit leaves under the cursor, and the statements about them. -/

namespace Sys2Proof.Machine

/-! ### The tests a command makes before it touches the stream (40_cursor.md R116, R118, R120 to R122, R128) -/

section
variable {α : Type} {s : State} {p : Bool} {d : α → State → State}

/-- A count out of its range is ArgumentRange. -/
theorem State.finish_outOfRange {c : Prop} [Decidable c] (hc : c) (r : Res α) :
    s.finish p (if c then .raise .argumentRange else r) d = .next (s.failed .argumentRange 0#4) := by
  rw [if_pos hc]
  rfl

theorem State.finish_unaligned (hu : s.unalignedRefused) (f : Unit → Stream → Res α) :
    s.finish p ((byteCheck s.au s.stream).bind f) d = .next s.unalignedFailure := by
  rw [byteCheck_refused hu, Res.bind_raise, State.finish_raise, takeError_unaligned]

theorem State.finish_byteCheck (hu : ¬ s.unalignedRefused) (f : Unit → Stream → Res α) :
    s.finish p ((byteCheck s.au s.stream).bind f) d = s.finish p (f () s.stream) d := by
  rw [byteCheck_passed hu, Res.bind_ok]

/-- The P = 1 form of a command differs from its P = 0 form in the stream it leaves (R131), as the results go to other
fields. -/
theorem State.finish_peek (hd : ∀ a (t : State) (st : Stream), { d a t with stream := st } = d a { t with stream := st })
    (r : Res α) : s.finish true r d = restoring s (s.finish false r d) := by
  cases r with
  | ok a st =>
    exact congrArg (fun t : State => Host.Outcome.next t.clearStatus) (hd a { s with stream := st } s.stream).symm
  | raise e | stuck f => rfl

end

/-! ### The commands that write bits (R117, R118, R121) -/

section
variable {s : State} (h : s.Inv) {n : BitVec 7}
include h

theorem exec_wrbits_writes (hn : n.toNat ≤ 64) :
    s.Writes (fieldBits s.arg0 n.toNat) (exec (.wrbits n) s) fun st => s.done st s.res0 s.res1 := by
  rw [exec, execWrbits, if_neg (Nat.not_lt.2 hn)]
  exact State.finish_putBits h _ _

theorem exec_wrbytes_writes (hn : n.toNat ≤ 8) (hu : ¬ s.unalignedRefused) :
    s.Writes (fieldBits s.arg0 (8 * n.toNat)) (exec (.wrbytes n) s) fun st => s.done st s.res0 s.res1 := by
  rw [exec, execWrbytes, if_neg (Nat.not_lt.2 hn), State.finish_byteCheck hu]
  exact State.finish_putBits h _ _

end

/-- Settles O1: one `put_bit`. -/
theorem wrbitWritesBit : Obligations.WrbitWritesBit := fun _ h => State.finish_putBit h _ _

/-- Settles O2: the test of N, then a run of `put_bit` (`exec_wrbits_writes`). -/
theorem wrbitsWritesField : Obligations.WrbitsWritesField := fun _ _ h =>
  ⟨exec_wrbits_writes h, fun hn => State.finish_outOfRange hn _⟩

/-- Settles O5: the test of N, the test of the alignment, then a run of `put_bit` (`exec_wrbytes_writes`). -/
theorem wrbytesWritesBytes : Obligations.WrbytesWritesBytes := by
  intro n s h
  refine ⟨fun hn => State.finish_outOfRange hn _, fun hn hu => ?_, exec_wrbytes_writes h⟩
  rw [exec, execWrbytes, if_neg (Nat.not_lt.2 hn), State.finish_unaligned hu]

/-! ### The commands that read bits (R119, R120, R122, R127, R128) -/

section
variable {s : State} (h : s.Inv)
include h

/-- A run of `get_bit` whose bits are assembled in RES0. -/
theorem State.finish_getBits_res0 (n : Nat) (p : Bool) :
    s.Reads n (s.finish p (s.stream.getBits s.cfg.storeCap n) fun bits => State.setRes0 (wordOfBits bits)) fun st =>
      s.done (if p then s.stream else st) (s.stream.field n) s.res1 := by
  rw [← Stream.wordOfBits_bitsFrom]
  exact State.finish_getBits h n p _

theorem exec_rdbits_reads {n : BitVec 7} (hn : n.toNat ≤ 64) (p : Bool) :
    s.Reads n.toNat (exec (.rdbits n p) s) fun st =>
      s.done (if p then s.stream else st) (s.stream.field n.toNat) s.res1 := by
  rw [exec, execRdbits, if_neg (Nat.not_lt.2 hn)]
  exact State.finish_getBits_res0 h _ p

theorem exec_rdbytes_reads {n : BitVec 7} (hn : n.toNat ≤ 8) (hu : ¬ s.unalignedRefused) (p : Bool) :
    s.Reads (8 * n.toNat) (exec (.rdbytes n p) s) fun st =>
      s.done (if p then s.stream else st) (s.stream.field (8 * n.toNat)) s.res1 := by
  rw [exec, execRdbytes, if_neg (Nat.not_lt.2 hn), State.finish_byteCheck hu]
  exact State.finish_getBits_res0 h _ p

end

/-- One bit as a register holds it (R119). -/
theorem ofBool_setWidth_eq_ite (b : Bool) : (BitVec.ofBool b).setWidth 64 = if b then 1#64 else 0#64 := by
  cases b <;> rfl

/-- Settles O3: one `get_bit`. -/
theorem rdbitReadsBit : Obligations.RdbitReadsBit := by
  intro p s h
  rw [← ofBool_setWidth_eq_ite]
  exact State.finish_getBit h p _

/-- Settles O4: the test of N, then a run of `get_bit` (`exec_rdbits_reads`). -/
theorem rdbitsReadsField : Obligations.RdbitsReadsField := fun _ p _ h =>
  ⟨fun hn => exec_rdbits_reads h hn p, fun hn => State.finish_outOfRange hn _⟩

/-- Settles O6: the test of N, the test of the alignment, then a run of `get_bit` (`exec_rdbytes_reads`). -/
theorem rdbytesReadsBytes : Obligations.RdbytesReadsBytes := by
  intro n p s h
  refine ⟨fun hn => State.finish_outOfRange hn _, fun hn hu => ?_, fun hn hu => exec_rdbytes_reads h hn hu p⟩
  rw [exec, execRdbytes, if_neg (Nat.not_lt.2 hn), State.finish_unaligned hu]

/-- Settles O12: a run of ARG0 `get_bit`, whose bits go nowhere. -/
theorem skipbitsPassesBits : Obligations.SkipbitsPassesBits := fun _ h => State.finish_getBits h _ false _

/-- Settles O13: the test of the alignment, then a run of 8 * ARG0 `get_bit`. -/
theorem skipbytesPassesBytes : Obligations.SkipbytesPassesBytes := by
  intro s h
  refine ⟨fun hu => State.finish_unaligned hu _, fun hu => ?_⟩
  rw [exec, execSkipbytes, State.finish_byteCheck hu]
  exact State.finish_getBits h _ false _

/-- Settles O15: each of the seven commands gives its two forms the same result (`State.finish_peek`). -/
theorem peekRestoresStream : Obligations.PeekRestoresStream := fun _ =>
  ⟨State.finish_peek (fun _ _ _ => rfl) _, fun _ => State.finish_peek (fun _ _ _ => rfl) _,
    fun _ => State.finish_peek (fun _ _ _ => rfl) _, fun _ _ => State.finish_peek (fun _ _ _ => rfl) _,
    State.finish_peek (fun _ _ _ => rfl) _, State.finish_peek (fun _ _ _ => rfl) _,
    State.finish_peek (fun _ _ _ => rfl) _⟩

/-! ### ALIGN, RELEASE and SETPOS (R115, R125, R126, R130) -/

/-- Pending bits are in a byte the cursor is inside (10_state.md R35). -/
theorem Stream.Inv.bitOff_ne_zero {cap : Nat} {st : Stream} (h : st.Inv cap) (hp : st.hpw = true) : st.bitOff ≠ 0#3 :=
  (BitOff.eq_zero_iff _).not.2 (Stream.hpw_bitOff h hp)

/-- `align_pad` inside a byte with pending bits commits the padded byte and moves on. -/
theorem Stream.alignPad_commits {cap : Nat} {st : Stream} (h : st.Inv cap) (hc : cap < 2 ^ 61) (hp : st.hpw = true)
    (hb : st.bytePos.toNat < cap) :
    ∃ st', st.alignPad cap = .ok () st' ∧ st.Committed st.paddedPend st' ∧ st'.alignedAt (st.bytePos.toNat + 1) ∧
      st'.storePos.toNat = st.bytePos.toNat + 1 := by
  have hlt : st.bytePos.toNat + 1 < 2 ^ 61 := by omega
  refine ⟨_, Stream.alignPad_pending hc (h.bitOff_ne_zero hp) hp hb, (Stream.store_committed h _).of_same rfl rfl,
    ⟨Stream.atNext_bytePos hlt, rfl, rfl, rfl⟩, ?_⟩
  rw [Stream.atNext_storePos, Stream.store_storePos, BitVec.toNat_ofNat, Nat.mod_eq_of_lt hlt]

theorem exec_align_of_ok {s : State} {st : Stream} (h : s.stream.alignPad s.cfg.storeCap = .ok () st) :
    exec .align s = .next (s.done st s.res0 s.res1) := by
  rw [exec, execAlign, h]
  rfl

theorem exec_align_of_stuck {s : State} {f : Fault} (h : s.stream.alignPad s.cfg.storeCap = .stuck f) :
    exec .align s = .fault f := by
  rw [exec, execAlign, h]
  rfl

theorem exec_release_of_ok {s : State} {st : Stream} (h : s.stream.alignPad s.cfg.storeCap = .ok () st) :
    exec .release s = .next (s.done st.rewind s.res0 s.res1) := by
  rw [exec, execRelease, h]
  rfl

theorem exec_release_of_stuck {s : State} {f : Fault} (h : s.stream.alignPad s.cfg.storeCap = .stuck f) :
    exec .release s = .fault f := by
  rw [exec, execRelease, h]
  rfl

/-- Settles O10: what `align_pad` does in each case. -/
theorem alignMovesToBoundary : Obligations.AlignMovesToBoundary := by
  intro s h
  refine ⟨fun h0 => ?boundary, fun _ hp hb => ?pending, fun h0 hp hb => ?clean, fun hp hb => ?full,
    fun h0 hp hb => ?overflow⟩
  case boundary => exact exec_align_of_ok (Stream.alignPad_aligned _ h0)
  case pending =>
    obtain ⟨st, e, hst⟩ := Stream.alignPad_commits h.stream h.cap_lt hp hb
    exact ⟨st, exec_align_of_ok e, hst⟩
  case clean => exact exec_align_of_ok (Stream.alignPad_clean _ h0 hp hb)
  case full => exact exec_align_of_stuck (Stream.alignPad_full (h.stream.bitOff_ne_zero hp) hp hb)
  case overflow => exact exec_align_of_stuck (Stream.alignPad_overflow _ h0 hp hb.not_lt)

/-- Settles O14: what `align_pad` does in each case, and then the cursor is put to 0. -/
theorem releaseFlushesAndRewinds : Obligations.ReleaseFlushesAndRewinds := by
  intro s h
  refine ⟨fun hp hb => ?pending, fun hp hb => ?clean, fun hp hb => ?full, fun hp h0 hb => ?overflow⟩
  case pending =>
    obtain ⟨st, e, hc, -, hsp⟩ := Stream.alignPad_commits h.stream h.cap_lt hp hb
    exact ⟨st.rewind, exec_release_of_ok e, hc.of_same rfl rfl, ⟨rfl, rfl, rfl, rfl⟩, hsp⟩
  case clean =>
    by_cases h0 : s.stream.bitOff = 0#3
    · exact exec_release_of_ok (Stream.alignPad_aligned _ h0)
    · exact exec_release_of_ok (st := s.stream.atNext) (Stream.alignPad_clean _ h0 hp (hb.resolve_left h0))
  case full => exact exec_release_of_stuck (Stream.alignPad_full (h.stream.bitOff_ne_zero hp) hp hb)
  case overflow => exact exec_release_of_stuck (Stream.alignPad_overflow _ h0 hp hb.not_lt)

/-- SETPOS moves the cursor over the store in which the pending byte has been committed as it stands, if there is one. -/
theorem Stream.setPos_commits {cap : Nat} {st : Stream} (h : st.Inv cap)
    (hroom : st.hpw = true → st.bytePos.toNat < cap) (p : Word) :
    ∃ st1 : Stream, st.setPos cap p = .ok () (st1.moveTo p) ∧ st1.Inv cap ∧
      (∀ a, st1.byte? a = if st.hpw = true then st.committedByte st.pend a else st.byte? a) ∧
      st1.len = if st.hpw = true then max st.len (st.bytePos.toNat + 1) else st.len := by
  cases hp : st.hpw with
  | true =>
    have hc := Stream.store_committed h st.pend
    exact ⟨_, Stream.setPos_pending hp (hroom hp) p, Stream.store_Inv h (hroom hp), hc.bytes, hc.len⟩
  | false => exact ⟨st, Stream.setPos_clean cap hp p, h, fun _ => rfl, rfl⟩

/-- Settles O11: the commit (`Stream.setPos_commits`), then the move of the cursor. -/
theorem setposMovesCursor : Obligations.SetposMovesCursor := by
  intro s h
  refine ⟨fun hroom => ?moves, fun hp hb => ?full⟩
  case moves =>
    obtain ⟨st, e, hst, hbytes, hlen⟩ := Stream.setPos_commits h.stream hroom s.arg0
    have hlt : st.len < 2 ^ 61 := lt_of_le_of_lt hst.lenLe h.cap_lt
    refine ⟨_, exec_setpos_of_ok e, Stream.moveTo_pos _ _, Stream.moveTo_hpw _ _, ?_, ?_, Stream.moveTo_pend _ _,
      Stream.moveTo_storePos hlt _⟩
    · rwa [Stream.moveTo_byte?]
    · rwa [Stream.moveTo_len]
  case full =>
    rw [exec, execSetpos, Stream.setPos_full hp hb]
    rfl

/-! ### The byte a write leaves under the cursor (R114, R124, R133) -/

/-- PEND holds the stream bits of the byte the cursor is inside (10_state.md R38). -/
theorem Stream.pend_getLsbD {st : Stream} (h0 : st.bitOff ≠ 0#3) {i : Nat} (hi : i < 8) :
    st.pend.getLsbD i = st.bitAt (st.bytePos.toNat * 8 + i) := by
  rw [Stream.bitAt_inside h0 (by omega), Nat.mul_add_mod', Nat.mod_eq_of_lt hi]

/-- At a byte boundary the stream bits of a byte are the store's. -/
theorem Stream.bitAt_of_stored {st : Stream} (h0 : st.bitOff = 0#3) {a i : Nat} (ha : a < st.len) (hi : i < 8) :
    st.bitAt (a * 8 + i) = (st.mem.read a).getLsbD i := by
  rw [Stream.bitAt_outside (.inl h0), show (a * 8 + i) / 8 = a by omega, Nat.mul_add_mod', Nat.mod_eq_of_lt hi,
    Stream.byte?_of_lt ha, Option.getD_some]

/-- A write that does not fill the byte under the cursor stays in it. -/
theorem Stream.Wrote.staysInByte {st st' : Stream} {bits : List Bool} (w : st.Wrote bits st')
    (hl : st.bitOff.toNat + bits.length < 8) :
    st'.bytePos = st.bytePos ∧ st'.bitOff.toNat = st.bitOff.toNat + bits.length := by
  have hpos := w.pos
  have d0 := st.pos_div
  have m0 := st.pos_mod
  have d1 := st'.pos_div
  have m1 := st'.pos_mod
  exact ⟨(BytePos.eq_iff _ _).2 (by omega), by omega⟩

/-- After a write of at least one bit that ends inside a byte, bits are pending. -/
theorem Stream.Wrote.pending {st st' : Stream} {bits : List Bool} (w : st.Wrote bits st') (hl : 0 < bits.length)
    (ho : st'.bitOff ≠ 0#3) : st'.hpw = true := by
  rw [w.hpw, decide_eq_true ho, decide_eq_true (List.ne_nil_of_length_pos hl), Bool.or_true, Bool.and_true]

/-- In the byte the cursor was inside, a write replaces the bits it writes and keeps the others. -/
theorem Stream.Wrote.bitAt_sameByte {st st' : Stream} {bits : List Bool} (w : st.Wrote bits st')
    (h0 : st.bitOff ≠ 0#3) {i : Nat} (hi : i < 8) :
    st'.bitAt (st.bytePos.toNat * 8 + i) =
      if st.bitOff.toNat ≤ i ∧ i < st.bitOff.toNat + bits.length then bits.getD (i - st.bitOff.toNat) false
      else st.pend.getLsbD i := by
  have hpos : st.pos = st.bytePos.toNat * 8 + st.bitOff.toNat := rfl
  have hoff : st.bitOff.toNat ≠ 0 := (BitOff.eq_zero_iff _).not.1 h0
  split
  case isTrue hin => rw [← w.written _ (by omega), hpos, Nat.add_assoc, Nat.add_sub_cancel' hin.1]
  case isFalse hout =>
    by_cases hlt : i < st.bitOff.toNat
    · rw [w.before _ (by omega), Stream.pend_getLsbD h0 hi]
    · obtain ⟨hb, ho⟩ := w.staysInByte (by omega)
      have ho0 : st'.bitOff ≠ 0#3 := (BitOff.eq_zero_iff _).not.2 (by omega)
      rw [← hb, ← Stream.pend_getLsbD ho0 hi, w.rest i (by omega) hi, decide_eq_true hb, Bool.true_and]

/-- A write of `n` whole bytes moves the cursor `n` bytes on. -/
theorem Stream.Wrote.wholeBytes {st st' : Stream} {bits : List Bool} {n : Nat} (w : st.Wrote bits st')
    (hl : bits.length = 8 * n) :
    st'.bytePos.toNat = st.bytePos.toNat + n ∧ st'.bitOff = st.bitOff ∧
      st'.len = (if n = 0 then st.len else max st.len (st.bytePos.toNat + n)) ∧
      st'.storePos.toNat = if n = 0 then st.storePos.toNat else st.bytePos.toNat + n := by
  have hpos := w.pos
  have d0 := st.pos_div
  have m0 := st.pos_mod
  have d1 := st'.pos_div
  have m1 := st'.pos_mod
  have hb : st'.bytePos.toNat = st.bytePos.toNat + n := by omega
  have hsame : st'.bytePos = st.bytePos ↔ n = 0 := by rw [BytePos.eq_iff]; omega
  refine ⟨hb, BitVec.eq_of_toNat_eq (by omega), ?_, ?_⟩
  · simp only [w.len, hsame, hb]
  · rw [w.storePos, apply_ite BitVec.toNat]
    simp only [hsame, hb]

theorem count_eq_zero_iff (n : BitVec 7) : n = 0#7 ↔ n.toNat = 0 := BitVec.toNat_inj.symm

theorem fieldBits_getD (v : Word) {n i : Nat} (hi : i < n) : (fieldBits v n).getD i false = v.getLsbD i :=
  getD_range_map _ hi

/-- Bit `i` of byte `k` of a register. -/
theorem getLsbD_byteOf (v : Word) (k : Nat) {i : Nat} (hi : i < 8) :
    (v.extractLsb' (8 * k) 8).getLsbD i = v.getLsbD (8 * k + i) := by
  rw [BitVec.getLsbD_extractLsb', decide_eq_true hi, Bool.true_and]

theorem Stream.pos_of_aligned {st : Stream} (h0 : st.bitOff = 0#3) : st.pos = st.bytePos.toNat * 8 := by
  rw [Stream.pos, h0]
  rfl

/-- Settles O7: a write of 8N bits from a byte boundary (`Stream.Wrote.wholeBytes`), read byte by byte. -/
theorem alignedWrbytesStoresBytes : Obligations.AlignedWrbytesStoresBytes := by
  intro n s h h0 hn hroom
  have hlen : (fieldBits s.arg0 (8 * n.toNat)).length = 8 * n.toNat := fieldBits_length _ _
  have hoff : s.stream.bitOff.toNat = 0 := (BitOff.eq_zero_iff _).1 h0
  have hpos := Stream.pos_of_aligned h0
  obtain ⟨st, w, hx⟩ := (exec_wrbytes_writes h hn fun hu => hu.1 h0).1 (by unfold Stream.room; omega)
  obtain ⟨hb, ho, hl, hsp⟩ := w.wholeBytes hlen
  have ho := ho.trans h0
  simp only [count_eq_zero_iff]
  refine ⟨st, hx, ⟨hb, ho, (exec_keeps_Inv h rfl hx).stream.aligned ho⟩, fun k hk => ?written, fun a ha hal => ?frame,
    fun a hal hab hn0 => ?gap, hl, hsp⟩
  case written =>
    have hin : s.stream.bytePos.toNat + k < st.len := by rw [hl]; split <;> omega
    refine Stream.byte?_of_bits (.inl ho) (by rw [Stream.byte?_of_lt hin]; rfl) fun i hi => ?_
    calc st.bitAt ((s.stream.bytePos.toNat + k) * 8 + i)
      _ = st.bitAt (s.stream.pos + (8 * k + i)) := by rw [hpos]; congr 1; omega
      _ = s.arg0.getLsbD (8 * k + i) := by rw [w.written _ (by omega), fieldBits_getD _ (by omega)]
      _ = (s.arg0.extractLsb' (8 * k) 8).getLsbD i := (getLsbD_byteOf _ _ hi).symm
  case frame => rw [w.frame a (by omega), if_pos hal]
  case gap =>
    have hlt : a < st.len := by rw [hl]; split <;> omega
    rw [w.frame a (by omega), if_neg (Nat.not_lt.2 hal), if_pos hlt]

/-- Settles O8: a read of 8N bits from a byte boundary; every bit of it is the store's. -/
theorem alignedRdbytesLoadsBytes : Obligations.AlignedRdbytesLoadsBytes := by
  intro n s h h0 hn hlen
  have hpos := Stream.pos_of_aligned h0
  have hp : s.stream.hpw = false := (h.stream.aligned h0).2
  have havail : s.stream.avail (8 * n.toNat) := by
    unfold Stream.avail
    omega
  obtain ⟨st, c, hx⟩ := (exec_rdbytes_reads h hn (fun hu => hu.1 h0) false).1 havail fun hp' => by simp [hp] at hp'
  have hcpos := c.pos
  have hd := st.pos_div
  have hm := st.pos_mod
  have ho : st.bitOff = 0#3 := (BitOff.eq_zero_iff _).2 (by omega)
  simp only [count_eq_zero_iff]
  refine ⟨st, _, hx, ⟨by omega, ho, by rw [c.pend, if_pos ho], by rw [c.hpw, hp, Bool.false_and]⟩, fun k hk => ?read,
    ?bound, fun a => ?bytes, ?len, ?storePos⟩
  case read =>
    have hin : s.stream.bytePos.toNat + k < s.stream.len := by have := hlen (by omega); omega
    refine Stream.byte?_of_bits (.inl h0) (by rw [Stream.byte?_of_lt hin]; rfl) fun i hi => ?_
    rw [getLsbD_byteOf _ _ hi, Stream.field_getLsbD _ (by omega), decide_eq_true (by omega), Bool.true_and, hpos]
    congr 1
    omega
  case bound =>
    rw [Stream.field, BitVec.toNat_ofNat]
    exact lt_of_le_of_lt (Nat.mod_le _ _) (Stream.fieldNat_lt _ _)
  case bytes => rw [c.bytes, if_neg (by simp [hp])]
  case len => rw [c.len, if_neg (by simp [hp])]
  case storePos =>
    rw [c.storePos]
    simp only [h0, ne_eq, not_true, and_false, if_false]
    split <;> split <;> omega

/-- Settles O9: the bits of the committed byte and those of PEND, each in its place. -/
theorem unalignedWrbytesShifts : Obligations.UnalignedWrbytesShifts := by
  intro s h h0 hau hb
  have hlt := s.stream.bitOff_lt
  have hne : s.stream.bitOff.toNat ≠ 0 := (BitOff.eq_zero_iff _).not.1 h0
  have hpos : s.stream.pos = s.stream.bytePos.toNat * 8 + s.stream.bitOff.toNat := rfl
  have hlen : (fieldBits s.arg0 (8 * (1#7).toNat)).length = 8 := fieldBits_length _ _
  obtain ⟨st, w, hx⟩ := (exec_wrbytes_writes (n := 1#7) h (by decide) (by simp [hau])).1
    (by rw [hlen]; unfold Stream.room; omega)
  obtain ⟨hbp, ho, hl, -⟩ := w.wholeBytes (n := 1) hlen
  have ho0 : st.bitOff ≠ 0#3 := ho ▸ h0
  refine ⟨st, hx, hbp, ho, w.pending (by omega) ho0, ?committed, ?pend, fun a ha hal => ?frame⟩
  case committed =>
    have hin : s.stream.bytePos.toNat < st.len := by rw [hl]; simp
    refine Stream.byte?_of_bits (.inr (by omega)) (by rw [Stream.byte?_of_lt hin]; rfl) fun i hi => ?_
    rw [w.bitAt_sameByte h0 hi, ← zeroPadded_eq, BitVec.getLsbD_or, zeroPadded_getLsbD, BitVec.getLsbD_shiftLeft]
    by_cases hi0 : i < s.stream.bitOff.toNat
    · rw [if_neg (by omega)]
      simp [hi0]
    · rw [if_pos (by omega), fieldBits_getD _ (by simp; omega)]
      simp [hi0, hi, show i - s.stream.bitOff.toNat < 8 by omega]
  case pend =>
    apply BitVec.eq_of_getLsbD_eq
    intro i hi
    rw [BitVec.getLsbD_ushiftRight]
    by_cases hi0 : i < s.stream.bitOff.toNat
    · have hw := w.written (8 - s.stream.bitOff.toNat + i) (by omega)
      rw [fieldBits_getD _ (by simp; omega)] at hw
      rw [Stream.pend_getLsbD ho0 hi, getLsbD_byteOf s.arg0 0 (by omega), Nat.mul_zero, Nat.zero_add, ← hw]
      congr 1
      omega
    · rw [w.rest i (by rw [ho]; omega) hi, decide_eq_false (by rw [BytePos.eq_iff]; omega), Bool.false_and,
        BitVec.getLsbD_of_ge _ _ (by omega)]
  case frame => rw [w.frame a (by omega), if_pos hal]

/-! ### PEND stands for its byte (R132, R133) -/

/-- Settles O16: the bits read are those of PEND, and the byte is committed when the cursor leaves it. -/
theorem readAfterWriteReadsPend : Obligations.ReadAfterWriteReadsPend := by
  intro n s h hp hn hb
  have h0 := h.stream.bitOff_ne_zero hp
  have hpos : s.stream.pos = s.stream.bytePos.toNat * 8 + s.stream.bitOff.toNat := rfl
  have hfield : s.stream.fieldNat n.toNat = s.stream.pend.toNat / 2 ^ s.stream.bitOff.toNat % 2 ^ n.toNat := by
    refine Stream.fieldNat_of_bits (fun i => s.stream.pend.getLsbD (s.stream.bitOff.toNat + i)) rfl (fun i hi => ?_)
      fun i _ => ?_
    · rw [hpos, Stream.bitAt_inside h0 (by omega)]
      congr 1
      omega
    · rw [Nat.testBit_div_two_pow, Nat.add_comm]
      rfl
  obtain ⟨st, c, hx⟩ := (exec_rdbits_reads (n := n) h (by omega) false).1 (.inr (.inl ⟨hp, by omega⟩)) fun _ _ => hb
  have hcpos := c.pos
  have hd := st.pos_div
  have hbytes := c.bytes
  have hlen := c.len
  simp only [hp, true_and, ne_eq, BytePos.eq_iff] at hbytes hlen
  refine ⟨st, by rw [hx, Stream.field, hfield]; rfl, fun hin a => ?stays, fun hout => ⟨fun a => ?bytes, ?len⟩⟩
  case stays => rw [hbytes, if_neg (by omega)]
  case bytes => rw [hbytes, if_pos (by omega)]
  case len => rw [hlen, if_pos (by omega)]

/-- SETPOS stores PEND as it stands (R126). -/
theorem exec_setpos_stores {t : State} (h : t.Inv) (hp : t.stream.hpw = true)
    (hb : t.stream.bytePos.toNat < t.cfg.storeCap) :
    ∃ u, exec .setpos t = .next u ∧ u.stream.byte? t.stream.bytePos.toNat = some t.stream.pend := by
  obtain ⟨st, e, -, hbytes, -⟩ := Stream.setPos_commits h.stream (fun _ => hb) t.arg0
  refine ⟨_, exec_setpos_of_ok e, ?_⟩
  show (st.moveTo t.arg0).byte? _ = _
  rw [Stream.moveTo_byte?, hbytes, if_pos hp]
  exact if_pos rfl

/-- ALIGN stores PEND with the bits from the cursor on zeroed (R115). -/
theorem exec_align_stores {t : State} (h : t.Inv) (hp : t.stream.hpw = true)
    (hb : t.stream.bytePos.toNat < t.cfg.storeCap) :
    ∃ u, exec .align t = .next u ∧ u.stream.byte? t.stream.bytePos.toNat = some t.stream.paddedPend := by
  obtain ⟨st, e, hc, -⟩ := Stream.alignPad_commits h.stream h.cap_lt hp hb
  exact ⟨_, exec_align_of_ok e, (hc.bytes _).trans (if_pos rfl)⟩

/-- Settles O17: the byte under the cursor holds the merged bits (`Stream.Wrote.bitAt_sameByte`), in the store where the
write fills it and in PEND where it does not, and there SETPOS and ALIGN commit it. -/
theorem writeAfterFetchKeepsBits : Obligations.WriteAfterFetchKeepsBits := by
  intro n s h h0 _ hn0 hn hb
  have hlen : (fieldBits s.arg0 n.toNat).length = n.toNat := fieldBits_length _ _
  obtain ⟨st, w, hx⟩ := (exec_wrbits_writes (n := n) h (by omega)).1 (by rw [hlen]; unfold Stream.room; omega)
  have hmerged : ∀ i, i < 8 → st.bitAt (s.stream.bytePos.toNat * 8 + i) =
      if s.stream.bitOff.toNat ≤ i ∧ i < s.stream.bitOff.toNat + n.toNat
      then s.arg0.getLsbD (i - s.stream.bitOff.toNat) else s.stream.pend.getLsbD i := fun i hi => by
    rw [w.bitAt_sameByte h0 hi, hlen]
    split
    · rw [fieldBits_getD _ (by omega)]
    · rfl
  by_cases hfull : s.stream.bitOff.toNat + n.toNat = 8
  · have hpos := w.pos
    have d0 := s.stream.pos_div
    have m0 := s.stream.pos_mod
    have d1 := st.pos_div
    have m1 := st.pos_mod
    rw [hlen] at hpos
    have ho : st.bitOff = 0#3 := (BitOff.eq_zero_iff _).2 (by omega)
    have hin : s.stream.bytePos.toNat < st.len := by
      rw [w.len, if_neg (by rw [BytePos.eq_iff]; omega)]
      omega
    exact ⟨_, st.mem.read s.stream.bytePos.toNat, hx,
      fun i hi => (Stream.bitAt_of_stored ho hin hi).symm.trans (hmerged i hi), fun _ => Stream.byte?_of_lt hin,
      fun hlt => absurd hfull hlt.ne⟩
  · obtain ⟨hbp, hoff⟩ := w.staysInByte (by omega)
    rw [hlen] at hoff
    have ho : st.bitOff ≠ 0#3 := (BitOff.eq_zero_iff _).not.2 (by omega)
    have hp : st.hpw = true := w.pending (by omega) ho
    have hInv : (s.done st s.res0 s.res1).Inv := exec_keeps_Inv h rfl hx
    rw [← hbp] at hmerged hb ⊢
    rw [← hoff] at hmerged hfull ⊢
    exact ⟨_, st.pend, hx, fun i hi => (Stream.pend_getLsbD ho hi).trans (hmerged i hi),
      fun h8 => absurd h8 hfull, fun _ => ⟨rfl, exec_setpos_stores hInv hp hb, exec_align_stores hInv hp hb⟩⟩

end Sys2Proof.Machine
end

section
/-! SUPPORT. The packed-integer commands (spec/41_packed_int.md R166 to R177): the laws of the formatter on words, what each
command leaves, and the statements about them. -/

namespace Sys2Proof.Machine

/-! ### A field of the stream, as it is read and as it is read back (20_memory.md R58) -/

theorem Stream.field_toNat (st : Stream) {n : Nat} (hn : n ≤ 64) : (st.field n).toNat = st.fieldNat n :=
  Nat.mod_eq_of_lt (lt_of_lt_of_le (st.fieldNat_lt n) (Nat.pow_le_pow_right (by decide) hn))

/-- Bits 0 to n-1 of a word, written at a position, sought and read there, assemble to those bits of the word. -/
theorem Stream.write_seek_read {cap : Nat} {st : Stream} (h : st.Inv cap) (hc : cap < 2 ^ 61) (v : Word) {n : Nat}
    (hr : st.roomToFlush cap n) {p : Word} (hp : p.toNat = st.pos) :
    ∃ st1 st2 st3 bits, st.putBits cap (fieldBits v n) = .ok () st1 ∧ st1.setPos cap p = .ok () st2 ∧
      st2.getBits cap n = .ok bits st3 ∧ wordOfBits bits = BitVec.ofNat 64 (v.toNat % 2 ^ n) ∧ st3.pos = st.pos + n := by
  obtain ⟨st1, st2, e1, e2, -, i2, p2, -, hbits, hread⟩ :=
    Stream.write_then_seek (bits := fieldBits v n) h hc (by rwa [fieldBits_length]) hp
  rw [fieldBits_length] at hbits hread
  obtain ⟨st3, e3, c3, -⟩ := Stream.getBits_ok i2 hc (hread n le_rfl).1 (hread n le_rfl).2
  have hfield : st2.fieldNat n = v.toNat % 2 ^ n :=
    Stream.fieldNat_of_bits v.getLsbD p2 (fun i hi => (hbits i hi).trans (fieldBits_getD v hi)) fun _ _ => rfl
  exact ⟨st1, st2, st3, _, e1, e2, e3, by rw [Stream.wordOfBits_bitsFrom, Stream.field, hfield], by rw [c3.pos, p2]⟩

/-! ### Patterns and values as registers hold them (41_packed_int.md R161, R163, R166) -/

section
variable (t : Width) (sg sg2 : Sign) (a : Word)

theorem and_packMask_eq : a &&& packMask t = BitVec.ofNat 64 (a.toNat % 2 ^ widthBits t) := by
  rw [← toNat_and_packMask, BitVec.ofNat_toNat, BitVec.setWidth_eq]

/-- The mask keeps the bits below N. -/
theorem and_packMask_getLsbD {i : Nat} (hi : i < widthBits t) : (a &&& packMask t).getLsbD i = a.toNat.testBit i := by
  rw [← BitVec.testBit_toNat, toNat_and_packMask, Nat.testBit_mod_two_pow, decide_eq_true hi, Bool.true_and]

theorem fmt_toNat_lt : (fmt t sg sg2 a).toNat < 2 ^ widthBits t := by
  rw [fmt_toNat]
  exact patternNat_lt (by have := widthBits_bounds t; omega) sg _

/-- The bits PWR writes are those of the pattern R161 describes. -/
theorem fieldBits_fmt : fieldBits (fmt t sg sg2 a) (widthBits t) =
    (List.range (widthBits t)).map fun i => (patternNat (widthBits t) sg (rawInt sg2 a)).testBit i := by
  rw [← fmt_toNat]
  rfl

theorem packOut_fmt : packOut t sg (fmt t sg sg2 a) =
    BitVec.ofInt 64 (logicalInt (widthBits t) sg (patternNat (widthBits t) sg (rawInt sg2 a))) := by
  rw [packOut_eq, fmt_toNat]

/-- RT1 and RT2 of R166. -/
theorem packOut_fmt_of_inRange (h : inRange (widthBits t) sg (rawInt sg2 a)) : packOut t sg (fmt t sg sg2 a) = a := by
  rw [packOut_fmt, logical_pattern_inRange sg _ h, ofInt_rawInt]

/-- RT3 of R166: a value is small enough to be its word's signed reading. -/
theorem fmt_packOut : fmt t sg .signed (packOut t sg a) =
    if sg = .signed ∧ a.toNat % 2 ^ widthBits t = 2 ^ (widthBits t - 1) then 0#64
    else BitVec.ofNat 64 (a.toNat % 2 ^ widthBits t) := by
  obtain ⟨hpos, hle⟩ := widthBits_bounds t
  obtain ⟨hlo, hhi⟩ := logicalInt_bounds (n := widthBits t) (by omega) sg a.toNat
  rw [fmt_eq, packOut_eq, rawInt_ofInt hle hlo hhi, pattern_logical (by omega), apply_ite (BitVec.ofNat 64)]

/-- The value of the field read, as a register holds it. -/
theorem packOut_field (st : Stream) : packOut t sg (st.field (widthBits t)) =
    BitVec.ofInt 64 (logicalInt (widthBits t) sg (st.fieldNat (widthBits t))) := by
  rw [packOut_eq, st.field_toNat (by have := widthBits_bounds t; omega)]

theorem byteAddressable_iff : t.byteAddressable = true ↔ t = .w24 ∨ t = .w48 := by
  cases t <;> decide

end

/-! ### The commands that leave the stream (R172 to R176) -/

section
variable (t : Width) (sg sg2 : Sign) (s : State)

theorem exec_pfmt : exec (.pfmt t sg sg2) s =
    .next (s.done s.stream (packOut t sg (fmt t sg sg2 s.arg0)) (fmt t sg sg2 s.arg0)) := rfl

theorem exec_pval : exec (.pval t sg) s = .next (s.done s.stream (packOut t sg s.arg0) s.res1) := rfl

theorem exec_peq : exec (.peq t sg sg2) s =
    .next (s.done s.stream (if packEq t sg s.arg0 sg2 s.arg1 then 1#64 else 0#64) s.res1) := by
  rw [← ofBool_setWidth_eq_ite]
  rfl

end

/-- Settles O21: the pattern (`fmt_eq`) and its value (`packOut_fmt`). -/
theorem pfmtConstructs : Obligations.PfmtConstructs := by
  intro t sg sg2 s
  rw [exec_pfmt, packOut_fmt, fmt_eq]

/-- Settles O22, by `packOut_eq`. -/
theorem pvalConverts : Obligations.PvalConverts := by
  intro t sg s
  rw [exec_pval, packOut_eq]

/-- Settles O23: the test of the width, then the mask. -/
theorem pbytesPacks : Obligations.PbytesPacks := by
  intro t sg s
  rw [← byteAddressable_iff, ← and_packMask_eq, exec, execPbytes]
  refine ⟨fun ht => ?_, fun ht => ?_⟩
  · rw [if_pos ht]
    rfl
  · rw [if_neg ht]
    rfl

/-- Settles O24: the test of the index, then the bit, which the mask keeps. -/
theorem pbitGivesBit : Obligations.PbitGivesBit := by
  intro t sg s
  refine ⟨fun hi => ?_, fun hi => State.finish_outOfRange hi _⟩
  rw [exec, execPbit, if_neg (Nat.not_le.2 hi), and_packMask_getLsbD t s.arg0 hi, ← ofBool_setWidth_eq_ite]
  rfl

/-- Settles O25, by `packEq_iff`. -/
theorem peqCompares : Obligations.PeqCompares := by
  intro t sa sb s
  rw [exec_peq, ← packEq_iff]
  exact ⟨fun h => by rw [if_pos h], fun h => by rw [if_neg h]⟩

/-- Settles O26: the chain PFMT, PVAL gives the value of the pattern of ARG0 and the chain PVAL, PFMT the pattern of its
value; each clause is a law of the two functions. -/
theorem formatRoundTrip : Obligations.FormatRoundTrip := by
  intro t sg s
  refine ⟨fun sg2 => ⟨_, _, exec_pfmt t sg sg2 s, exec_pval t sg _, packOut_fmt_of_inRange t sg sg2 s.arg0, ?_, ?_⟩,
    _, _, exec_pval t sg s, exec_pfmt t sg .signed _, fmt_packOut t sg s.arg0⟩
  · rintro rfl
    exact (packOut_fmt t .unsigned sg2 s.arg0).trans (congrArg _ (logical_pattern_unsigned _ _))
  · rintro rfl
    exact (packOut_fmt t .signed sg2 s.arg0).trans (congrArg _ (logical_pattern_signed _))

/-! ### The commands that write and read the stream (R170, R171, R177) -/

/-- Settles O19: a run of `put_bit` of the pattern's bits. -/
theorem pwrWritesPattern : Obligations.PwrWritesPattern := by
  intro t sg sg2 s h
  rw [← fieldBits_fmt]
  exact State.finish_putBits h _ _

/-- Settles O20: a run of N `get_bit`, whose bits are the pattern and whose value is its logical value. -/
theorem prdReadsPacked : Obligations.PrdReadsPacked := by
  intro t sg p s h
  rw [← packOut_field, ← Stream.wordOfBits_bitsFrom]
  exact State.finish_getBits h _ p _

theorem exec_pwr_of_ok {t : Width} {sg sg2 : Sign} {s : State} {st : Stream}
    (h : s.stream.putBits s.cfg.storeCap (fieldBits (fmt t sg sg2 s.arg0) (widthBits t)) = .ok () st) :
    exec (.pwr t sg sg2) s = .next (s.done st s.res0 s.res1) := by
  rw [exec, execPwr, h]
  rfl

theorem exec_prd_of_ok {t : Width} {sg : Sign} {s : State} {st : Stream} {bits : List Bool}
    (h : s.stream.getBits s.cfg.storeCap (widthBits t) = .ok bits st) :
    exec (.prd t sg false) s = .next (s.done st (packOut t sg (wordOfBits bits)) (wordOfBits bits)) := by
  rw [exec, execPrd, h]
  rfl

/-- Settles O27: the bits of the pattern, read back where they were written (`Stream.write_seek_read`), are the pattern,
whose value is ARG0 in range (`packOut_fmt_of_inRange`). -/
theorem pwrReadBack : Obligations.PwrReadBack := by
  intro w sg sg2 s h hroom
  obtain ⟨st1, st2, st3, bits, e1, e2, e3, hbits, hpos⟩ :=
    Stream.write_seek_read h.stream h.cap_lt (fmt w sg sg2 s.arg0) hroom s.posWord_toNat
  rw [Nat.mod_eq_of_lt (fmt_toNat_lt w sg sg2 s.arg0), BitVec.ofNat_toNat, BitVec.setWidth_eq] at hbits
  exact ⟨_, _, _, exec_pwr_of_ok e1, exec_setpos_of_ok e2, exec_prd_of_ok e3, rfl, hbits.trans (fmt_eq w sg sg2 s.arg0),
    fun hin => (congrArg (packOut w sg) hbits).trans (packOut_fmt_of_inRange w sg sg2 s.arg0 hin), hpos⟩

end Sys2Proof.Machine
end

section
/-! SUPPORT. The Exp-Golomb commands (spec/42_exp_golomb.md R208 to R218): the code a write gives to `put_bit`, the domain
a read tests, the one bit of a te code, and the statements about them. -/

namespace Sys2Proof.Machine

/-! ### The commands that write a code (R210, R212, R214) -/

/-- `emit_ue` as the outcome of a command that leaves the count in RES1. -/
theorem State.finish_emitUe {s : State} (h : s.Inv) (c : Nat) :
    s.Writes (codeBits s.gmode c) (s.finish false (emitUe s c) fun r => State.setRes1 (BitVec.ofNat 64 r)) fun st =>
      s.done st s.res0 (BitVec.ofNat 64 (codeLength s.gmode c)) := by
  rw [emitUe, State.finish_map, ueCode_eq, ueWritten_eq]
  exact State.finish_putBits h _ _

/-- With a maximum above 1, WRTE is WRUE (R208, R214). -/
theorem exec_wrte_eq_wrue {s : State} (hmax : 1 < s.arg1.toNat % 2 ^ 32) : exec .wrte s = exec .wrue s := by
  show execWrte s = execWrue s
  rw [execWrte, low32_eq, if_pos hmax]
  rfl

/-- With a maximum of at most 1, WRTE is one `put_bit` (R208, R214). -/
theorem exec_wrte_eq_bit {s : State} (hmax : s.arg1.toNat % 2 ^ 32 ≤ 1) :
    exec .wrte s = s.finish false (s.stream.putBit s.cfg.storeCap (decide (s.arg0.toNat % 2 ^ 32 = 0)))
      fun _ => State.setRes1 1#64 := by
  rw [exec, execWrte, low32_eq, low32_eq, if_neg (Nat.not_lt.2 hmax), State.finish_map]
  rfl

/-- Settles O28: the bits of the code are those `emit_ue` writes (`State.finish_emitUe`). -/
theorem wrueWritesCode : Obligations.WrueWritesCode := by
  intro s h
  rw [← low32_eq]
  exact State.finish_emitUe h _

/-- Settles O30: the se mapping, then `emit_ue` (`State.finish_emitUe`). -/
theorem wrseWritesCode : Obligations.WrseWritesCode := by
  intro s h
  rw [← seToCode_eq]
  exact State.finish_emitUe h _

/-- Settles O32: with a maximum above 1 WRTE is WRUE; otherwise it is one `put_bit`. -/
theorem wrteWritesCode : Obligations.WrteWritesCode := by
  intro s h
  refine ⟨fun hmax => ?_, fun hmax => ?_⟩
  · rw [exec_wrte_eq_wrue hmax]
    exact wrueWritesCode s h
  · rw [exec_wrte_eq_bit hmax]
    exact State.finish_putBit h _ _

/-! ### The commands that read a code (R211, R213, R215) -/

/-- A ue-like read that delivers a value of its code number and count if the code number is in a domain, and is
ArgumentRange if it is not. -/
theorem State.finish_parseUe_domain {α : Type} {s : State} (h : s.Inv) (p : Bool) (dom : Nat → Prop) [DecidablePred dom]
    (value : Nat → Nat → α) (d : α → State → State) :
    s.ReadsCode
      (s.finish p ((s.stream.parseUe s.cfg.storeCap s.gmode).bind fun cr st =>
        if dom cr.1 then .ok (value cr.1 cr.2) st else .raise .argumentRange) d)
      fun c r => if dom c then
        some fun st => (d (value c r) { s with stream := if p then s.stream else st }).clearStatus else none := by
  have hopt := State.finish_parseUe h p (fun c r => if dom c then some (value c r) else none) d
  simp only [apply_ite (Option.map _), Option.map_some, Option.map_none] at hopt
  convert hopt using 5
  split <;> rfl

theorem readUe_eq (s : State) : readUe s = (s.stream.parseUe s.cfg.storeCap s.gmode).bind fun cr st =>
    if cr.1 ≤ 2 ^ 32 - 1 then .ok (cr.1, cr.2) st else .raise .argumentRange := by
  simp only [readUe, ← Nat.not_le, ite_not]

theorem readSe_eq (s : State) : readSe s = (s.stream.parseUe s.cfg.storeCap s.gmode).bind fun cr st =>
    if -2 ^ 31 ≤ signedOfCode cr.1 ∧ signedOfCode cr.1 ≤ 2 ^ 31 - 1 then .ok (signedOfCode cr.1, cr.2) st
    else .raise .argumentRange := by
  simp only [readSe, codeToSe_eq, ← Int.not_le, ← not_and_or, ite_not]

/-- With a maximum above 1, RDTE is RDUE (R208, R215). -/
theorem exec_rdte_eq_rdue {s : State} (hmax : 1 < s.arg1.toNat % 2 ^ 32) (p : Bool) :
    exec (.rdte p) s = exec (.rdue p) s := by
  show execRdte p s = execRdue p s
  rw [execRdte, low32_eq, if_pos hmax]
  rfl

/-- With a maximum of at most 1, RDTE is one `get_bit`, whose bit is inverted (R208, R215). -/
theorem exec_rdte_eq_bit {s : State} (hmax : s.arg1.toNat % 2 ^ 32 ≤ 1) (p : Bool) :
    exec (.rdte p) s = s.finish p (s.stream.getBit s.cfg.storeCap)
      fun b => State.setRes (if b then 0#64 else 1#64) 1#64 := by
  rw [exec, execRdte, low32_eq, if_neg (Nat.not_lt.2 hmax), readTeBit, State.finish_map]
  congr with b
  cases b <;> rfl

/-- Settles O29: `parse_ue` and the test of the code number. -/
theorem rdueReadsCode : Obligations.RdueReadsCode := by
  intro p s h
  rw [exec, execRdue, readUe_eq]
  exact State.finish_parseUe_domain h p (· ≤ 2 ^ 32 - 1) Prod.mk _

/-- Settles O31: `parse_ue`, the se mapping, and the test of the value. -/
theorem rdseReadsCode : Obligations.RdseReadsCode := by
  intro p s h
  rw [exec, execRdse, readSe_eq]
  exact State.finish_parseUe_domain h p (fun c => -2 ^ 31 ≤ signedOfCode c ∧ signedOfCode c ≤ 2 ^ 31 - 1)
    (fun c r => (signedOfCode c, r)) _

/-- Settles O33: with a maximum above 1 RDTE is RDUE; otherwise it is one `get_bit`. -/
theorem rdteReadsCode : Obligations.RdteReadsCode := by
  intro p s h
  refine ⟨fun hmax => ?_, fun hmax => ?_⟩
  · rw [exec_rdte_eq_rdue hmax]
    exact rdueReadsCode p s h
  · rw [exec_rdte_eq_bit hmax]
    exact State.finish_getBit h p _

/-! ### A code written and read back (R218) -/

/-- The count a read reports for the code of `c` (R204, R205). -/
def countRead (style : GolombStyle) (c : Nat) : Nat :=
  if style = .standard then codeLength style c else codeLength style c - 1

/-- The code of `c`, written at a position, sought and parsed there, is `c`. -/
theorem Stream.write_seek_parse {cap : Nat} {st : Stream} {style : GolombStyle} {c : Nat} (h : st.Inv cap)
    (hc : cap < 2 ^ 61) (hle : c ≤ 2 ^ 32) (hs : style = .compat → c ≠ 0) (hr : st.roomToFlush cap (codeLength style c))
    {p : Word} (hp : p.toNat = st.pos) :
    ∃ st1 st2 st3, st.putBits cap (ueCode style c) = .ok () st1 ∧ st1.setPos cap p = .ok () st2 ∧
      st2.parseUe cap style = .ok (c, countRead style c) st3 := by
  rw [← codeBits_length] at hr
  obtain ⟨st1, st2, e1, e2, -, i2, p2, -, hbits, hread⟩ := Stream.write_then_seek h hc hr hp
  rw [codeBits_length] at hbits hread
  obtain ⟨z, hz, h1, hspan, hcode, hcount⟩ := Stream.code_of_bits hle hs p2 hbits
  obtain ⟨havail, hroom⟩ := hread _ hspan.le
  obtain ⟨st3, e3, -, -⟩ := (Stream.parseUe_code i2 hc hz h1).1 havail hroom
  exact ⟨st1, st2, st3, by rwa [ueCode_eq], e2, by rw [e3, hcode, hcount, countRead]⟩

/-- The count read against the count written, as registers hold them. -/
theorem ofNat_countRead {style : GolombStyle} {c : Nat} (hs : style = .compat → c ≠ 0) :
    BitVec.ofNat 64 (countRead style c) =
      if style = .standard then BitVec.ofNat 64 (codeLength style c) else BitVec.ofNat 64 (codeLength style c) - 1#64 := by
  cases style with
  | standard => rfl
  | compat =>
    have hpos : 1 ≤ (c + 1).log2 := (Nat.le_log2 c.succ_ne_zero).2 (by have := hs rfl; omega)
    exact (BitVec.ofNat_sub_ofNat_of_le _ 1 (by decide) (by rw [codeLength]; omega)).symm

/-- The low half of a word that is not 0 as unsigned has a code number that is not 0 as signed. -/
theorem codeOfSigned_low_ne_zero {a : Word} (ha : a.toNat % 2 ^ 32 ≠ 0) : codeOfSigned (a.setWidth 32).toInt ≠ 0 := by
  intro h0
  have hz : (a.setWidth 32).toInt = 0 := by rw [← signedOfCode_codeOfSigned (a.setWidth 32).toInt, h0]; rfl
  rw [← BitVec.toInt_zero, BitVec.toInt_inj] at hz
  exact ha (by rw [← BitVec.toNat_setWidth, hz]; rfl)

/-- A command that writes the code of `c`, SETPOS back to its start, and a command that delivers `x` of the code number
`c`. -/
theorem code_roundTrip {s : State} (h : s.Inv) {c : Nat} (hle : c ≤ 2 ^ 32) (hs : s.gmode = .compat → c ≠ 0)
    (hroom : s.stream.roomToFlush s.cfg.storeCap (codeLength s.gmode c)) {wr rd : Instr} {x : Word}
    (hwr : exec wr s = s.finish false (emitUe s c) fun r => State.setRes1 (BitVec.ofNat 64 r))
    (hrd : ∀ (u : State) (r : Nat) (st : Stream), u.arg1 = s.arg1 →
      u.stream.parseUe u.cfg.storeCap u.gmode = .ok (c, r) st → exec rd u = .next (u.done st x (BitVec.ofNat 64 r))) :
    ∃ t u v, exec wr s = .next t ∧ exec .setpos { t with arg0 := s.posWord } = .next u ∧ exec rd u = .next v ∧
      v.err = .ok ∧ v.res0 = x ∧ v.res1 = if s.gmode = .standard then t.res1 else t.res1 - 1#64 := by
  obtain ⟨st1, st2, st3, e1, e2, e3⟩ := Stream.write_seek_parse h.stream h.cap_lt hle hs hroom s.posWord_toNat
  have hw : exec wr s = .next (s.done st1 s.res0 (BitVec.ofNat 64 (codeLength s.gmode c))) := by
    rw [hwr, emitUe, e1, ueWritten_eq]
    rfl
  exact ⟨_, _, _, hw, exec_setpos_of_ok e2, hrd _ _ st3 rfl e3, rfl, rfl, ofNat_countRead hs⟩

theorem exec_rdue_of_ok {s : State} {c r : Nat} {st : Stream} (hc : c ≤ 2 ^ 32 - 1)
    (h : s.stream.parseUe s.cfg.storeCap s.gmode = .ok (c, r) st) :
    exec (.rdue false) s = .next (s.done st (BitVec.ofNat 64 c) (BitVec.ofNat 64 r)) := by
  rw [exec, execRdue, readUe_eq, h, Res.bind_ok, if_pos hc]
  rfl

theorem exec_rdse_of_ok {s : State} {x : BitVec 32} {r : Nat} {st : Stream}
    (h : s.stream.parseUe s.cfg.storeCap s.gmode = .ok (codeOfSigned x.toInt, r) st) :
    exec (.rdse false) s = .next (s.done st (BitVec.ofInt 64 x.toInt) (BitVec.ofNat 64 r)) := by
  rw [exec, execRdse, readSe_eq, h, Res.bind_ok, signedOfCode_codeOfSigned,
    if_pos ⟨BitVec.le_toInt x, Int.le_sub_one_of_lt BitVec.toInt_lt⟩]
  rfl

theorem exec_wrte_bit_of_ok {s : State} {st : Stream} (hmax : s.arg1.toNat % 2 ^ 32 ≤ 1)
    (h : s.stream.putBit s.cfg.storeCap (decide (s.arg0.toNat % 2 ^ 32 = 0)) = .ok () st) :
    exec .wrte s = .next (s.done st s.res0 1#64) := by
  rw [exec_wrte_eq_bit hmax, h]
  rfl

theorem exec_rdte_bit_of_ok {s : State} {b : Bool} {st : Stream} (hmax : s.arg1.toNat % 2 ^ 32 ≤ 1)
    (h : s.stream.getBit s.cfg.storeCap = .ok b st) :
    exec (.rdte false) s = .next (s.done st (if b then 0#64 else 1#64) 1#64) := by
  rw [exec_rdte_eq_bit hmax, h]
  rfl

/-- The inverted bit of a value of at most 1 stands for it (R208). -/
theorem valueOf_teBit {v : Nat} (hv : v ≤ 1) : (if decide (v = 0) then 0#64 else 1#64) = BitVec.ofNat 64 v := by
  interval_cases v <;> rfl

/-- The one bit of a te code, written, sought and read back, gives the value it stands for. -/
theorem teBit_roundTrip {s : State} (h : s.Inv) (hmax : s.arg1.toNat % 2 ^ 32 ≤ 1) (hv : s.arg0.toNat % 2 ^ 32 ≤ 1)
    (hroom : s.stream.roomToFlush s.cfg.storeCap 1) :
    ∃ t u v, exec .wrte s = .next t ∧ exec .setpos { t with arg0 := s.posWord } = .next u ∧
      exec (.rdte false) u = .next v ∧ v.err = .ok ∧ v.res0 = BitVec.ofNat 64 (s.arg0.toNat % 2 ^ 32) ∧
      v.res1 = t.res1 := by
  obtain ⟨st1, st2, e1, e2, -, i2, p2, -, hbits, hread⟩ :=
    Stream.write_then_seek (bits := [decide (s.arg0.toNat % 2 ^ 32 = 0)]) h.stream h.cap_lt hroom s.posWord_toNat
  rw [Stream.putBits_singleton] at e1
  obtain ⟨havail, hreadRoom⟩ := hread 1 le_rfl
  obtain ⟨st3, e3, -, -⟩ := Stream.getBit_ok i2 h.cap_lt havail hreadRoom
  have hbit : st2.bitAt st2.pos = decide (s.arg0.toNat % 2 ^ 32 = 0) := p2 ▸ hbits 0 Nat.zero_lt_one
  rw [hbit] at e3
  exact ⟨_, _, _, exec_wrte_bit_of_ok hmax e1, exec_setpos_of_ok e2, exec_rdte_bit_of_ok hmax e3, rfl,
    valueOf_teBit hv, rfl⟩

/-- Settles O34: the code written is the code parsed (`code_roundTrip`) and the bit written is the bit read
(`teBit_roundTrip`); the COMPAT code of 0 is empty. -/
theorem golombRoundTrip : Obligations.GolombRoundTrip := by
  intro s h
  have hlt : s.arg0.toNat % 2 ^ 32 < 2 ^ 32 := Nat.mod_lt _ (by decide)
  have hwrue : exec .wrue s =
      s.finish false (emitUe s (s.arg0.toNat % 2 ^ 32)) fun r => State.setRes1 (BitVec.ofNat 64 r) := by
    rw [← low32_eq]
    rfl
  refine ⟨fun hs hroom => ?ue, fun hs hroom => ?se, fun hmax hs hroom => ?te, teBit_roundTrip h, fun hg h0 => ?empty⟩
  case ue => exact code_roundTrip h hlt.le hs hroom hwrue fun u r st _ e => exec_rdue_of_ok (Nat.le_sub_one_of_lt hlt) e
  case se =>
    refine code_roundTrip h (codeOfSigned_le _) (fun hg => ?_) hroom ?_ fun u r st _ e => exec_rdse_of_ok e
    · exact codeOfSigned_low_ne_zero (hs hg)
    · rw [← seToCode_eq]
      rfl
  case te =>
    refine code_roundTrip h hlt.le hs hroom ((exec_wrte_eq_wrue hmax).trans hwrue) fun u r st hu e => ?_
    rw [exec_rdte_eq_rdue (by rwa [hu])]
    exact exec_rdue_of_ok (Nat.le_sub_one_of_lt hlt) e
  case empty =>
    rw [hwrue, h0, emitUe, hg]
    rfl

end Sys2Proof.Machine
end

section
/-! SUPPORT. How a command ends (spec/60_exceptions.md): with an error, which leaves all but STATUS as it was (R243) and is
one of those R241 lists; complete, with the results it names and no others (R242); or stuck, at a commit past the capacity
or at the last byte address (R247; spec/20_memory.md R56, R57). And the idle step (R260). -/

namespace Sys2Proof.Machine

/-! ### What a command that answers a next state has done (R242, R243; 10_state.md R33) -/

/-- The command `i` in `s` is the result `r` given to `State.finish`; what it delivers goes to the registers it names
(10_state.md R33), and a peek (40_cursor.md R131) or a command that only computes (41_packed_int.md R178) keeps the stream. -/
structure EndsWith (i : Instr) (s : State) {α : Type} (p : Bool) (r : Res α) (d : α → State → State) : Prop where
  finish : exec i s = s.finish p r d
  done : ∀ a st, (d a { s with stream := st }).clearStatus = s.done st (d a s).res0 (d a s).res1
  res0 : namesRes0 i = false → ∀ a, (d a s).res0 = s.res0
  res1 : namesRes1 i = false → ∀ a, (d a s).res1 = s.res1
  stream : movesStream i = false → p = true ∨ ∀ a st, r = .ok a st → st = s.stream

/-- The cases in the groups of those rules: the commands that write the stream or move the cursor, the Exp-Golomb writes
with their count, the reads, and the commands that only compute. -/
theorem exec_endsWith (i : Instr) (s : State) :
    ∃ (α : Type) (p : Bool) (r : Res α) (d : α → State → State), EndsWith i s p r d := by
  cases i
  case wrbit | wrbits | wrbytes | align | setpos | skipbits | skipbytes | release | pwr =>
    exact ⟨_, _, _, _, rfl, fun _ _ => rfl, fun _ _ => rfl, fun _ _ => rfl, nofun⟩
  case wrue | wrse | wrte => exact ⟨_, _, _, _, rfl, fun _ _ => rfl, fun _ _ => rfl, nofun, nofun⟩
  case rdbit | rdbits | rdbytes =>
    exact ⟨_, _, _, _, rfl, fun _ _ => rfl, nofun, fun _ _ => rfl, fun hp => .inl ((Bool.not_eq_false' _).mp hp)⟩
  case prd | rdue | rdse | rdte =>
    exact ⟨_, _, _, _, rfl, fun _ _ => rfl, nofun, nofun, fun hp => .inl ((Bool.not_eq_false' _).mp hp)⟩
  -- the result of these is named, so that `State.finish` stays folded
  case pfmt =>
    exact ⟨_, false, .ok _ s.stream, _, rfl, fun _ _ => rfl, nofun, nofun, fun _ => .inr (by rintro _ _ ⟨⟩; rfl)⟩
  case pval | peq =>
    exact ⟨_, false, .ok _ s.stream, _, rfl, fun _ _ => rfl, nofun, fun _ _ => rfl, fun _ => .inr (by rintro _ _ ⟨⟩; rfl)⟩
  case pbit =>
    refine ⟨_, _, _, _, rfl, fun _ _ => rfl, nofun, fun _ _ => rfl, fun _ => .inr fun _ _ hr => ?_⟩
    split at hr <;> cases hr
    rfl
  case pbytes =>
    refine ⟨_, _, _, _, rfl, fun _ _ => rfl, nofun, nofun, fun _ => .inr fun _ _ hr => ?_⟩
    split at hr <;> cases hr
    rfl

/-- A command that answers a next state has completed, with the results it names and no others, or raised an error. -/
theorem exec_next {i : Instr} {s t : State} (h : exec i s = .next t) :
    (t = s.done t.stream t.res0 t.res1 ∧ (namesRes0 i = false → t.res0 = s.res0) ∧
      (namesRes1 i = false → t.res1 = s.res1) ∧ (movesStream i = false → t.stream = s.stream)) ∨
    ∃ e, t = s.takeError e := by
  obtain ⟨α, p, r, d, e⟩ := exec_endsWith i s
  obtain ⟨a, st, hr, rfl⟩ | ⟨e', -, rfl⟩ := State.finish_next (e.finish ▸ h)
  · rw [e.done]
    refine .inl ⟨rfl, fun h0 => e.res0 h0 a, fun h1 => e.res1 h1 a, fun hm => ?_⟩
    show (if p = true then s.stream else st) = s.stream
    obtain hp | hst := e.stream hm
    · exact if_pos hp
    · rw [hst a st hr, ite_self]
  · exact .inr ⟨e', rfl⟩

theorem Raise.code_ne_ok (e : Raise) : e.code ≠ .ok := by cases e <;> exact nofun

/-- BITS_LEFT is recorded by StreamUnaligned alone (R243). -/
theorem Raise.bitsLeft_of_ne {e : Raise} (h : e.code ≠ .streamUnaligned) : e.bitsLeft = 0#4 := by
  cases e with
  | streamUnaligned n => exact absurd rfl h
  | endOfStream | argumentRange | illegalCommand => rfl

/-- Settles O35: of the two ends of `exec_next`, the error. -/
theorem errorUndoesEverything : Obligations.ErrorUndoesEverything := by
  intro i s t hx he
  obtain ⟨hdone, -⟩ | ⟨e, rfl⟩ := exec_next hx
  · rw [hdone] at he
    exact absurd rfl he
  · exact ⟨rfl, Raise.bitsLeft_of_ne⟩

/-- Settles O36: of the two ends of `exec_next`, the completion. -/
theorem successFrame : Obligations.SuccessFrame := by
  intro i s t hx he
  obtain hdone | ⟨e, rfl⟩ := exec_next hx
  · exact hdone
  · exact absurd he e.code_ne_ok

/-! ### Which command raises which error (R241) -/

/-- An error a well-formed command ends with is one of `errsOf`. -/
theorem exec_err_mem {i : Instr} {s t : State} (h : s.Inv) (hi : i.wf = true) (hx : exec i s = .next t)
    (he : t.err ≠ .ok) : t.err ∈ errsOf i := by
  obtain ⟨α, p, r, d, hf, sound, -⟩ := exec_sound h hi
  obtain ⟨a, st, -, rfl⟩ | ⟨e, hr, rfl⟩ := State.finish_next (hf ▸ hx)
  · exact absurd rfl he
  · exact (sound.raise e hr).1

theorem streamUnaligned_mem_errsOf (i : Instr) : .streamUnaligned ∈ errsOf i ↔ raisesUnaligned i = true := by
  cases i <;> simp [errsOf, raisesUnaligned]

theorem endOfStream_mem_errsOf (i : Instr) : .endOfStream ∈ errsOf i ↔ raisesEnd i = true := by
  cases i <;> simp [errsOf, raisesEnd]

theorem argumentRange_mem_errsOf (i : Instr) : .argumentRange ∈ errsOf i ↔ raisesRange i = true := by
  cases i <;> simp [errsOf, raisesRange]

theorem illegalCommand_not_mem_errsOf (i : Instr) : .illegalCommand ∉ errsOf i := by
  cases i <;> simp [errsOf]

/-- A command that makes the test of the alignment and then raises no StreamUnaligned ends with that error only where the
test refuses. -/
theorem State.finish_byteCheck_unaligned {α : Type} {s t : State} {p : Bool} {f : Unit → Stream → Res α}
    {d : α → State → State} (hf : ∀ e, f () s.stream = .raise e → e.code ≠ .streamUnaligned)
    (hx : s.finish p ((byteCheck s.au s.stream).bind f) d = .next t) (he : t.err = .streamUnaligned) :
    s.unalignedRefused ∧ t = s.unalignedFailure := by
  by_cases hu : s.unalignedRefused
  · rw [State.finish_unaligned hu] at hx
    cases hx
    exact ⟨hu, rfl⟩
  · rw [State.finish_byteCheck hu] at hx
    obtain ⟨a, st, -, rfl⟩ | ⟨e, hr, rfl⟩ := State.finish_next hx
    · cases he
    · exact absurd he (hf e hr)

/-- A result that does not list StreamUnaligned does not raise it. -/
theorem Res.Sound.code_ne_unaligned {α : Type} {cap : Nat} {errs : List ErrCode} {faults : List Fault} {r : Res α}
    (h : r.Sound cap errs faults) (hu : .streamUnaligned ∉ errs) {e : Raise} (hr : r = .raise e) :
    e.code ≠ .streamUnaligned := fun he => hu (he ▸ (h.raise e hr).1)

/-- StreamUnaligned comes from the test of the alignment: the runs of bits after it do not raise that error. -/
theorem exec_unaligned {i : Instr} {s t : State} (h : s.Inv) (hi : raisesUnaligned i = true) (hx : exec i s = .next t)
    (he : t.err = .streamUnaligned) : s.unalignedRefused ∧ t = s.unalignedFailure := by
  cases i
  case wrbytes n =>
    by_cases hn : 8 < n.toNat
    · cases (State.finish_outOfRange hn _).symm.trans hx
      cases he
    · rw [exec, execWrbytes, if_neg hn] at hx
      exact State.finish_byteCheck_unaligned
        (fun _ => (Stream.putBits_sound h.stream h.cap_lt _).code_ne_unaligned (by simp)) hx he
  case rdbytes n p =>
    by_cases hn : 8 < n.toNat
    · cases (State.finish_outOfRange hn _).symm.trans hx
      cases he
    · rw [exec, execRdbytes, if_neg hn] at hx
      exact State.finish_byteCheck_unaligned
        (fun _ => (Stream.getBits_sound h.stream h.cap_lt _).code_ne_unaligned (by simp)) hx he
  case skipbytes =>
    exact State.finish_byteCheck_unaligned
      (fun _ => (Stream.getBits_sound h.stream h.cap_lt _).code_ne_unaligned (by simp)) hx he
  all_goals cases hi

/-- Settles O37: an error is one of `errsOf`, and StreamUnaligned comes from the test of the alignment
(`exec_unaligned`). -/
theorem errorTable : Obligations.ErrorTable := by
  intro i s t h hi hx
  have hmem {c : ErrCode} (hc : c ≠ .ok) (he : t.err = c) : c ∈ errsOf i := he ▸ exec_err_mem h hi hx (he ▸ hc)
  refine ⟨fun he => ?unaligned, fun he => (endOfStream_mem_errsOf i).1 (hmem (by decide) he),
    fun he => (argumentRange_mem_errsOf i).1 (hmem (by decide) he),
    fun he => illegalCommand_not_mem_errsOf i (hmem (by decide) he)⟩
  case unaligned =>
    have hr := (streamUnaligned_mem_errsOf i).1 (hmem (by decide) he)
    obtain ⟨⟨h0, hau⟩, rfl⟩ := exec_unaligned h hr hx he
    exact ⟨hr, h0, hau, Nat.mod_eq_of_lt (by omega)⟩

/-! ### Where a command is stuck (R247; 20_memory.md R56, R57) -/

/-- `f` is the fault of the commit of the pending byte, which lies past the capacity. -/
structure Stream.StuckAtPending (cap : Nat) (st : Stream) (f : Fault) : Prop where
  fault : f = .storeFull
  hpw : st.hpw = true
  full : cap ≤ st.bytePos.toNat

section
variable {s : State} {out : Host.Outcome State Fault Refusal} {f : Fault}

/-- A write of at most 65 bits, the longest there is, commits at most nine bytes. -/
theorem State.Writes.stuck {bits : List Bool} {ok : Stream → State} (w : s.Writes bits out ok) (hl : bits.length ≤ 65)
    (hx : out = .fault f) : f = .storeFull ∧ s.cfg.storeCap < s.stream.bytePos.toNat + 9 := by
  obtain ⟨hok, hfull⟩ := w
  by_cases hr : s.stream.room s.cfg.storeCap bits.length
  · obtain ⟨st, -, e⟩ := hok hr
    cases e.symm.trans hx
  · cases (hfull hr).symm.trans hx
    have hoff := s.stream.bitOff_lt
    unfold Stream.room at hr
    exact ⟨rfl, by omega⟩

theorem State.Reads.stuck {n : Nat} {ok : Stream → State} (r : s.Reads n out ok) (hx : out = .fault f) :
    s.stream.StuckAtPending s.cfg.storeCap f := by
  obtain ⟨hok, hend, hfull⟩ := r
  by_cases hr : s.stream.readRoom s.cfg.storeCap n
  · by_cases ha : s.stream.avail n
    · obtain ⟨st, -, e⟩ := hok ha hr
      cases e.symm.trans hx
    · cases (hend ha hr).symm.trans hx
  · cases (hfull hr).symm.trans hx
    simp only [Stream.readRoom, not_forall, Nat.not_lt] at hr
    obtain ⟨hp, -, hb⟩ := hr
    exact ⟨rfl, hp, hb⟩

theorem State.ReadsCode.stuck {ok : Nat → Nat → Option (Stream → State)} (r : s.ReadsCode out ok) (hx : out = .fault f) :
    s.stream.StuckAtPending s.cfg.storeCap f := by
  obtain ⟨hcode, hzeros⟩ := r
  obtain ⟨z, hz, h1⟩ | h0 := s.stream.code_or_zeros (zeroLimit s.gmode)
  · exact (hcode z hz h1).stuck hx
  · exact (hzeros h0).stuck hx

end

/-- `align_pad` commits the pending byte or, with none, only moves on. -/
theorem Stream.alignPad_stuck {cap : Nat} {st : Stream} {f : Fault} (h : st.Inv cap) (hc : cap < 2 ^ 61)
    (hx : st.alignPad cap = .stuck f) :
    st.StuckAtPending cap f ∨ (f = .positionOverflow ∧ st.hpw = false ∧ st.bytePos.toNat = 2 ^ 61 - 1) := by
  cases hp : st.hpw with
  | true =>
    by_cases hb : st.bytePos.toNat < cap
    · obtain ⟨st', e, -⟩ := Stream.alignPad_commits h hc hp hb
      cases e.symm.trans hx
    · cases (Stream.alignPad_full (h.bitOff_ne_zero hp) hp (Nat.not_lt.1 hb)).symm.trans hx
      exact .inl ⟨rfl, hp, Nat.not_lt.1 hb⟩
  | false =>
    by_cases h0 : st.bitOff = 0#3
    · cases (Stream.alignPad_aligned cap h0).symm.trans hx
    · by_cases hb : st.bytePos.toNat + 1 < 2 ^ 61
      · cases (Stream.alignPad_clean cap h0 hp hb).symm.trans hx
      · cases (Stream.alignPad_overflow cap h0 hp hb).symm.trans hx
        exact .inr ⟨rfl, rfl, by have := st.bytePos.isLt; omega⟩

theorem Stream.setPos_stuck {cap : Nat} {st : Stream} {f : Fault} (h : st.Inv cap) {p : Word}
    (hx : st.setPos cap p = .stuck f) : st.StuckAtPending cap f := by
  by_cases hroom : st.hpw = true → st.bytePos.toNat < cap
  · obtain ⟨st1, e, -⟩ := Stream.setPos_commits h hroom p
    cases e.symm.trans hx
  · obtain ⟨hp, hb⟩ := Classical.not_imp.1 hroom
    cases (Stream.setPos_full hp (Nat.not_lt.1 hb) p).symm.trans hx
    exact ⟨rfl, hp, Nat.not_lt.1 hb⟩

section
variable {i : Instr} {s : State} {f : Fault} (h : s.Inv)
include h

theorem exec_stuck_of_writes (hi : writesStream i = true) (hx : exec i s = .fault f) :
    f = .storeFull ∧ s.cfg.storeCap < s.stream.bytePos.toNat + 9 := by
  have hlow : s.arg0.toNat % 2 ^ 32 ≤ 2 ^ 32 := (Nat.mod_lt _ (by decide)).le
  cases i
  case wrbit => exact (wrbitWritesBit s h).stuck (by rw [List.length_singleton]; decide) hx
  case wrbits n =>
    obtain ⟨hwrites, hrange⟩ := wrbitsWritesField n s h
    by_cases hn : n.toNat ≤ 64
    · exact (hwrites hn).stuck (by rw [List.length_map, List.length_range]; omega) hx
    · cases (hrange (Nat.not_le.1 hn)).symm.trans hx
  case wrbytes n =>
    obtain ⟨hrange, hrefused, hwrites⟩ := wrbytesWritesBytes n s h
    by_cases hn : n.toNat ≤ 8
    · by_cases hu : s.unalignedRefused
      · cases (hrefused hn hu).symm.trans hx
      · exact (hwrites hn hu).stuck (by rw [List.length_map, List.length_range]; omega) hx
    · cases (hrange (Nat.not_le.1 hn)).symm.trans hx
  case pwr t sg sg2 =>
    have := widthBits_bounds t
    exact (pwrWritesPattern t sg sg2 s h).stuck (by rw [List.length_map, List.length_range]; omega) hx
  case wrue => exact (wrueWritesCode s h).stuck (codeBits_length _ _ ▸ codeLength_le hlow) hx
  case wrse => exact (wrseWritesCode s h).stuck (codeBits_length _ _ ▸ codeLength_le (codeOfSigned_le _)) hx
  case wrte =>
    obtain ⟨hcode, hbit⟩ := wrteWritesCode s h
    by_cases hmax : 1 < s.arg1.toNat % 2 ^ 32
    · exact (hcode hmax).stuck (codeBits_length _ _ ▸ codeLength_le hlow) hx
    · exact (hbit (Nat.not_lt.1 hmax)).stuck (by rw [List.length_singleton]; decide) hx
  all_goals cases hi

/-- The commands that read the stream are those that raise EndOfStream. -/
theorem exec_stuck_of_reads (hi : raisesEnd i = true) (hx : exec i s = .fault f) :
    s.stream.StuckAtPending s.cfg.storeCap f := by
  cases i
  case rdbit p => exact (rdbitReadsBit p s h).stuck hx
  case rdbits n p =>
    obtain ⟨hreads, hrange⟩ := rdbitsReadsField n p s h
    by_cases hn : n.toNat ≤ 64
    · exact (hreads hn).stuck hx
    · cases (hrange (Nat.not_le.1 hn)).symm.trans hx
  case rdbytes n p =>
    obtain ⟨hrange, hrefused, hreads⟩ := rdbytesReadsBytes n p s h
    by_cases hn : n.toNat ≤ 8
    · by_cases hu : s.unalignedRefused
      · cases (hrefused hn hu).symm.trans hx
      · exact (hreads hn hu).stuck hx
    · cases (hrange (Nat.not_le.1 hn)).symm.trans hx
  case skipbits => exact (skipbitsPassesBits s h).stuck hx
  case skipbytes =>
    obtain ⟨hrefused, hreads⟩ := skipbytesPassesBytes s h
    by_cases hu : s.unalignedRefused
    · cases (hrefused hu).symm.trans hx
    · exact (hreads hu).stuck hx
  case prd t sg p => exact (prdReadsPacked t sg p s h).stuck hx
  case rdue p => exact (rdueReadsCode p s h).stuck hx
  case rdse p => exact (rdseReadsCode p s h).stuck hx
  case rdte p =>
    obtain ⟨hcode, hbit⟩ := rdteReadsCode p s h
    by_cases hmax : 1 < s.arg1.toNat % 2 ^ 32
    · exact (hcode hmax).stuck hx
    · exact (hbit (Nat.not_lt.1 hmax)).stuck hx
  all_goals cases hi

/-- A stuck command is at the capacity, or is ALIGN or RELEASE at the last byte address; the commands that only compute are
never stuck. -/
theorem exec_stuck (hx : exec i s = .fault f) :
    (f = .storeFull ∧ (writesStream i = true ∨ s.stream.hpw = true) ∧ s.cfg.storeCap < s.stream.bytePos.toNat + 9) ∨
      (f = .positionOverflow ∧ (i = .align ∨ i = .release) ∧ s.stream.hpw = false ∧
        s.stream.bytePos.toNat = 2 ^ 61 - 1) := by
  have of_pending (hp : s.stream.StuckAtPending s.cfg.storeCap f) : f = .storeFull ∧
      (writesStream i = true ∨ s.stream.hpw = true) ∧ s.cfg.storeCap < s.stream.bytePos.toNat + 9 :=
    ⟨hp.fault, .inr hp.hpw, lt_of_le_of_lt hp.full (Nat.lt_add_of_pos_right (by decide))⟩
  cases i
  case wrbit | wrbits | wrbytes | pwr | wrue | wrse | wrte =>
    obtain ⟨hf, hb⟩ := exec_stuck_of_writes h rfl hx
    exact .inl ⟨hf, .inl rfl, hb⟩
  case rdbit | rdbits | rdbytes | skipbits | skipbytes | prd | rdue | rdse | rdte =>
    exact .inl (of_pending (exec_stuck_of_reads h rfl hx))
  case setpos => exact .inl (of_pending (Stream.setPos_stuck h.stream (State.finish_fault hx)))
  case align =>
    exact (Stream.alignPad_stuck h.stream h.cap_lt (State.finish_fault hx)).imp of_pending fun ⟨hf, hlast⟩ =>
      ⟨hf, .inl rfl, hlast⟩
  case release =>
    have ha := (Res.bind_eq_stuck.1 (State.finish_fault hx)).resolve_right (by rintro ⟨_, _, -, ⟨⟩⟩)
    exact (Stream.alignPad_stuck h.stream h.cap_lt ha).imp of_pending fun ⟨hf, hlast⟩ => ⟨hf, .inr rfl, hlast⟩
  case pfmt | pval | peq => cases hx
  case pbit | pbytes =>
    have hr := State.finish_fault hx
    split at hr <;> cases hr

end

theorem exec_ne_refused (i : Instr) (s : State) (r : Refusal) : exec i s ≠ .refused r := by
  obtain ⟨α, p, res, d, e, -⟩ := exec_eq_finish i s
  exact e ▸ s.finish_ne_refused p res d r

/-- Settles O38: the faults of `exec_stuck`; a command ends in `State.finish`, which refuses nothing. -/
theorem stuckCommands : Obligations.StuckCommands := fun i s h => ⟨exec_ne_refused i s, fun _ => exec_stuck h⟩

/-- Settles O39: neither place where a command is stuck leaves nine bytes of room below the capacity. -/
theorem commandsCompleteWithRoom : Obligations.CommandsCompleteWithRoom := by
  intro i s h hroom
  have hcap := h.cap_lt
  cases hx : exec i s with
  | next t => exact ⟨t, rfl⟩
  | refused r => exact absurd hx (exec_ne_refused i s r)
  | fault f =>
    obtain ⟨-, -, hfull⟩ | ⟨-, -, -, hlast⟩ := exec_stuck h hx
    · omega
    · omega

/-! ### Between commands (R260; 70_reset_and_hazards.md R273) -/

theorem step_nil {s : State} (h : s.host = []) : step s = .next s := by
  unfold step
  rw [h]

/-- Settles O47: with an empty list there is no access to take. -/
theorem idleStep : Obligations.IdleStep := fun _ => step_nil

end Sys2Proof.Machine
end

section
/-! SUPPORT. The command step, reset, and the store changed by the host under the cursor
(spec/70_reset_and_hazards.md R270 to R272, R280, R285, R286). -/

namespace Sys2Proof.Machine

/-! ### The command step (R280) -/

theorem runCommand_of_decode {w : CmdWord} {i : Instr} (h : decode w = .ok i) (s : State) : runCommand w s = exec i s := by
  rw [runCommand, h]

/-- Settles O45: the next access is the CMD write, whose low half decodes to the command. -/
theorem stepRunsDecodedCommand : Obligations.StepRunsDecodedCommand := by
  intro s v rest i hs hd
  rw [step_cons hs, hostAccess_command]
  exact runCommand_of_decode hd _

/-! ### Reset (R270 to R272) -/

theorem State.resetWith_ctrlWord (cfg : Config) :
    (State.resetWith cfg).ctrlWord = (BitVec.ofBool cfg.initAu).setWidth 64 := by
  apply BitVec.eq_of_toNat_eq
  rw [State.ctrlWord_toNat, BitVec.toNat_setWidth_of_le (by decide), BitVec.toNat_ofBool]
  rfl

theorem State.resetWith_statusWord (cfg : Config) : (State.resetWith cfg).statusWord = 0#64 :=
  BitVec.eq_of_toNat_eq (State.statusWord_toNat _)

theorem State.resetWith_posWord (cfg : Config) : (State.resetWith cfg).posWord = 0#64 :=
  BitVec.eq_of_toNat_eq (State.posWord_toNat _)

theorem State.resetWith_cursorWord (cfg : Config) : (State.resetWith cfg).cursorWord = 0#64 :=
  BitVec.eq_of_toNat_eq (State.cursorWord_toNat _)

theorem Stream.resetOver_alignedAt (mem : Memory) (len : Nat) : (Stream.resetOver mem len).alignedAt 0 :=
  ⟨rfl, rfl, rfl, rfl⟩

/-- Settles O55: each register holds its reset value, and CTRL, STATUS, POS and CURSOR are the words of those. -/
theorem resetValues : Obligations.ResetValues := fun cfg =>
  ⟨rfl, rfl, rfl, rfl, State.resetWith_ctrlWord cfg, State.resetWith_statusWord cfg, rfl, rfl, rfl, rfl,
    State.resetWith_posWord cfg, State.resetWith_cursorWord cfg, rfl, rfl, rfl, rfl, rfl⟩

/-- Settles O56: the next state is `State.resetEngine`, whose store is the old one. -/
theorem resetInput : Obligations.ResetInput := fun s _ hs =>
  ⟨_, step_cons hs, rfl, rfl, rfl, rfl, rfl, rfl, rfl, rfl, Stream.resetOver_alignedAt _ _, rfl, rfl, rfl,
    congrFun (Stream.byte?_congr (st := s.stream) rfl rfl)⟩

/-! ### The byte under the cursor, in the store or past its end (10_state.md R38; 40_cursor.md R113, R126) -/

/-- The bits of the byte the cursor is inside are those of PEND, whatever the store holds (10_state.md R38). -/
theorem Stream.SameCursor.field_eq {st st' : Stream} (hc : st.SameCursor st') (h0 : st.bitOff ≠ 0#3) {n : Nat}
    (hn : st.bitOff.toNat + n ≤ 8) : st'.field n = st.field n := by
  have hpos : st'.pos = st.pos := by rw [Stream.pos, Stream.pos, hc.bytePos, hc.bitOff]
  have hbits : ∀ i < n, st'.bitAt (st'.pos + i) = st.bitAt (st.pos + i) := fun i hi => by
    have hk : (st.pos + i) / 8 = st.bytePos.toNat := by unfold Stream.pos; omega
    rw [hpos, Stream.bitAt_inside h0 hk, Stream.bitAt_inside (hc.bitOff ▸ h0) (hc.bytePos ▸ hk), hc.pend]
  have hfrom : st'.bitsFrom n = st.bitsFrom n := List.map_congr_left fun i hi => hbits i (List.mem_range.1 hi)
  rw [← Stream.wordOfBits_bitsFrom, hfrom, Stream.wordOfBits_bitsFrom]

/-- A read inside a byte of the store that the cursor is inside completes with PEND's bits. -/
theorem exec_rdbits_inside {s : State} (h : s.Inv) (hb : s.stream.bytePos.toNat < s.stream.len) {n : BitVec 7}
    (hn : s.stream.bitOff.toNat + n.toNat ≤ 8) :
    ∃ st, exec (.rdbits n false) s = .next (s.done st (s.stream.field n.toNat) s.res1) := by
  have havail : s.stream.avail n.toNat := by unfold Stream.avail Stream.pos; omega
  obtain ⟨st, -, hx⟩ := (exec_rdbits_reads (n := n) h (by omega) false).1 havail fun _ _ =>
    lt_of_lt_of_le hb h.stream.lenLe
  exact ⟨st, hx⟩

/-- With nothing pending a read at or past LEN fails (40_cursor.md R113). -/
theorem exec_rdbit_endOfStream {s : State} (h : s.Inv) (hp : s.stream.hpw = false)
    (hl : s.stream.len ≤ s.stream.bytePos.toNat) (p : Bool) :
    exec (.rdbit p) s = .next (s.failed .endOfStream 0#4) := by
  refine (rdbitReadsBit p s h).2.1 ?_ fun hp' => by simp [hp] at hp'
  simp [Stream.avail_one, hp, hl]

/-- Streams at the same position have their cursors at the same bit of the same byte. -/
theorem Stream.bytePos_bitOff_of_pos_eq {st st' : Stream} (h : st'.pos = st.pos) :
    st'.bytePos = st.bytePos ∧ st'.bitOff = st.bitOff := by
  have d := st.pos_div
  have m := st.pos_mod
  have d' := st'.pos_div
  have m' := st'.pos_mod
  rw [h] at d' m'
  exact ⟨BitVec.eq_of_toNat_eq (d'.symm.trans d), BitVec.eq_of_toNat_eq (m'.symm.trans m)⟩

/-- With nothing pending, SETPOS to the current position inside a byte fetches that byte (40_cursor.md R126). -/
theorem exec_setpos_fetches {s : State} (h : s.Inv) (hp : s.stream.hpw = false) (h0 : s.stream.bitOff ≠ 0#3)
    (hpos : s.arg0.toNat = s.stream.pos) :
    ∃ u, exec .setpos s = .next u ∧ u.stream.pend = (s.stream.byte? s.stream.bytePos.toNat).getD 0#8 ∧
      u.stream.pos = s.stream.pos := by
  obtain ⟨st, hx, hst, -, hbytes, -, hpend, -⟩ := (setposMovesCursor s h).1 fun hp' => by simp [hp] at hp'
  rw [hpos] at hst
  obtain ⟨hbyte, hbit⟩ := Stream.bytePos_bitOff_of_pos_eq hst
  refine ⟨_, hx, ?_, hst⟩
  show st.pend = _
  rw [hpend, hbit, if_neg h0, hbyte, hbytes, if_neg (by simp [hp])]

/-! ### A host write under the latch (R285) -/

theorem Stream.hostWrite_sameCursor (st : Stream) (a : Nat) (b : Byte) : st.SameCursor (st.hostWrite a b) :=
  ⟨rfl, rfl, rfl, rfl⟩

/-- Settles O53: reads go on from PEND (`Stream.SameCursor.field_eq`), SETPOS commits PEND over the host's byte
(`exec_setpos_stores`) or, with nothing pending, fetches it (`exec_setpos_fetches`). -/
theorem hostWriteUnderTheLatch : Obligations.HostWriteUnderTheLatch := by
  intro s b rest h h0 hb hs
  have hw : (s.stream.hostWrite s.stream.bytePos.toNat b).Inv s.cfg.storeCap := Stream.hostWrite_Inv h.stream hb b
  have ht := (h.withHost rest).withStream hw
  refine ⟨_, (step_cons hs).trans (if_pos hb), fun n hn => ?read, fun hp => ?overwrite, fun hp => ?fetch⟩
  case read =>
    obtain ⟨st, hx⟩ := exec_rdbits_inside (h.withHost rest) hb hn
    obtain ⟨st', hx'⟩ := exec_rdbits_inside ht hb hn
    exact ⟨_, _, hx, hx', rfl, (s.stream.hostWrite_sameCursor _ b).field_eq h0 hn⟩
  case overwrite => exact exec_setpos_stores ht hp (lt_of_lt_of_le hb h.stream.lenLe)
  case fetch =>
    have hbyte : (s.stream.hostWrite s.stream.bytePos.toNat b).byte? s.stream.bytePos.toNat = some b :=
      (Stream.byte?_hostWrite h.stream.memWf hb b _).trans (if_pos rfl)
    obtain ⟨u, hx, hpend, hpos⟩ := exec_setpos_fetches
      (s := { s with host := rest, stream := s.stream.hostWrite s.stream.bytePos.toNat b, arg0 := s.posWord })
      ⟨h.cfgWf, hw, h.status⟩ hp h0 s.posWord_toNat
    exact ⟨u, hx, hpend.trans (congrArg (Option.getD · 0#8) hbyte), hpos⟩

/-! ### Truncation under the cursor (R286) -/

/-- ALIGN at or past LEN commits the padded byte and fills the gap below it with 0 (40_cursor.md R115; 20_memory.md R56). -/
theorem exec_align_fills_gap {s : State} (h : s.Inv) (hp : s.stream.hpw = true)
    (hl : s.stream.len ≤ s.stream.bytePos.toNat) (hb : s.stream.bytePos.toNat < s.cfg.storeCap) :
    ∃ u, exec .align s = .next u ∧ u.stream.len = s.stream.bytePos.toNat + 1 ∧
      u.stream.byte? s.stream.bytePos.toNat = some s.stream.paddedPend ∧
      (∀ a, s.stream.len ≤ a → a < s.stream.bytePos.toNat → u.stream.byte? a = some 0#8) ∧
      ∀ a, a < s.stream.len → u.stream.byte? a = s.stream.byte? a := by
  obtain ⟨st, e, ⟨hbytes, hlen⟩, -⟩ := Stream.alignPad_commits h.stream h.cap_lt hp hb
  refine ⟨_, exec_align_of_ok e, hlen.trans (by omega), (hbytes _).trans (if_pos rfl), fun a hla hab => ?gap,
    fun a ha => ?below⟩
  case gap =>
    refine (hbytes a).trans ?_
    rw [Stream.committedByte, if_neg hab.ne, if_neg (Nat.not_lt.2 hla), if_pos hab]
  case below =>
    refine (hbytes a).trans ?_
    rw [Stream.committedByte, if_neg (by omega), if_pos ha]

/-- WRBYTES of at least one byte on a boundary past LEN writes its bytes and fills the gap below them with 0
(40_cursor.md R123; 20_memory.md R56). -/
theorem exec_wrbytes_fills_gap {s : State} (h : s.Inv) (h0 : s.stream.bitOff = 0#3)
    (hl : s.stream.len ≤ s.stream.bytePos.toNat) {n : BitVec 7} (hn0 : 0 < n.toNat) (hn : n.toNat ≤ 8)
    (hroom : s.stream.bytePos.toNat + n.toNat ≤ s.cfg.storeCap) :
    ∃ u, exec (.wrbytes n) s = .next u ∧ u.stream.len = s.stream.bytePos.toNat + n.toNat ∧
      (∀ k, k < n.toNat → u.stream.byte? (s.stream.bytePos.toNat + k) = some (s.arg0.extractLsb' (8 * k) 8)) ∧
      (∀ a, s.stream.len ≤ a → a < s.stream.bytePos.toNat → u.stream.byte? a = some 0#8) ∧
      ∀ a, a < s.stream.len → u.stream.byte? a = s.stream.byte? a := by
  obtain ⟨st, hx, -, hwritten, hframe, hgap, hlen, -⟩ := alignedWrbytesStoresBytes n s h h0 hn hroom
  rw [if_neg ((count_eq_zero_iff n).not.2 hn0.ne'), max_eq_right (by omega)] at hlen
  exact ⟨_, hx, hlen, hwritten, fun a hla hab => hgap a hla hab hn0, fun a ha => hframe a (by omega) ha⟩

/-- Below the new length a truncation keeps the bytes. -/
theorem Stream.byte?_hostTruncate_of_lt {st : Stream} {l a : Nat} (ha : a < min st.len l) :
    (st.hostTruncate l).byte? a = st.byte? a := by
  rw [Stream.byte?_hostTruncate, if_pos (lt_of_lt_of_le ha (min_le_right _ _))]

/-- Settles O54: the cursor is left at or past LEN, where reads end (`exec_rdbit_endOfStream`) and commits fill the gap
(`exec_align_fills_gap`, `exec_wrbytes_fills_gap`). -/
theorem truncationUnderTheCursor : Obligations.TruncationUnderTheCursor := by
  intro s l rest h hs
  have ht := (h.withHost rest).withStream (Stream.hostTruncate_Inv h.stream l)
  have hlen {a : Nat} (hl : l ≤ a) : (s.stream.hostTruncate l).len ≤ a := le_trans (min_le_right _ _) hl
  refine ⟨_, step_cons hs, fun _ hl => ⟨fun hp p => ?insideRead, fun hp hb => ?insideCommit⟩,
    fun h0 hl => ⟨fun p => ?boundaryRead, fun n hn0 hn hroom => ?boundaryWrite⟩⟩
  case insideRead => exact exec_rdbit_endOfStream ht hp (hlen hl) p
  case insideCommit =>
    obtain ⟨u, hx, hul, hpadded, hgap, hbelow⟩ := exec_align_fills_gap ht hp (hlen hl) hb
    exact ⟨u, hx, hul, hpadded, hgap, fun a ha => (hbelow a ha).trans (Stream.byte?_hostTruncate_of_lt ha)⟩
  case boundaryRead => exact exec_rdbit_endOfStream ht (h.stream.aligned h0).2 (hlen hl.le) p
  case boundaryWrite =>
    obtain ⟨u, hx, hul, hwritten, hgap, hbelow⟩ := exec_wrbytes_fills_gap ht h0 (hlen hl.le) hn0 hn hroom
    exact ⟨u, hx, hul, hwritten, hgap, fun a ha => (hbelow a ha).trans (Stream.byte?_hostTruncate_of_lt ha)⟩

end Sys2Proof.Machine
end
